-- ==== Sys2Proof/Word.lean ====
section
/-! DEFINITION. The plain word types of the DCF Feistel cipher engine (spec 00_scope.md R9, R11). -/

namespace Sys2Proof

/-- A register word, a command word, or the data of one bus access: 64 bits, bit 0 least
significant (R11, R61). -/
abbrev Word := BitVec 64

/-- One byte of the output character memory, and the width of an opcode (R34, R81). -/
abbrev Byte := BitVec 8

/-- A bit vector of the source: a finite sequence of bits whose element 0 is the MOST significant
(R9). Its length is not fixed by the type: a vector register holds any length 0..64 (C3, R24). -/
abbrev Bits := List Bool

/-- The number of a vector register, V0..V7 (R24). -/
abbrev VIndex := Fin 8

/-- A byte offset in the 4 KiB bus window (R61). -/
abbrev Offset := BitVec 12

end Sys2Proof
end

