-- ==== Sys2Proof/Syntax.lean ====
section
/-! DEFINITION. The command set as syntax: one constructor per row of spec/opcode_table.json
(30_encoding.md R83). The machine never sees a raw encoding. -/

namespace Sys2Proof

/-- A legal command with its used fields (R83, R89). `vd`, `vs1`, `vs2` name vector registers
directly, `imm` is the unsigned 32-bit immediate and `tbl` the table id of PERM (R82, R84). Only
`tbl` admits a value that no legal command has (7..15): `Instr.WellFormed` refuses it. -/
inductive Instr where
  /-- R230 -/
  | nop
  /-- R231 -/
  | abort
  /-- R232 -/
  | clrerr
  /-- R133 -/
  | perm (vd vs1 : VIndex) (tbl : BitVec 4)
  /-- R136 -/
  | xor (vd vs1 vs2 : VIndex)
  /-- R151 -/
  | subst (vd vs1 : VIndex)
  /-- R111 -/
  | i2b (vd vs1 : VIndex) (imm : BitVec 32)
  /-- R114 -/
  | b2i (vd vs1 : VIndex)
  /-- R115 -/
  | hex (vs1 : VIndex)
  /-- R166 -/
  | ksched (vs1 : VIndex)
  /-- R181 -/
  | finit (vs1 : VIndex)
  /-- R183 -/
  | fround
  /-- R185 -/
  | ffinal (vd : VIndex)
  /-- R186: `vs1` is the data block, `vs2` the key block. -/
  | fblock (vd vs1 vs2 : VIndex)
  /-- R202 -/
  | kclr
  /-- R203 -/
  | kputc (imm : BitVec 32)
  /-- R205 -/
  | kend
  /-- R206 -/
  | dputc (imm : BitVec 32)
  /-- R207 -/
  | dend
  /-- R209 -/
  | casc (vd vs1 : VIndex)
  /-- R210 -/
  | oclr
  deriving DecidableEq, Repr

/-- The mnemonics of the opcode map (R83), without operands. -/
inductive Mnemonic where
  | nop | abort | clrerr | perm | xor | subst | i2b | b2i | hex | ksched | finit | fround | ffinal
  | fblock | kclr | kputc | kend | dputc | dend | casc | oclr
  deriving DecidableEq, Repr

end Sys2Proof
end

