-- ==== Sys2Proof/WellFormed.lean ====
section
/-! DEFINITION. Which instruction terms stand for a legal command word (30_encoding.md R84, R85). -/

namespace Sys2Proof

/-- A table id that R84 assigns: 0..6. Ids 7..15 are reserved. -/
abbrev tableIdLegal (tbl : BitVec 4) : Prop := tbl.toNat ≤ 6

/-- The one check that the operand types leave open: PERM's table id (R85: "for PERM, TBL <= 6").
Every register field is 3 bits and every immediate 32 bits by its type. -/
def Instr.wellFormed : Instr → Bool
  | .perm _ _ tbl => decide (tableIdLegal tbl)
  | .nop | .abort | .clrerr | .xor _ _ _ | .subst _ _ | .i2b _ _ _ | .b2i _ _ | .hex _
  | .ksched _ | .finit _ | .fround | .ffinal _ | .fblock _ _ _ | .kclr | .kputc _ | .kend
  | .dputc _ | .dend | .casc _ _ | .oclr => true

/-- `i` stands for a legal command word. -/
abbrev Instr.WellFormed (i : Instr) : Prop := i.wellFormed = true

end Sys2Proof
end

