-- ==== Sys2Proof/Decode.lean ====
section
/-! DEFINITION. The decoder of command words, total and rejecting by name, and the encoder
(30_encoding.md R80-R89). -/

namespace Sys2Proof

/-- The mnemonic of a command. -/
def Instr.mnemonic : Instr → Mnemonic
  | .nop => .nop
  | .abort => .abort
  | .clrerr => .clrerr
  | .perm _ _ _ => .perm
  | .xor _ _ _ => .xor
  | .subst _ _ => .subst
  | .i2b _ _ _ => .i2b
  | .b2i _ _ => .b2i
  | .hex _ => .hex
  | .ksched _ => .ksched
  | .finit _ => .finit
  | .fround => .fround
  | .ffinal _ => .ffinal
  | .fblock _ _ _ => .fblock
  | .kclr => .kclr
  | .kputc _ => .kputc
  | .kend => .kend
  | .dputc _ => .dputc
  | .dend => .dend
  | .casc _ _ => .casc
  | .oclr => .oclr

/-- The opcode OP[7:0] of each mnemonic (R83). -/
def Mnemonic.code : Mnemonic → Byte
  | .nop => 0x00
  | .abort => 0x01
  | .clrerr => 0x02
  | .perm => 0x10
  | .xor => 0x11
  | .subst => 0x12
  | .i2b => 0x13
  | .b2i => 0x14
  | .hex => 0x15
  | .ksched => 0x20
  | .finit => 0x30
  | .fround => 0x31
  | .ffinal => 0x32
  | .fblock => 0x33
  | .kclr => 0x40
  | .kputc => 0x41
  | .kend => 0x42
  | .dputc => 0x43
  | .dend => 0x44
  | .casc => 0x45
  | .oclr => 0x46

/-- Every mnemonic, in the order of R83. -/
def Mnemonic.all : List Mnemonic :=
  [.nop, .abort, .clrerr, .perm, .xor, .subst, .i2b, .b2i, .hex, .ksched, .finit, .fround,
   .ffinal, .fblock, .kclr, .kputc, .kend, .dputc, .dend, .casc, .oclr]

/-- The mnemonic that R83 assigns to an opcode, if any. -/
def Mnemonic.ofCode (op : Byte) : Option Mnemonic :=
  Mnemonic.all.find? (fun m => m.code == op)

/-- Which fields a command uses: the column "used fields" of R83. -/
structure UsedFields where
  vd : Bool
  vs1 : Bool
  vs2 : Bool
  tbl : Bool
  imm : Bool
  deriving DecidableEq, Repr

/-- The column "used fields" of R83, row by row. -/
def Mnemonic.uses : Mnemonic → UsedFields
  | .nop | .abort | .clrerr | .fround | .kclr | .kend | .dend | .oclr =>
    ⟨false, false, false, false, false⟩
  | .perm => ⟨true, true, false, true, false⟩
  | .xor | .fblock => ⟨true, true, true, false, false⟩
  | .subst | .b2i | .casc => ⟨true, true, false, false, false⟩
  | .i2b => ⟨true, true, false, false, true⟩
  | .hex | .ksched | .finit => ⟨false, true, false, false, false⟩
  | .ffinal => ⟨true, false, false, false, false⟩
  | .kputc | .dputc => ⟨false, false, false, false, true⟩

/-! ### The fields of a command word (R81) -/

/-- OP = word[7:0] -/
def opField (w : Word) : Byte := w.extractLsb' 0 8
/-- VD = word[10:8] -/
def vdField (w : Word) : BitVec 3 := w.extractLsb' 8 3
/-- VS1 = word[14:12] -/
def vs1Field (w : Word) : BitVec 3 := w.extractLsb' 12 3
/-- VS2 = word[18:16] -/
def vs2Field (w : Word) : BitVec 3 := w.extractLsb' 16 3
/-- TBL = word[23:20] -/
def tblField (w : Word) : BitVec 4 := w.extractLsb' 20 4
/-- IMM = word[63:32] -/
def immField (w : Word) : BitVec 32 := w.extractLsb' 32 32

/-- The reserved bits 11, 15, 19 and 31:24 are all 0 (R81, R85). -/
def reservedClear (w : Word) : Bool :=
  w.extractLsb' 11 1 == 0 && w.extractLsb' 15 1 == 0 && w.extractLsb' 19 1 == 0
    && w.extractLsb' 24 8 == 0

/-- Every field that the command does not use is 0 (R85). -/
def unusedClear (u : UsedFields) (w : Word) : Bool :=
  (u.vd || vdField w == 0) && (u.vs1 || vs1Field w == 0) && (u.vs2 || vs2Field w == 0)
    && (u.tbl || tblField w == 0) && (u.imm || immField w == 0)

/-- A vector register named by a 3-bit field (R82). -/
def vreg (f : BitVec 3) : VIndex := f.toFin

/-- The command of mnemonic `m` with the operand fields of `w` (R82, R83). -/
def operandsOf (m : Mnemonic) (w : Word) : Instr :=
  let d := vreg (vdField w)
  let a := vreg (vs1Field w)
  let b := vreg (vs2Field w)
  match m with
  | .nop => .nop
  | .abort => .abort
  | .clrerr => .clrerr
  | .perm => .perm d a (tblField w)
  | .xor => .xor d a b
  | .subst => .subst d a
  | .i2b => .i2b d a (immField w)
  | .b2i => .b2i d a
  | .hex => .hex a
  | .ksched => .ksched a
  | .finit => .finit a
  | .fround => .fround
  | .ffinal => .ffinal d
  | .fblock => .fblock d a b
  | .kclr => .kclr
  | .kputc => .kputc (immField w)
  | .kend => .kend
  | .dputc => .dputc (immField w)
  | .dend => .dend
  | .casc => .casc d a
  | .oclr => .oclr

/-- Why a word is not legal (R85, R86). The engine reports every one of them as IllegalCommand
(R246); the names are the model's, DESIGN CHOICE (log entry 14), safe. -/
inductive Illegal where
  /-- OP is not in R83. -/
  | unknownOpcode (op : Byte)
  /-- A reserved bit (11, 15, 19, 31:24) is not 0. -/
  | reservedBit
  /-- A field that the command does not use is not 0. -/
  | unusedField (m : Mnemonic)
  /-- PERM with TBL 7..15. -/
  | reservedTable (tbl : BitVec 4)
  deriving DecidableEq, Repr

/-- The decoder (R85, R89): total, and each legal word is exactly one command. -/
def decode (w : Word) : Except Illegal Instr :=
  match Mnemonic.ofCode (opField w) with
  | none => .error (.unknownOpcode (opField w))
  | some m =>
    if reservedClear w = false then .error .reservedBit
    else if unusedClear m.uses w = false then .error (.unusedField m)
    else if (operandsOf m w).wellFormed = false then .error (.reservedTable (tblField w))
    else .ok (operandsOf m w)

/-- R85's "legal": the decoder answers a command. -/
def legal (w : Word) : Bool :=
  match decode w with
  | .ok _ => true
  | .error _ => false

/-- The match and mask of each row of the opcode table (R83): a word encodes the row iff
`w & mask = match` (and, for PERM, TBL is at most 6). -/
def Mnemonic.matchMask : Mnemonic → Word × Word
  | .nop => (0x0000000000000000, 0xFFFFFFFFFFFFFFFF)
  | .abort => (0x0000000000000001, 0xFFFFFFFFFFFFFFFF)
  | .clrerr => (0x0000000000000002, 0xFFFFFFFFFFFFFFFF)
  | .perm => (0x0000000000000010, 0xFFFFFFFFFF0F88FF)
  | .xor => (0x0000000000000011, 0xFFFFFFFFFFF888FF)
  | .subst => (0x0000000000000012, 0xFFFFFFFFFFFF88FF)
  | .i2b => (0x0000000000000013, 0x00000000FFFF88FF)
  | .b2i => (0x0000000000000014, 0xFFFFFFFFFFFF88FF)
  | .hex => (0x0000000000000015, 0xFFFFFFFFFFFF8FFF)
  | .ksched => (0x0000000000000020, 0xFFFFFFFFFFFF8FFF)
  | .finit => (0x0000000000000030, 0xFFFFFFFFFFFF8FFF)
  | .fround => (0x0000000000000031, 0xFFFFFFFFFFFFFFFF)
  | .ffinal => (0x0000000000000032, 0xFFFFFFFFFFFFF8FF)
  | .fblock => (0x0000000000000033, 0xFFFFFFFFFFF888FF)
  | .kclr => (0x0000000000000040, 0xFFFFFFFFFFFFFFFF)
  | .kputc => (0x0000000000000041, 0x00000000FFFFFFFF)
  | .kend => (0x0000000000000042, 0xFFFFFFFFFFFFFFFF)
  | .dputc => (0x0000000000000043, 0x00000000FFFFFFFF)
  | .dend => (0x0000000000000044, 0xFFFFFFFFFFFFFFFF)
  | .casc => (0x0000000000000045, 0xFFFFFFFFFFFF88FF)
  | .oclr => (0x0000000000000046, 0xFFFFFFFFFFFFFFFF)

/-- A field of a register word or a command word, with its least significant bit at bit `lo`. -/
def fieldAt {w : Nat} (lo : Nat) (x : BitVec w) : Word := x.setWidth 64 <<< lo

/-- A command word from its fields, the reserved bits 0 (R81). -/
def commandWord (op : Byte) (vd vs1 vs2 : BitVec 3) (tbl : BitVec 4) (imm : BitVec 32) : Word :=
  fieldAt 0 op ||| fieldAt 8 vd ||| fieldAt 12 vs1 ||| fieldAt 16 vs2 ||| fieldAt 20 tbl
    ||| fieldAt 32 imm

/-- The 3-bit field that names a vector register. -/
def regField (n : VIndex) : BitVec 3 := BitVec.ofFin n

/-- The encoder: the one word of each command (R85: "each legal command has exactly one encoding
for each choice of its used fields"). -/
def encode (i : Instr) : Word :=
  let op := i.mnemonic.code
  match i with
  | .perm d a t => commandWord op (regField d) (regField a) 0 t 0
  | .xor d a b | .fblock d a b => commandWord op (regField d) (regField a) (regField b) 0 0
  | .subst d a | .b2i d a | .casc d a => commandWord op (regField d) (regField a) 0 0 0
  | .i2b d a imm => commandWord op (regField d) (regField a) 0 0 imm
  | .hex a | .ksched a | .finit a => commandWord op 0 (regField a) 0 0 0
  | .ffinal d => commandWord op (regField d) 0 0 0 0
  | .kputc imm | .dputc imm => commandWord op 0 0 0 0 imm
  | .nop | .abort | .clrerr | .fround | .kclr | .kend | .dend | .oclr => commandWord op 0 0 0 0 0

/-- The command word whose bits are `w`, of which the table gives `nbits` (the host's question).
A command is one 64-bit word (R80): a number that does not fit 64 bits is no command word. -/
def commandWordOfNat (nbits w : Nat) : Option Word :=
  if w % 2 ^ nbits < 2 ^ 64 then some (BitVec.ofNat 64 (w % 2 ^ nbits)) else none

/-- The instruction the decoder reads from an instruction whose bits are `w`. -/
def decodeTableWord (nbits w : Nat) : Option Instr :=
  match commandWordOfNat nbits w with
  | none => none
  | some x =>
    match decode x with
    | .ok i => some i
    | .error _ => none

end Sys2Proof
end

