-- ==== Sys2Proof/Config.lean ====
section
/-! DEFINITION. What one instance of the engine fixes (00_scope.md R7), and the free values: opaque
constants with no body for every value the spec leaves unspecified (93_implementation_defined.md). -/

namespace Sys2Proof.Config

/-- The capacity of the key-block memory KBM, in 64-bit key blocks (R7, D21). -/
def KB_DEPTH : Nat := 64

/-- The capacity of the output character memory OCM, in bytes (R7, D22). -/
def OCM_SIZE : Nat := 2048

/-- The constant the ID register reads (R22). -/
def ID_VALUE : Word := 0x4443464500000007

/-- The constant tables of R7, which the source names by shape and gives no value of. They are
parameters of an instance: plain data, so that a claim can be stated for every instance. -/
structure Params where
  /-- IP_TABLE: 64 indices into a 64-element input. -/
  ip : Vector Nat 64
  /-- FP_TABLE: 64 indices into a 64-element input. -/
  fp : Vector Nat 64
  /-- E_TABLE: 48 indices into a 32-element input. -/
  e : Vector Nat 48
  /-- P_TABLE: 32 indices into a 32-element input. -/
  p : Vector Nat 32
  /-- PC2_TABLE: 48 indices into a 56-element input. -/
  pc2 : Vector Nat 48
  /-- SBOX: 8 matrices of 4 rows and 16 columns of 4-bit values. -/
  sbox : Vector (Vector (Vector (BitVec 4) 16) 4) 8
  /-- WEIGHT: 6 naturals (R152, R153). -/
  weight : Vector Nat 6
  /-- ROT: 16 naturals (R167). -/
  rot : Vector Nat 16
  deriving DecidableEq, Repr, Inhabited

/-- PARAM_WF (R8): every table entry is below the length of the input it indexes. -/
def Params.wf (t : Params) : Bool :=
  t.ip.toList.all (· < 64) && t.fp.toList.all (· < 64) && t.e.toList.all (· < 32)
    && t.p.toList.all (· < 32) && t.pc2.toList.all (· < 56)

/-- R8's PARAM_WF as a proposition. -/
abbrev Params.Wf (t : Params) : Prop := t.wf = true

/-- FREE VALUE, DESIGN CHOICE (log entry 2), safe. The tables of this hardware: U1, OPEN (R7, D12).
No proof can see a value. -/
opaque tables : Params

/-- FREE VALUE, DESIGN CHOICE (log entry 5), safe. `latencyExtra word tick`: how many cycles beyond the first the command `word`,
accepted at step `tick`, takes. LATENCY is this plus 1: finite and at least 1, otherwise
unspecified (R280, U6). -/
opaque latencyExtra : Word → Nat → Nat

/-- FREE VALUE, DESIGN CHOICE (log entry 6), safe. `busyRead tick offset`: what a read of a register other than ID and STATUS returns
while BUSY = 1 (R282, U11). -/
opaque busyRead : Nat → Offset → Word

/-- FREE VALUE, DESIGN CHOICE (log entry 4), safe. `kbmUnwritten tick k`: what KBM[k] reads as if it was not written since reset
(R271, U9). -/
opaque kbmUnwritten : Nat → Nat → Word

/-- FREE VALUE, DESIGN CHOICE (log entry 4), safe. `ocmUnwritten tick a`: what OCM byte `a` reads as if it was not written since
reset (R271, U9). -/
opaque ocmUnwritten : Nat → Nat → Byte

/-- How the host maps a string to character values: HOST_CHAR_UNIT (R7, U7, D11). The engine sees the
values only. -/
inductive HostCharUnit where
  /-- One value for each character, its code point. -/
  | codePoint
  /-- One value for each UTF-16 code unit: two for a character above U+FFFF. -/
  | utf16
  /-- Any other map, since D11 leaves the host side open. -/
  | other
  deriving DecidableEq, Repr, Inhabited

/-- FREE VALUE, DESIGN CHOICE (log entry 16), safe. The unit this host uses: HOST_CHAR_UNIT, OPEN and
host side (R7, U7). -/
opaque hostCharUnit : HostCharUnit

/-- FREE VALUE, DESIGN CHOICE (log entry 16), safe. `otherHostValues s`: the character values of the
string `s` for a host of the unit `other` (R7, U7). -/
opaque otherHostValues : String → List (BitVec 32)

/-- FREE VALUE, DESIGN CHOICE (log entry 16), safe. The base address of the register window in the host's address space: ENGINE_BASE,
OPEN and the platform's (R7, R74, U8). -/
opaque engineBase : Nat

/-- One S-box matrix from its four rows of sixteen numbers. -/
def sboxRows (r0 r1 r2 r3 : Vector (BitVec 4) 16) : Vector (Vector (BitVec 4) 16) 4 :=
  #v[r0, r1, r2, r3]

/-- The candidate table set of 93_implementation_defined.md G1. PRESUMED (log entry 17), safe, not normative: the
machine never refers to it. Tests and witnesses use it as one instance of the parameters. -/
def candidate : Params where
  ip := #v[57, 49, 41, 33, 25, 17, 9, 1, 59, 51, 43, 35, 27, 19, 11, 3,
           61, 53, 45, 37, 29, 21, 13, 5, 63, 55, 47, 39, 31, 23, 15, 7,
           56, 48, 40, 32, 24, 16, 8, 0, 58, 50, 42, 34, 26, 18, 10, 2,
           60, 52, 44, 36, 28, 20, 12, 4, 62, 54, 46, 38, 30, 22, 14, 6]
  fp := #v[39, 7, 47, 15, 55, 23, 63, 31, 38, 6, 46, 14, 54, 22, 62, 30,
           37, 5, 45, 13, 53, 21, 61, 29, 36, 4, 44, 12, 52, 20, 60, 28,
           35, 3, 43, 11, 51, 19, 59, 27, 34, 2, 42, 10, 50, 18, 58, 26,
           33, 1, 41, 9, 49, 17, 57, 25, 32, 0, 40, 8, 48, 16, 56, 24]
  e := #v[31, 0, 1, 2, 3, 4, 3, 4, 5, 6, 7, 8, 7, 8, 9, 10,
          11, 12, 11, 12, 13, 14, 15, 16, 15, 16, 17, 18, 19, 20, 19, 20,
          21, 22, 23, 24, 23, 24, 25, 26, 27, 28, 27, 28, 29, 30, 31, 0]
  p := #v[15, 6, 19, 20, 28, 11, 27, 16, 0, 14, 22, 25, 4, 17, 30, 9,
          1, 7, 23, 13, 31, 26, 2, 8, 18, 12, 29, 5, 21, 10, 3, 24]
  pc2 := #v[13, 16, 10, 23, 0, 4, 2, 27, 14, 5, 20, 9, 22, 18, 11, 3,
            25, 7, 15, 6, 26, 19, 12, 1, 40, 51, 30, 36, 46, 54, 29, 39,
            50, 44, 32, 47, 43, 48, 38, 55, 33, 52, 45, 41, 49, 35, 28, 31]
  sbox := #v[
    sboxRows #v[14, 4, 13, 1, 2, 15, 11, 8, 3, 10, 6, 12, 5, 9, 0, 7]
             #v[0, 15, 7, 4, 14, 2, 13, 1, 10, 6, 12, 11, 9, 5, 3, 8]
             #v[4, 1, 14, 8, 13, 6, 2, 11, 15, 12, 9, 7, 3, 10, 5, 0]
             #v[15, 12, 8, 2, 4, 9, 1, 7, 5, 11, 3, 14, 10, 0, 6, 13],
    sboxRows #v[15, 1, 8, 14, 6, 11, 3, 4, 9, 7, 2, 13, 12, 0, 5, 10]
             #v[3, 13, 4, 7, 15, 2, 8, 14, 12, 0, 1, 10, 6, 9, 11, 5]
             #v[0, 14, 7, 11, 10, 4, 13, 1, 5, 8, 12, 6, 9, 3, 2, 15]
             #v[13, 8, 10, 1, 3, 15, 4, 2, 11, 6, 7, 12, 0, 5, 14, 9],
    sboxRows #v[10, 0, 9, 14, 6, 3, 15, 5, 1, 13, 12, 7, 11, 4, 2, 8]
             #v[13, 7, 0, 9, 3, 4, 6, 10, 2, 8, 5, 14, 12, 11, 15, 1]
             #v[13, 6, 4, 9, 8, 15, 3, 0, 11, 1, 2, 12, 5, 10, 14, 7]
             #v[1, 10, 13, 0, 6, 9, 8, 7, 4, 15, 14, 3, 11, 5, 2, 12],
    sboxRows #v[7, 13, 14, 3, 0, 6, 9, 10, 1, 2, 8, 5, 11, 12, 4, 15]
             #v[13, 8, 11, 5, 6, 15, 0, 3, 4, 7, 2, 12, 1, 10, 14, 9]
             #v[10, 6, 9, 0, 12, 11, 7, 13, 15, 1, 3, 14, 5, 2, 8, 4]
             #v[3, 15, 0, 6, 10, 1, 13, 8, 9, 4, 5, 11, 12, 7, 2, 14],
    sboxRows #v[2, 12, 4, 1, 7, 10, 11, 6, 8, 5, 3, 15, 13, 0, 14, 9]
             #v[14, 11, 2, 12, 4, 7, 13, 1, 5, 0, 15, 10, 3, 9, 8, 6]
             #v[4, 2, 1, 11, 10, 13, 7, 8, 15, 9, 12, 5, 6, 3, 0, 14]
             #v[11, 8, 12, 7, 1, 14, 2, 13, 6, 15, 0, 9, 10, 4, 5, 3],
    sboxRows #v[12, 1, 10, 15, 9, 2, 6, 8, 0, 13, 3, 4, 14, 7, 5, 11]
             #v[10, 15, 4, 2, 7, 12, 9, 5, 6, 1, 13, 14, 0, 11, 3, 8]
             #v[9, 14, 15, 5, 2, 8, 12, 3, 7, 0, 4, 10, 1, 13, 11, 6]
             #v[4, 3, 2, 12, 9, 5, 15, 10, 11, 14, 1, 7, 6, 0, 8, 13],
    sboxRows #v[4, 11, 2, 14, 15, 0, 8, 13, 3, 12, 9, 7, 5, 10, 6, 1]
             #v[13, 0, 11, 7, 4, 9, 1, 10, 14, 3, 5, 12, 2, 15, 8, 6]
             #v[1, 4, 11, 13, 12, 3, 7, 14, 10, 15, 6, 8, 0, 5, 9, 2]
             #v[6, 11, 13, 8, 1, 4, 10, 7, 9, 5, 0, 15, 14, 2, 3, 12],
    sboxRows #v[13, 2, 8, 4, 6, 15, 11, 1, 10, 9, 3, 14, 5, 0, 12, 7]
             #v[1, 15, 13, 8, 10, 3, 7, 4, 12, 5, 6, 11, 0, 14, 9, 2]
             #v[7, 11, 4, 1, 9, 12, 14, 2, 0, 6, 10, 13, 15, 3, 5, 8]
             #v[2, 1, 14, 7, 4, 10, 8, 13, 15, 12, 9, 0, 3, 5, 6, 11]]
  weight := #v[2, 8, 4, 2, 1, 1]
  rot := #v[1, 1, 2, 2, 2, 2, 2, 2, 1, 2, 2, 2, 2, 2, 2, 1]

end Sys2Proof.Config
end

