-- ==== Sys2Proof/Machine/State.lean ====
section
/-! DEFINITION. The state of one engine and of the host that drives it, as plain data
(10_state.md R20), and the machine right after reset (70_reset_and_hazards.md R270). -/

namespace Sys2Proof.Machine

/-- The errors a command can raise (60_exceptions.md R241). NONE, code 0, is no error. -/
inductive Err where
  | invalidLength
  | invalidCharacter
  | invalidPermutationTable
  | illegalCommand
  | sequenceError
  | keyRingFull
  | outputFull
  | sBoxRange
  deriving DecidableEq, Repr

/-- Why the machine stops with a fault. There is NO constructor: the spec has no behaviour in which
the engine stops (93_implementation_defined.md: "No behaviour of this engine is `stuck`. Every
command completes"). DEDUCED (log entry 10), safe. An error of R241 is a NEXT state with STATUS.ERR set, never a fault. SAFE: a
claim about faults says nothing here. -/
inductive Fault where
  deriving DecidableEq, Repr

/-- Why the machine has no meaning for an instruction. -/
inductive Refusal where
  /-- Raised by an arm of `exec` for an instruction that has no meaning yet. SAFE: the machine stops
  where the hardware goes on. No arm raises it now. -/
  | notModelled (mnemonic : String)
  deriving DecidableEq, Repr

/-- A vector register: a 64-bit payload and a 7-bit length (R24). -/
structure VReg where
  pay : Word
  len : BitVec 7
  deriving DecidableEq, Repr

/-- The sequencer (R40): IDLE is BUSY = 0; EXECUTING is BUSY = 1 with the command word latched in
CMD (R23) and the number of cycles still to pass before the engine performs its step (R280). -/
inductive Sequencer where
  | idle
  | executing (word : Word) (left : Nat)
  deriving DecidableEq, Repr

/-- What the host, the second agent (R2), does in one cycle. -/
inductive HostAction where
  /-- `BusRead(o)` (R61). -/
  | read (o : Offset)
  /-- `BusWrite(o, x)` (R61). -/
  | write (o : Offset) (x : Word)
  /-- `WAIT` (R92): read STATUS, and again in the next cycle while its bit 0 (BUSY) is 1. -/
  | wait
  /-- No bus access in this cycle. -/
  | idle
  /-- The reset input `rst` is asserted (R272). No bus access completes in this cycle. -/
  | rst
  deriving DecidableEq, Repr

/-- A memory: the list of the cells written since reset, by rising address. An address that is not
listed was not written since reset, and has no value of its own (R271). -/
abbrev Mem (α : Type) := List (Nat × α)

/-- The whole state. The fields `params`, `tick`, `host` and `readData` are the model's own; every
other field is state the spec names in R20. -/
structure State where
  /-- MODEL'S OWN, DESIGN CHOICE (log entry 2), safe. The constant tables of this instance (R7): configuration. No step changes it. -/
  params : Config.Params
  /-- V0..V7 (R24). -/
  v : Vector VReg 8
  /-- The round-key file RK0..RK15, 48 elements each (R29). -/
  rk : Vector (BitVec 48) 16
  /-- The Feistel half L, 32 elements (R30). -/
  l : BitVec 32
  /-- The Feistel half R, 32 elements (R30). -/
  r : BitVec 32
  /-- ROUND, the number of Feistel rounds done, 0..16 (R32). -/
  round : Nat
  /-- FACT, a block is between FINIT and FFINAL (R32). -/
  fact : Bool
  /-- KSTATE, the 56-element key state (R31). -/
  kstate : BitVec 56
  /-- KBM, the key-block memory: 64-bit key blocks by index (R33). -/
  kbm : Mem Word
  /-- NKB, the number of valid key blocks, 0..KB_DEPTH (R33). -/
  nkb : Nat
  /-- KPBUF, the key pack buffer (R35). -/
  kpbuf : Word
  /-- KPN, the number of key characters in KPBUF, 0..3 (R35). -/
  kpn : Nat
  /-- DPBUF, the data pack buffer (R36). -/
  dpbuf : Word
  /-- DPN, the number of plaintext characters in DPBUF, 0..3 (R36). -/
  dpn : Nat
  /-- OCM, the output character memory: bytes by index (R34). -/
  ocm : List Host.Cell
  /-- OCNT, the number of valid output bytes, 0..OCM_SIZE (R34). -/
  ocnt : Nat
  /-- The sequencer: STATUS.BUSY and the command latched in CMD (R23, R37, R40). -/
  seq : Sequencer
  /-- STATUS.DONE (R37, R248). -/
  done : Bool
  /-- STATUS.WBUSY (R37, R281). -/
  wbusy : Bool
  /-- STATUS.REJ (R37, R244). -/
  rej : Bool
  /-- STATUS.ERR, the error code (R37, R241). -/
  err : BitVec 4
  /-- STATUS.ERROP, the OP field of the command that set ERR (R37, R242). -/
  errop : Byte
  /-- CTRL.IE, the interrupt enable (R38). -/
  ie : Bool
  /-- MODEL'S OWN, DESIGN CHOICE (log entry 3), safe. How many steps the machine has made: the index of every free value. -/
  tick : Nat
  /-- MODEL'S OWN, DESIGN CHOICE (log entry 8), unsafe. What the host does next, first action first (R2). -/
  host : List HostAction
  /-- MODEL'S OWN, DESIGN CHOICE (log entry 8), unsafe. What the host's last `BusRead` returned; none before the first. -/
  readData : Option Word
  deriving DecidableEq, Repr

/-- STATUS.BUSY (R37): a command is latched and not yet complete. -/
def State.busy (s : State) : Bool :=
  match s.seq with
  | .idle => false
  | .executing _ _ => true

/-- The machine right after reset (R270, R273): IDLE, every register 0, every vector register the
empty vector, no key block, no output, no error; KBM and OCM hold nothing a claim may rely on
(R271). The tables are the instance's (a free value). The host has nothing to do yet. -/
def State.reset : State where
  params := Config.tables
  v := Vector.replicate 8 { pay := 0, len := 0 }
  rk := Vector.replicate 16 0
  l := 0
  r := 0
  round := 0
  fact := false
  kstate := 0
  kbm := []
  nkb := 0
  kpbuf := 0
  kpn := 0
  dpbuf := 0
  dpn := 0
  ocm := []
  ocnt := 0
  seq := .idle
  done := false
  wbusy := false
  rej := false
  err := 0
  errop := 0
  ie := false
  tick := 0
  host := []
  readData := none

end Sys2Proof.Machine
end

