-- ==== Sys2Proof/Machine/Flags.lean ====
section
/-! DEFINITION. The error codes, the STATUS, CTRL and STREAM words, and the interrupt line
(10_state.md R37-R39, 60_exceptions.md R241, R249). The engine has no condition codes: STATUS
holds its only flags. -/

namespace Sys2Proof.Machine

/-- The code of an error in STATUS.ERR (R241). -/
def Err.code : Err → BitVec 4
  | .invalidLength => 1
  | .invalidCharacter => 2
  | .invalidPermutationTable => 3
  | .illegalCommand => 4
  | .sequenceError => 5
  | .keyRingFull => 6
  | .outputFull => 7
  | .sBoxRange => 8

/-- The STATUS register (R37): each field at its place, every reserved bit 0. -/
def statusWord (s : State) : Word :=
  fieldAt 0 (BitVec.ofBool s.busy) ||| fieldAt 1 (BitVec.ofBool s.done)
    ||| fieldAt 2 (BitVec.ofBool s.wbusy) ||| fieldAt 3 (BitVec.ofBool s.rej)
    ||| fieldAt 8 s.err ||| fieldAt 16 s.errop ||| fieldAt 24 (BitVec.ofNat 5 s.round)
    ||| fieldAt 29 (BitVec.ofBool s.fact)

/-- The effect of a host write of `x` to STATUS while BUSY = 0: each of DONE, WBUSY and REJ whose
bit of `x` is 1 is cleared, and nothing else changes (R37). -/
def clearStatusBits (x : Word) (s : State) : State :=
  { s with
    done := s.done && !x.getLsbD 1
    wbusy := s.wbusy && !x.getLsbD 2
    rej := s.rej && !x.getLsbD 3 }

/-- The CTRL register: bit 0 is IE (R38). -/
def ctrlWord (s : State) : Word := fieldAt 0 (BitVec.ofBool s.ie)

/-- The STREAM register (R39): NKB in 7:0, KPN in 10:8, DPN in 14:12, OCNT in 27:16. -/
def streamWord (s : State) : Word :=
  fieldAt 0 (BitVec.ofNat 8 s.nkb) ||| fieldAt 8 (BitVec.ofNat 3 s.kpn)
    ||| fieldAt 12 (BitVec.ofNat 3 s.dpn) ||| fieldAt 16 (BitVec.ofNat 12 s.ocnt)

/-- The interrupt output: the level `irq = CTRL.IE & STATUS.DONE` (R249). -/
def irq (s : State) : Bool := s.ie && s.done

end Sys2Proof.Machine
end

