-- ==== Sys2Proof/Machine/Bits.lean ====
section
/-! DEFINITION. Bit vectors and their integer images (00_scope.md R9, R10), the permute primitive
(41_permutation.md R130), rotation (43_key_scheduler.md R167) and the code of a hex digit
(40_codec.md R109). -/

namespace Sys2Proof.Machine

/-- `val(v)`: the unsigned integer of a vector, element 0 most significant (R10). -/
def val (v : Bits) : Nat := v.foldl (fun acc b => 2 * acc + b.toNat) 0

/-- `bits_n(x)`: the n-element vector w with w(i) = x[n-1-i] (R10). -/
def bitsN (n x : Nat) : Bits := (List.range n).map fun i => x.testBit (n - 1 - i)

/-- The vector a register of w bits denotes, all of its bits taking part. -/
def toBits {w : Nat} (x : BitVec w) : Bits := bitsN w x.toNat

/-- The register image of a w-element vector: `zext(val(v))`. -/
def ofBits (w : Nat) (v : Bits) : BitVec w := BitVec.ofNat w (val v)

/-- `v(i .. i+n-1)`: n elements from element i on (R9). -/
def slice (v : Bits) (i n : Nat) : Bits := (v.drop i).take n

/-- `a ^ b`: element-wise exclusive or of vectors of equal length (R9, R136). -/
def xorBits (a b : Bits) : Bits := List.zipWith Bool.xor a b

/-- `permute(T, v)` (R130, R131): every entry of the table is checked against the length of the
input given, then element i of the result is element T[i] of the input. -/
def permute (table : List Nat) (v : Bits) : Except Err Bits :=
  if table.any (fun t => decide (v.length ≤ t)) then .error .invalidPermutationTable
  else .ok (table.map fun t => v.getD t false)

/-- `rotl(h, n)` of a 28-element half (R167): w(i) = h((i + n) mod 28). -/
def rotl (h : Bits) (n : Nat) : Bits :=
  (List.range 28).map fun i => h.getD ((i + n) % 28) false

/-- `hexdigit(d)` as its ASCII byte (R109; PRESUMED by the spec, log entry 18, unsafe). -/
def hexdigit (d : Nat) : Byte :=
  if d ≤ 9 then BitVec.ofNat 8 (0x30 + d) else BitVec.ofNat 8 (0x41 + (d - 10))

/-- `hex4(x)` of a 16-bit group (R108). -/
def hex4 (x : Nat) : List Byte :=
  [hexdigit (x / 4096 % 16), hexdigit (x / 256 % 16), hexdigit (x / 16 % 16), hexdigit (x % 16)]

/-- `blocksToHex(b)`: 16 characters, the four 16-bit groups in block order (R108). -/
def blocksToHex (b : Bits) : Except Err (List Byte) :=
  if b.length ≠ 64 then .error .invalidLength
  else .ok ([0, 1, 2, 3].flatMap fun g => hex4 (val (slice b (16 * g) 16)))

/-- The number of bits of x with no leading zero, 0 for x = 0 (R105). -/
def naturalLength (x : Nat) : Nat := if x = 0 then 0 else Nat.log2 x + 1

/-- `intToBits(x, m)` (R105, R106). -/
def intToBits (x m : Nat) : Bits := bitsN (max (naturalLength x) m) x

/-- `bitsToInt(v) = val(v)` (R107). -/
def bitsToInt (v : Bits) : Nat := val v

/-- `charbits(c)`: a character as 16 elements (R100). -/
def charbits (c : Nat) : Bits := bitsN 16 c

/-- KRED, the key-reduction interleave KRED[i*8 + j] = 8*(7-j) + i (R165). -/
def kred : List Nat := (List.range 56).map fun n => 8 * (7 - n % 8) + n / 8

end Sys2Proof.Machine
end

