-- ==== Sys2Proof/Machine/Operands.lean ====
section
/-! DEFINITION. The operand forms of the commands (10_state.md R24-R28, 30_encoding.md R82, R84):
vector registers as sources and as destination, the immediate as an integer, and PERM's table. -/

namespace Sys2Proof.Machine

/-- Vector register n (R24). -/
def State.reg (s : State) (n : VIndex) : VReg := s.v[n]

/-- `vec(n)`: register n as a vector operand. A length field above 64 raises InvalidLength; payload
bits at and above the length take no part (R25, R27). -/
def vec (n : VIndex) (s : State) : Except Err Bits :=
  if 64 < (s.reg n).len.toNat then .error .invalidLength
  else .ok (bitsN (s.reg n).len.toNat ((s.reg n).pay.toNat % 2 ^ (s.reg n).len.toNat))

/-- `vec(n)` where the contract asks for exactly `len` elements (R27, D15). -/
def vecOfLength (len : Nat) (n : VIndex) (s : State) : Except Err Bits := do
  let x ← vec n s
  if x.length ≠ len then .error .invalidLength else .ok x

/-- Write a vector register whole. -/
def State.setV (s : State) (n : VIndex) (x : VReg) : State := { s with v := s.v.set n x }

/-- The register image of a vector of at most 64 elements: bits at and above the length are 0
(R26). -/
def regOfBits (x : Bits) : VReg :=
  { pay := ofBits 64 x, len := BitVec.ofNat 7 x.length }

/-- `setv(n, v)` (R26). -/
def setv (n : VIndex) (x : Bits) (s : State) : State := s.setV n (regOfBits x)

/-- IMM as an unsigned integer, with no extension, scaling or shift (R82). -/
def immValue (imm : BitVec 32) : Nat := imm.toNat

/-- The table that TBL names for an input of `len` elements (R84, R133): 0 IP, 1 FP, 2 E, 3 P, 4 PC2,
5 KRED and 6 IDENT, the table [0, 1, ..., len-1]. The reserved ids 7..15 never get here. -/
def tableOf (t : Config.Params) (tbl : BitVec 4) (len : Nat) : List Nat :=
  match tbl.toNat with
  | 0 => t.ip.toList
  | 1 => t.fp.toList
  | 2 => t.e.toList
  | 3 => t.p.toList
  | 4 => t.pc2.toList
  | 5 => kred
  | _ => List.range len

end Sys2Proof.Machine
end

