-- ==== Sys2Proof/Machine/Ops.lean ====
section
/-! DEFINITION. The operations that the commands share: memory, the command step with taking an
error and returning from one (60_exceptions.md R242-R248), packing characters, and appending output
(45_cascade.md, 40_codec.md R115). -/

namespace Sys2Proof.Machine

/-! ### Memory -/

/-- What was written to address `a` since reset, if anything was. -/
def memRead {α : Type} (m : Mem α) (a : Nat) : Option α :=
  match m with
  | [] => none
  | (k, x) :: rest => if k = a then some x else memRead rest a

/-- Write `x` at address `a`, keeping the addresses rising. -/
def memWrite {α : Type} (m : Mem α) (a : Nat) (x : α) : Mem α :=
  match m with
  | [] => [(a, x)]
  | (k, y) :: rest =>
    if a < k then (a, x) :: (k, y) :: rest
    else if a = k then (a, x) :: rest
    else (k, y) :: memWrite rest a x

/-- Write consecutive bytes from address `a` on, in order. -/
def memWriteAll {α : Type} (m : Mem α) (a : Nat) (xs : List α) : Mem α :=
  match xs with
  | [] => m
  | x :: rest => memWriteAll (memWrite m a x) (a + 1) rest

/-- The canonical form of a memory: strictly rising addresses. No listed cell equals what an
unlisted address reads as, since an unlisted address has no value (R271). -/
def memWf {α : Type} (m : Mem α) : Bool := decide (m.Pairwise fun x y => x.1 < y.1)

/-- `MemRead(KBM, k)`: the last key block written there, or a free value if none was since reset
(R68, R271). -/
def kbmRead (k : Nat) (s : State) : Word := (memRead s.kbm k).getD (Config.kbmUnwritten s.tick k)

/-- `MemRead(OCM, a)`: the last byte written there, or a free value if none was since reset (R66,
R271). -/
def ocmRead (a : Nat) (s : State) : Byte := (memRead s.ocm a).getD (Config.ocmUnwritten s.tick a)

/-- `MemWrite(KBM, k, x)` (R68). -/
def kbmWrite (k : Nat) (x : Word) (s : State) : State := { s with kbm := memWrite s.kbm k x }

/-! ### The command step (R245) -/

/-- TAKING AN ERROR (R242): ERR gets the code and ERROP the OP field. Nothing else is recorded, no
control is transferred and no state is saved (R240, R250). -/
def takeError (e : Err) (op : Byte) (s : State) : State := { s with err := e.code, errop := op }

/-- RETURNING FROM AN ERROR (R232, R251): ERR and ERROP become 0. -/
def clearError (s : State) : State := { s with err := 0, errop := 0 }

/-- REJECTION while ERR is not 0 (R244): REJ becomes 1, and ERR and ERROP keep their values. -/
def reject (s : State) : State := { s with rej := true }

/-- COMPLETION (R245, R248): BUSY becomes 0 and DONE 1. `tick` counts the step. -/
def complete (s : State) : State := { s with seq := .idle, done := true, tick := s.tick + 1 }

/-- The commands that run while ERR is not 0: NOP, ABORT and CLRERR (R244). -/
def runsDespiteError : Mnemonic → Bool
  | .nop | .abort | .clrerr => true
  | .perm | .xor | .subst | .i2b | .b2i | .hex | .ksched | .finit | .fround | .ffinal | .fblock
  | .kclr | .kputc | .kend | .dputc | .dend | .casc | .oclr => false

/-- The effect of a command's rule: its writes, or, if it raised an error, none of them (R242). -/
def settle (op : Byte) (s : State) : Except Err State → State
  | .ok t => t
  | .error e => takeError e op s

/-- The step of a legal command (R245): rejected while ERR is not 0, unless it is NOP, ABORT or
CLRERR; else its rule, all or nothing. It always completes. -/
def runCommand (m : Mnemonic) (rule : State → Except Err State) (s : State) :
    Host.Outcome State Fault Refusal :=
  .next (complete
    (if s.err ≠ 0 ∧ runsDespiteError m = false then reject s
     else settle m.code s (rule s)))

/-- The step of a word that is not legal (R246): IllegalCommand, or rejected while ERR is not 0.
It always completes. -/
def runIllegal (w : Word) (s : State) : Host.Outcome State Fault Refusal :=
  .next (complete (if s.err = 0 then takeError .illegalCommand (opField w) s else reject s))

/-! ### Characters and output -/

/-- A character value above 0xFFFF raises InvalidCharacter (R104). -/
def charOf (imm : BitVec 32) : Except Err Nat :=
  if 0xFFFF < immValue imm then .error .invalidCharacter else .ok (immValue imm)

/-- The pack buffer `buf` holding `n` characters, with character `c` put in place n:
`buf | (c << (48 - 16*n))` (R203, R206). -/
def packChar (buf : Word) (n c : Nat) : Word := buf ||| (BitVec.ofNat 64 c <<< (48 - 16 * n))

/-- Append 16 characters to the output memory, or raise OutputFull (R115, R208). -/
def appendOutput (t : List Byte) (s : State) : State :=
  { s with ocm := memWriteAll s.ocm s.ocnt t, ocnt := s.ocnt + 16 }

/-- 16 more bytes fit in OCM (R115, R208). -/
def checkOutputRoom (s : State) : Except Err Unit :=
  if Config.OCM_SIZE < s.ocnt + 16 then .error .outputFull else .ok ()

/-- `appendKeyBlock(buf)` (R204). A ring beyond KB_DEPTH, which no run reaches, counts as full:
DEDUCED (log entry 12), safe. -/
def appendKeyBlock (buf : Word) (s : State) : Except Err State :=
  if Config.KB_DEPTH ≤ s.nkb then .error .keyRingFull
  else .ok { kbmWrite s.nkb buf s with nkb := s.nkb + 1, kpbuf := 0, kpn := 0 }

/-- A data block partly packed (DPN != 0) raises SequenceError in the key-ring commands (R202). -/
def checkNoData (s : State) : Except Err Unit :=
  if s.dpn ≠ 0 then .error .sequenceError else .ok ()

/-- An unterminated key string (KPN != 0) raises SequenceError in the data commands (R206). -/
def checkNoKey (s : State) : Except Err Unit :=
  if s.kpn ≠ 0 then .error .sequenceError else .ok ()

end Sys2Proof.Machine
end

