-- ==== Sys2Proof/Machine/Bus.lean ====
section
/-! DEFINITION. The host's side: the register map, bus reads and writes, the reset input, and what
one cycle of the host does (10_state.md R21-R39, 20_memory.md, 70_reset_and_hazards.md). -/

namespace Sys2Proof.Machine

/-- The registers of the map (R21). -/
inductive Reg where
  | id | cmd | status | ctrl | stream | kpbuf | dpbuf | lreg | rreg | kstate
  | vpay (n : VIndex)
  | vlen (n : VIndex)
  | rk (r : Fin 16)
  | kbm (k : Nat)
  | ocmw (m : Nat)
  | unmapped
  deriving DecidableEq, Repr

/-- The address of the word an access at offset `o` reaches: bits 2:0 are ignored (R62). -/
def wordAddress (o : Offset) : Nat := (o &&& 0xFF8).toNat

/-- Where the host's address space has offset `o` of the window: ENGINE_BASE + o (R74). -/
def hostAddress (o : Offset) : Nat := Config.engineBase + o.toNat

/-- The register at offset `o` (R21, R62). -/
def regAt (o : Offset) : Reg :=
  let a := wordAddress o
  if a = 0x000 then .id
  else if a = 0x008 then .cmd
  else if a = 0x010 then .status
  else if a = 0x018 then .ctrl
  else if a = 0x020 then .stream
  else if a = 0x028 then .kpbuf
  else if a = 0x030 then .dpbuf
  else if a = 0x038 then .lreg
  else if a = 0x040 then .rreg
  else if a = 0x048 then .kstate
  else if 0x100 ≤ a ∧ a < 0x180 then
    if a % 16 = 0 then .vpay (Fin.ofNat 8 ((a - 0x100) / 16))
    else .vlen (Fin.ofNat 8 ((a - 0x108) / 16))
  else if 0x200 ≤ a ∧ a < 0x280 then .rk (Fin.ofNat 16 ((a - 0x200) / 8))
  else if 0x400 ≤ a ∧ a < 0x400 + 8 * Config.KB_DEPTH then .kbm ((a - 0x400) / 8)
  else if 0x800 ≤ a ∧ a < 0x800 + Config.OCM_SIZE then .ocmw ((a - 0x800) / 8)
  else .unmapped

/-- The bus word at OCMW_m: OCM byte 8m + j is shifted left by 8*(7-j) (R66). -/
def ocmWord (m : Nat) (s : State) : Word :=
  fieldAt 56 (ocmRead (8 * m) s) ||| fieldAt 48 (ocmRead (8 * m + 1) s)
    ||| fieldAt 40 (ocmRead (8 * m + 2) s) ||| fieldAt 32 (ocmRead (8 * m + 3) s)
    ||| fieldAt 24 (ocmRead (8 * m + 4) s) ||| fieldAt 16 (ocmRead (8 * m + 5) s)
    ||| fieldAt 8 (ocmRead (8 * m + 6) s) ||| fieldAt 0 (ocmRead (8 * m + 7) s)

/-- The offset of a register in the window (R21); none for an unmapped word. -/
def regOffset : Reg → Option Offset
  | .id => some 0x000
  | .cmd => some 0x008
  | .status => some 0x010
  | .ctrl => some 0x018
  | .stream => some 0x020
  | .kpbuf => some 0x028
  | .dpbuf => some 0x030
  | .lreg => some 0x038
  | .rreg => some 0x040
  | .kstate => some 0x048
  | .vpay n => some (BitVec.ofNat 12 (0x100 + 16 * n.val))
  | .vlen n => some (BitVec.ofNat 12 (0x108 + 16 * n.val))
  | .rk r => some (BitVec.ofNat 12 (0x200 + 8 * r.val))
  | .kbm k => some (BitVec.ofNat 12 (0x400 + 8 * k))
  | .ocmw m => some (BitVec.ofNat 12 (0x800 + 8 * m))
  | .unmapped => none

/-- What a register reads while BUSY = 0 (R21-R39, R64, R66, R68). -/
def readReg (reg : Reg) (s : State) : Word :=
  match reg with
  | .id => Config.ID_VALUE
  | .cmd => 0
  | .status => statusWord s
  | .ctrl => ctrlWord s
  | .stream => streamWord s
  | .kpbuf => s.kpbuf
  | .dpbuf => s.dpbuf
  | .lreg => s.l.setWidth 64
  | .rreg => s.r.setWidth 64
  | .kstate => s.kstate.setWidth 64
  | .vpay n => (s.reg n).pay
  | .vlen n => (s.reg n).len.setWidth 64
  | .rk r => s.rk[r].setWidth 64
  | .kbm k => kbmRead k s
  | .ocmw m => ocmWord m s
  | .unmapped => 0

/-- `BusRead(o)`. It changes no state (R69). While BUSY = 1, ID and STATUS read as they are and
every other offset reads as a free value (R282). That STATUS shows a WBUSY set meanwhile is DEDUCED
(log entry 7), unsafe. -/
def busRead (o : Offset) (s : State) : Word :=
  match s.busy, regAt o with
  | true, .id => Config.ID_VALUE
  | true, .status => statusWord s
  | true, _ => Config.busyRead s.tick o
  | false, reg => readReg reg s

/-- A write to a register while BUSY = 0 (R23, R24, R37, R38, R65). A write to CMD latches the
command, which takes LATENCY = `latencyExtra` + 1 cycles (R280). -/
def writeReg (reg : Reg) (x : Word) (s : State) : State :=
  match reg with
  | .cmd => { s with seq := .executing x (Config.latencyExtra x s.tick) }
  | .status => clearStatusBits x s
  | .ctrl => { s with ie := x.getLsbD 0 }
  | .vpay n => s.setV n { pay := x, len := (s.reg n).len }
  | .vlen n => s.setV n { pay := (s.reg n).pay, len := x.setWidth 7 }
  | .id | .stream | .kpbuf | .dpbuf | .lreg | .rreg | .kstate | .rk _ | .kbm _ | .ocmw _
  | .unmapped => s

/-- `BusWrite(o, x)`: dropped while BUSY = 1, with WBUSY set (R281). -/
def busWrite (o : Offset) (x : Word) (s : State) : State :=
  if s.busy then { s with wbusy := true } else writeReg (regAt o) x s

/-- The reset input `rst` (R272): a command in flight is abandoned without effect and R270 is
loaded. The host's own fields, the instance's tables and the step count are not the engine's:
DEDUCED (log entry 9), safe. -/
def assertReset (s : State) : State :=
  { State.reset with params := s.params, tick := s.tick, host := s.host, readData := s.readData }

/-- The offset of STATUS (R21). -/
def STATUS_OFFSET : Offset := 0x010

/-- One action of the host, taken off its list; WAIT stays while BUSY = 1 (R92). -/
def hostAct (s : State) : State :=
  match s.host with
  | [] => s
  | .read o :: rest => { s with readData := some (busRead o s), host := rest }
  | .write o x :: rest => busWrite o x { s with host := rest }
  | .wait :: rest =>
    { s with
      readData := some (busRead STATUS_OFFSET s)
      host := if s.busy then s.host else rest }
  | .idle :: rest => { s with host := rest }
  | .rst :: rest => assertReset { s with host := rest }

/-- One cycle in which the engine does not perform its step: the time to the step of a command in
flight goes down by one, and the host makes its next access (R280). -/
def hostCycle (s : State) : State :=
  let s1 :=
    match s.seq with
    | .idle => s
    | .executing w left => { s with seq := .executing w (left - 1) }
  let s2 := hostAct s1
  { s2 with tick := s2.tick + 1 }

end Sys2Proof.Machine
end

