-- ==== Sys2Proof/Machine/Cipher.lean ====
section
/-! DEFINITION. The datapath that the cipher commands share: substitution (42_substitution.md),
key schedule (43_key_scheduler.md), the bodies of KSCHED, FINIT, FROUND, FFINAL and FBLOCK
(44_feistel.md) and the cascade (45_cascade.md R200, R208). -/

namespace Sys2Proof.Machine

/-! ### Substitution -/

/-- Element k of a group, as 0 or 1. -/
def bitAt (g : Bits) (k : Nat) : Nat := (g.getD k false).toNat

/-- The row of a group: WEIGHT[0]*bit0 + WEIGHT[5]*bit5 (R152). -/
def sboxRow (weight : Vector Nat 6) (g : Bits) : Nat := weight[0] * bitAt g 0 + weight[5] * bitAt g 5

/-- The column of a group: WEIGHT[1]*bit1 + ... + WEIGHT[4]*bit4 (R153). -/
def sboxColumn (weight : Vector Nat 6) (g : Bits) : Nat :=
  weight[1] * bitAt g 1 + weight[2] * bitAt g 2 + weight[3] * bitAt g 3 + weight[4] * bitAt g 4

/-- The cell of one S-box, or SBoxRange outside the 4 x 16 matrix (R154). -/
def sboxCell (box : Vector (Vector (BitVec 4) 16) 4) (row col : Nat) : Except Err (BitVec 4) :=
  if h : row < 4 ∧ col < 16 then .ok ((box.get ⟨row, h.1⟩).get ⟨col, h.2⟩) else .error .sBoxRange

/-- The substitution of groups `gs` of `m`, in group order (R150, R155). -/
def substGroups (t : Config.Params) (m : Bits) : List (Fin 8) → Except Err Bits
  | [] => .ok []
  | g :: gs => do
    let grp := slice m (6 * g.val) 6
    let cell ← sboxCell t.sbox[g] (sboxRow t.weight grp) (sboxColumn t.weight grp)
    let rest ← substGroups t m gs
    return toBits cell ++ rest

/-- `subst(m)` of a 48-element vector: 32 elements (R150-R155). -/
def subst (t : Config.Params) (m : Bits) : Except Err Bits :=
  substGroups t m [0, 1, 2, 3, 4, 5, 6, 7]

/-! ### Key schedule -/

/-- The rounds of the key schedule: in each, the halves are rotated first and the subkey is
compressed from the rotated halves; rotation is cumulative (R166, R169). Answers the subkeys in
round order and the final key state. -/
def scheduleRounds (pc2 : List Nat) : List Nat → Bits → Bits → Except Err (List Bits × Bits)
  | [], c, d => .ok ([], c ++ d)
  | n :: ns, c, d => do
    let c' := rotl c n
    let d' := rotl d n
    let key ← permute pc2 (c' ++ d')
    let rest ← scheduleRounds pc2 ns c' d'
    return (key :: rest.1, rest.2)

/-- The key schedule of a 64-element key block: sixteen subkeys and the key state after round 15
(R165-R171). -/
def keySchedule (t : Config.Params) (kb : Bits) : Except Err (List Bits × Bits) := do
  let d ← permute kred kb
  scheduleRounds t.pc2.toList t.rot.toList (slice d 0 28) (slice d 28 28)

/-- The round-key file that holds the subkeys of a schedule in round order (R170). -/
def rkFile (keys : List Bits) : Vector (BitVec 48) 16 :=
  Vector.ofFn fun r : Fin 16 => ofBits 48 (keys.getD r.val [])

/-- KSCHED-body: all 16 round keys and KSTATE are written together (R166). -/
def kschedBody (kb : Bits) (s : State) : Except Err State := do
  let x ← keySchedule s.params kb
  return { s with rk := rkFile x.1, kstate := ofBits 56 x.2 }

/-! ### Feistel network -/

/-- FINIT-body (R181, R182). -/
def finitBody (data : Bits) (s : State) : Except Err State := do
  let p ← permute s.params.ip.toList data
  return { s with
    l := ofBits 32 (slice p 0 32), r := ofBits 32 (slice p 32 32), round := 0, fact := true }

/-- `f(X, K)`, the round function (R184). -/
def roundFunction (t : Config.Params) (x k : Bits) : Except Err Bits := do
  let expanded ← permute t.e.toList x
  let substituted ← subst t (xorBits expanded k)
  permute t.p.toList substituted

/-- RK[n] as a vector. -/
def roundKey (n : Nat) (s : State) : Bits := toBits ((s.rk[n]?).getD 0)

/-- FROUND-body: the new L is the old R, the new R is f(R, RK[ROUND]) ^ L (R183, R184). -/
def froundBody (s : State) : Except Err State := do
  let y ← roundFunction s.params (toBits s.r) (roundKey s.round s)
  return { s with l := s.r, r := ofBits 32 (xorBits y (toBits s.l)), round := s.round + 1 }

/-- n times FROUND-body. -/
def froundBodies : Nat → State → Except Err State
  | 0, s => .ok s
  | n + 1, s => do
    let s' ← froundBody s
    froundBodies n s'

/-- FFINAL-body: the final permutation of `R ++ L`, right half first, and FACT becomes 0 (R185,
R187). Answers the output block with the state. -/
def ffinalBody (s : State) : Except Err (Bits × State) := do
  let out ← permute s.params.fp.toList (toBits s.r ++ toBits s.l)
  return (out, { s with fact := false })

/-- FBLOCK-body: key schedule, setup, 16 rounds and finish (R186). -/
def fblockBody (data key : Bits) (s : State) : Except Err (Bits × State) := do
  let s1 ← kschedBody key s
  let s2 ← finitBody data s1
  let s3 ← froundBodies 16 s2
  ffinalBody s3

/-! ### Cascade -/

/-- The fold of FBLOCK-body over key blocks, by index in KBM (R200). -/
def cascadeFrom : List Nat → Bits → State → Except Err (Bits × State)
  | [], acc, s => .ok (acc, s)
  | k :: ks, acc, s => do
    let x ← fblockBody acc (toBits (kbmRead k s)) s
    cascadeFrom ks x.1 x.2

/-- `cascade(D)` over KBM[0..NKB-1] in key-ring order (R200); the identity for an empty ring. -/
def cascade (data : Bits) (s : State) : Except Err (Bits × State) :=
  cascadeFrom (List.range s.nkb) data s

/-- `dataBlockDone(buf)` (R208): room is checked before the cascade runs. -/
def dataBlockDone (buf : Word) (s : State) : Except Err State := do
  checkOutputRoom s
  let x ← cascade (toBits buf) s
  let t ← blocksToHex x.1
  return { appendOutput t x.2 with dpbuf := 0, dpn := 0 }

end Sys2Proof.Machine
end

