-- ==== Sys2Proof/Machine/Cascade.lean ====
section
/-! DEFINITION. The CascadeStringCipher commands KCLR, KPUTC, KEND, DPUTC, DEND, CASC and OCLR
(45_cascade.md). -/

namespace Sys2Proof.Machine

/-- KCLR's rule (R202): KBM's contents stay. -/
def kclrRule (s : State) : Except Err State := do
  checkNoData s
  return { s with nkb := 0, kpn := 0, kpbuf := 0 }

/-- KCLR (R202). -/
def execKclr (s : State) : Host.Outcome State Fault Refusal := runCommand .kclr kclrRule s

/-- KPUTC's rule (R203): the fourth character completes a key block. -/
def kputcRule (imm : BitVec 32) (s : State) : Except Err State := do
  checkNoData s
  let c ← charOf imm
  if s.kpn < 3 then return { s with kpbuf := packChar s.kpbuf s.kpn c, kpn := s.kpn + 1 }
  else appendKeyBlock (packChar s.kpbuf s.kpn c) s

/-- KPUTC (R203). -/
def execKputc (imm : BitVec 32) (s : State) : Host.Outcome State Fault Refusal :=
  runCommand .kputc (kputcRule imm) s

/-- KEND's rule (R205): KPBUF is already null-padded. -/
def kendRule (s : State) : Except Err State := do
  checkNoData s
  if 0 < s.kpn then appendKeyBlock s.kpbuf s else return s

/-- KEND (R205). -/
def execKend (s : State) : Host.Outcome State Fault Refusal := runCommand .kend kendRule s

/-- DPUTC's rule (R206): the fourth character completes a data block. -/
def dputcRule (imm : BitVec 32) (s : State) : Except Err State := do
  checkNoKey s
  let c ← charOf imm
  if s.dpn < 3 then return { s with dpbuf := packChar s.dpbuf s.dpn c, dpn := s.dpn + 1 }
  else dataBlockDone (packChar s.dpbuf s.dpn c) s

/-- DPUTC (R206). -/
def execDputc (imm : BitVec 32) (s : State) : Host.Outcome State Fault Refusal :=
  runCommand .dputc (dputcRule imm) s

/-- DEND's rule (R207): DPBUF is already null-padded. -/
def dendRule (s : State) : Except Err State := do
  checkNoKey s
  if 0 < s.dpn then dataBlockDone s.dpbuf s else return s

/-- DEND (R207). -/
def execDend (s : State) : Host.Outcome State Fault Refusal := runCommand .dend dendRule s

/-- CASC's rule (R209): the sequence check comes before the operand's. -/
def cascRule (vd vs1 : VIndex) (s : State) : Except Err State := do
  checkNoKey s
  let d ← vecOfLength 64 vs1 s
  let x ← cascade d s
  return setv vd x.1 x.2

/-- CASC (R209). -/
def execCasc (vd vs1 : VIndex) (s : State) : Host.Outcome State Fault Refusal :=
  runCommand .casc (cascRule vd vs1) s

/-- OCLR (R210): the OCM bytes stay. -/
def execOclr (s : State) : Host.Outcome State Fault Refusal :=
  runCommand .oclr (fun t => .ok { t with ocnt := 0 }) s

end Sys2Proof.Machine
end

