-- ==== Sys2Proof/Machine/Codec.lean ====
section
/-! DEFINITION. The BitCodec commands I2B, B2I and HEX (40_codec.md). -/

namespace Sys2Proof.Machine

/-- I2B's rule (R111): the operand's length is checked before IMM (R247). -/
def i2bRule (vd vs1 : VIndex) (imm : BitVec 32) (s : State) : Except Err State := do
  let v ← vec vs1 s
  if 64 < immValue imm then .error .invalidLength
  else return setv vd (intToBits (val v) (immValue imm)) s

/-- I2B (R111). -/
def execI2b (vd vs1 : VIndex) (imm : BitVec 32) (s : State) : Host.Outcome State Fault Refusal :=
  runCommand .i2b (i2bRule vd vs1 imm) s

/-- B2I's rule (R114): an integer is held as a 64-long vector (D17). -/
def b2iRule (vd vs1 : VIndex) (s : State) : Except Err State := do
  let v ← vec vs1 s
  return setv vd (bitsN 64 (bitsToInt v)) s

/-- B2I (R114). -/
def execB2i (vd vs1 : VIndex) (s : State) : Host.Outcome State Fault Refusal :=
  runCommand .b2i (b2iRule vd vs1) s

/-- HEX's rule (R115): the length, then the room, then the 16 characters. -/
def hexRule (vs1 : VIndex) (s : State) : Except Err State := do
  let b ← vecOfLength 64 vs1 s
  checkOutputRoom s
  let t ← blocksToHex b
  return appendOutput t s

/-- HEX (R115). -/
def execHex (vs1 : VIndex) (s : State) : Host.Outcome State Fault Refusal :=
  runCommand .hex (hexRule vs1) s

end Sys2Proof.Machine
end

