-- ==== Sys2Proof/Machine/Control.lean ====
section
/-! DEFINITION. The control commands NOP, ABORT and CLRERR (46_system.md). -/

namespace Sys2Proof.Machine

/-- NOP (R230): nothing. -/
def execNop (s : State) : Host.Outcome State Fault Refusal := runCommand .nop (fun t => .ok t) s

/-- ABORT's writes (R231): the error, the counts, the pack buffers, ROUND and FACT. -/
def abortRule (s : State) : State :=
  { clearError s with
    nkb := 0, kpn := 0, kpbuf := 0, dpn := 0, dpbuf := 0, ocnt := 0, round := 0, fact := false }

/-- ABORT (R231). -/
def execAbort (s : State) : Host.Outcome State Fault Refusal :=
  runCommand .abort (fun t => .ok (abortRule t)) s

/-- CLRERR (R232). -/
def execClrerr (s : State) : Host.Outcome State Fault Refusal :=
  runCommand .clrerr (fun t => .ok (clearError t)) s

end Sys2Proof.Machine
end

