-- ==== Sys2Proof/Machine/Feistel.lean ====
section
/-! DEFINITION. The FeistelBlockCipher commands FINIT, FROUND, FFINAL and FBLOCK (44_feistel.md). -/

namespace Sys2Proof.Machine

/-- FINIT's rule (R181): the round keys are the current RK file. -/
def finitRule (vs1 : VIndex) (s : State) : Except Err State := do
  let d ← vecOfLength 64 vs1 s
  finitBody d s

/-- FINIT (R181). -/
def execFinit (vs1 : VIndex) (s : State) : Host.Outcome State Fault Refusal :=
  runCommand .finit (finitRule vs1) s

/-- FROUND's rule (R183): a block is active and fewer than 16 rounds are done. -/
def froundRule (s : State) : Except Err State :=
  if s.fact = false ∨ 16 ≤ s.round then .error .sequenceError else froundBody s

/-- FROUND (R183). -/
def execFround (s : State) : Host.Outcome State Fault Refusal := runCommand .fround froundRule s

/-- FFINAL's rule (R185): a block is active and exactly 16 rounds are done. -/
def ffinalRule (vd : VIndex) (s : State) : Except Err State :=
  if s.fact = false ∨ s.round ≠ 16 then .error .sequenceError
  else do
    let x ← ffinalBody s
    return setv vd x.1 x.2

/-- FFINAL (R185). -/
def execFfinal (vd : VIndex) (s : State) : Host.Outcome State Fault Refusal :=
  runCommand .ffinal (ffinalRule vd) s

/-- FBLOCK's rule (R186): both operands are read, then both lengths checked, VS1 first. -/
def fblockRule (vd vs1 vs2 : VIndex) (s : State) : Except Err State := do
  let d ← vec vs1 s
  let k ← vec vs2 s
  if d.length ≠ 64 then .error .invalidLength
  else if k.length ≠ 64 then .error .invalidLength
  else do
    let x ← fblockBody d k s
    return setv vd x.1 x.2

/-- FBLOCK (R186). -/
def execFblock (vd vs1 vs2 : VIndex) (s : State) : Host.Outcome State Fault Refusal :=
  runCommand .fblock (fblockRule vd vs1 vs2) s

end Sys2Proof.Machine
end

