-- ==== Sys2Proof/Machine/KeyScheduler.lean ====
section
/-! DEFINITION. The KeyScheduler command KSCHED (43_key_scheduler.md). -/

namespace Sys2Proof.Machine

/-- KSCHED's rule (R166): the length must be 64. -/
def kschedRule (vs1 : VIndex) (s : State) : Except Err State := do
  let kb ← vecOfLength 64 vs1 s
  kschedBody kb s

/-- KSCHED (R166). -/
def execKsched (vs1 : VIndex) (s : State) : Host.Outcome State Fault Refusal :=
  runCommand .ksched (kschedRule vs1) s

end Sys2Proof.Machine
end

