-- ==== Sys2Proof/Machine/Permutation.lean ====
section
/-! DEFINITION. The PermutationEngine commands PERM and XOR (41_permutation.md). -/

namespace Sys2Proof.Machine

/-- PERM's rule (R133). A reserved table id is IllegalCommand (R84): the decoder lets none through,
so that branch is reached only by an instruction term that is not well formed: DESIGN CHOICE (log
entry 13), safe. -/
def permRule (vd vs1 : VIndex) (tbl : BitVec 4) (s : State) : Except Err State :=
  if 6 < tbl.toNat then .error .illegalCommand
  else do
    let v ← vec vs1 s
    let w ← permute (tableOf s.params tbl v.length) v
    return setv vd w s

/-- PERM (R133). -/
def execPerm (vd vs1 : VIndex) (tbl : BitVec 4) (s : State) : Host.Outcome State Fault Refusal :=
  runCommand .perm (permRule vd vs1 tbl) s

/-- XOR's rule (R136): VS1's check, VS2's, then the equality of the lengths. -/
def xorRule (vd vs1 vs2 : VIndex) (s : State) : Except Err State := do
  let a ← vec vs1 s
  let b ← vec vs2 s
  if a.length ≠ b.length then .error .invalidLength
  else return setv vd (xorBits a b) s

/-- XOR (R136). -/
def execXor (vd vs1 vs2 : VIndex) (s : State) : Host.Outcome State Fault Refusal :=
  runCommand .xor (xorRule vd vs1 vs2) s

end Sys2Proof.Machine
end

