-- ==== Sys2Proof/Machine/Substitution.lean ====
section
/-! DEFINITION. The SubstitutionEngine command SUBST (42_substitution.md). -/

namespace Sys2Proof.Machine

/-- SUBST's rule (R151): the length must be 48; the result is not passed through P_TABLE. -/
def substRule (vd vs1 : VIndex) (s : State) : Except Err State := do
  let m ← vecOfLength 48 vs1 s
  let w ← subst s.params m
  return setv vd w s

/-- SUBST (R151). -/
def execSubst (vd vs1 : VIndex) (s : State) : Host.Outcome State Fault Refusal :=
  runCommand .subst (substRule vd vs1) s

end Sys2Proof.Machine
end

