-- ==== Sys2Proof/Machine/Dispatch.lean ====
section
/-! DEFINITION. The step of a legal command (60_exceptions.md R245): one arm per constructor. -/

namespace Sys2Proof.Machine

def exec (i : Instr) (s : State) : Host.Outcome State Fault Refusal :=
  match i with
  | .nop => Sys2Proof.Machine.execNop s
  | .abort => Sys2Proof.Machine.execAbort s
  | .clrerr => Sys2Proof.Machine.execClrerr s
  | .perm vd vs1 tbl => Sys2Proof.Machine.execPerm vd vs1 tbl s
  | .xor vd vs1 vs2 => Sys2Proof.Machine.execXor vd vs1 vs2 s
  | .subst vd vs1 => Sys2Proof.Machine.execSubst vd vs1 s
  | .i2b vd vs1 imm => Sys2Proof.Machine.execI2b vd vs1 imm s
  | .b2i vd vs1 => Sys2Proof.Machine.execB2i vd vs1 s
  | .hex vs1 => Sys2Proof.Machine.execHex vs1 s
  | .ksched vs1 => Sys2Proof.Machine.execKsched vs1 s
  | .finit vs1 => Sys2Proof.Machine.execFinit vs1 s
  | .fround => Sys2Proof.Machine.execFround s
  | .ffinal vd => Sys2Proof.Machine.execFfinal vd s
  | .fblock vd vs1 vs2 => Sys2Proof.Machine.execFblock vd vs1 vs2 s
  | .kclr => Sys2Proof.Machine.execKclr s
  | .kputc imm => Sys2Proof.Machine.execKputc imm s
  | .kend => Sys2Proof.Machine.execKend s
  | .dputc imm => Sys2Proof.Machine.execDputc imm s
  | .dend => Sys2Proof.Machine.execDend s
  | .casc vd vs1 => Sys2Proof.Machine.execCasc vd vs1 s
  | .oclr => Sys2Proof.Machine.execOclr s

end Sys2Proof.Machine
end

