-- ==== Sys2Proof/Machine/Engine.lean ====
section
/-! DEFINITION. One step of the whole machine: the engine performs a command whose latency has
passed, else the host has the cycle (00_scope.md R2, 60_exceptions.md R245, R280). -/

namespace Sys2Proof.Machine

/-- The engine's atomic step on the command word `w` (R245): a legal word runs its command, any
other word is IllegalCommand. -/
def engineStep (w : Word) (s : State) : Host.Outcome State Fault Refusal :=
  match decode w with
  | .ok i => exec i s
  | .error _ => runIllegal w s

/-- The next step. While a command is in flight and its latency has passed, the engine moves; in
every other cycle the host does. -/
def nextStep (s : State) : Host.Outcome State Fault Refusal :=
  match s.seq with
  | .executing w 0 => engineStep w s
  | .executing _ (_ + 1) => .next (hostCycle s)
  | .idle => .next (hostCycle s)

end Sys2Proof.Machine
end

