-- ==== Sys2Proof/Machine/Step.lean ====
section
/-! DEFINITION. The machine's step function, and the state in which a given command word is the one
the next step runs. -/

namespace Sys2Proof.Machine

/-- One step of the machine. -/
def step : State → Host.Outcome State Fault Refusal := nextStep

/-- `s` with the command word of `w` latched in CMD and its latency passed: the next step runs
exactly it. The engine fetches nothing (R40): a command reaches it by a host write to CMD (R23), for
which this stands. A number that is no 64-bit word changes nothing. -/
def State.withFetchWord (s : State) (nbits w : Nat) : State :=
  match commandWordOfNat nbits w with
  | some x => { s with seq := .executing x 0 }
  | none => s

end Sys2Proof.Machine
end

