-- ==== Sys2Proof/Machine/Reference.lean ====
section
/-! DEFINITION. The functions of the source that the rules state and that a sequence of commands
computes: the block function, text packing and `encrypt` (44_feistel.md R180, 40_codec.md R101,
45_cascade.md R212). They use no state.
The command sequences of the pseudo-instructions stand at the end. -/

namespace Sys2Proof.Machine

/-- The Feistel rounds over the subkeys in order, from halves (L_r, R_r) (R180). -/
def feistelRounds (t : Config.Params) : List Bits → Bits → Bits → Except Err (Bits × Bits)
  | [], l, r => .ok (l, r)
  | k :: ks, l, r => do
    let y ← roundFunction t r k
    feistelRounds t ks r (xorBits y l)

/-- `feistel(D, K)` (R180): the whole block function, with the exit `R_16 ++ L_16` of R187. -/
def feistel (t : Config.Params) (data key : Bits) : Except Err Bits := do
  let sched ← keySchedule t key
  let p ← permute t.ip.toList data
  let lr ← feistelRounds t sched.1 (slice p 0 32) (slice p 32 32)
  permute t.fp.toList (lr.2 ++ lr.1)

/-- The block of four characters, the first most significant (R67, R101). -/
def charBlock (c0 c1 c2 c3 : Nat) : Bits := charbits c0 ++ charbits c1 ++ charbits c2 ++ charbits c3

/-- Groups of four characters as blocks, the last padded on the right with null characters. -/
def packBlocks : List Nat → List Bits
  | [] => []
  | [a] => [charBlock a 0 0 0]
  | [a, b] => [charBlock a b 0 0]
  | [a, b, c] => [charBlock a b c 0]
  | a :: b :: c :: d :: rest => charBlock a b c d :: packBlocks rest

/-- `textToBlocks(s)` (R101, R104): a character value above 0xFFFF raises InvalidCharacter. -/
def textToBlocks (s : List Nat) : Except Err (List Bits) :=
  if s.any (fun c => decide (0xFFFF < c)) then .error .invalidCharacter else .ok (packBlocks s)

/-- `flatten(keyRing.map(textToBlocks))` (R201). -/
def keyRingBlocks : List (List Nat) → Except Err (List Bits)
  | [] => .ok []
  | k :: ks => do
    let b ← textToBlocks k
    let rest ← keyRingBlocks ks
    return b ++ rest

/-- The fold of `feistel` over key blocks in key-ring order (R200, R212). -/
def cascadeFold (t : Config.Params) : List Bits → Bits → Except Err Bits
  | [], acc => .ok acc
  | k :: ks, acc => do
    let x ← feistel t acc k
    cascadeFold t ks x

/-- The hex text of the data blocks, each encrypted under the whole ring (R212). -/
def encryptBlocks (t : Config.Params) (ring : List Bits) : List Bits → Except Err (List Byte)
  | [] => .ok []
  | d :: ds => do
    let x ← cascadeFold t ring d
    let h ← blocksToHex x
    let rest ← encryptBlocks t ring ds
    return h ++ rest

/-- `encrypt(plaintext, keyRing)` (R4, R212), as ASCII bytes. -/
def encrypt (t : Config.Params) (p : List Nat) (keys : List (List Nat)) : Except Err (List Byte) := do
  let ring ← keyRingBlocks keys
  let blocks ← textToBlocks p
  encryptBlocks t ring blocks

/-- `KSTR "s"` (R92): KPUTC for each character, then KEND. -/
def kstr (s : List (BitVec 32)) : List Instr := s.map Instr.kputc ++ [.kend]

/-- `DSTR "s"` (R92): DPUTC for each character, then DEND. -/
def dstr (s : List (BitVec 32)) : List Instr := s.map Instr.dputc ++ [.dend]

/-- The commands of `ENCRYPT "p", ["k1", ..., "kn"]` (R92, R212). -/
def encryptCommands (p : List (BitVec 32)) (keys : List (List (BitVec 32))) : List Instr :=
  .abort :: (keys.flatMap kstr ++ dstr p)

/-- The engine's steps for a sequence of legal commands, each waited for (R91). -/
def execAll : List Instr → State → Host.Outcome State Fault Refusal
  | [], s => .next s
  | i :: is, s =>
    match exec i s with
    | .next t => execAll is t
    | .fault f => .fault f
    | .refused r => .refused r

end Sys2Proof.Machine
end

