-- ==== Sys2Proof/Machine/Assembly.lean ====
section
/-! DEFINITION. Programs as the host runs them (30_encoding.md R90-R93): assembling a line from its
tokens, the pseudo-instructions as lists of commands and of host actions, listing lines, and the
host's map from strings to character values (00_scope.md R7). -/

namespace Sys2Proof.Machine

/-- A character's code point as a character value (D11). -/
def codePointValue (c : Char) : BitVec 32 := BitVec.ofNat 32 c.toNat

/-- A character's UTF-16 code units as character values, a character above U+FFFF as two surrogates
(D11). The arithmetic of the surrogates is PRESUMED (log entry 21), safe. -/
def utf16Units (c : Char) : List (BitVec 32) :=
  if c.toNat ≤ 0xFFFF then [codePointValue c]
  else
    [BitVec.ofNat 32 (0xD800 + (c.toNat - 0x10000) / 0x400),
     BitVec.ofNat 32 (0xDC00 + (c.toNat - 0x10000) % 0x400)]

/-- The character values of a string under a host's unit (R7, D11). -/
def stringValues : Config.HostCharUnit → String → List (BitVec 32)
  | .codePoint, s => s.toList.map codePointValue
  | .utf16, s => s.toList.flatMap utf16Units
  | .other, s => Config.otherHostValues s

/-- The character values of a string for this host (R7). -/
def hostValues (s : String) : List (BitVec 32) := stringValues Config.hostCharUnit s

/-- The value of the character literal `'c'` under a host's unit (R90); none where the unit gives the
character no value or several: DESIGN CHOICE (log entry 16), safe. -/
def literalValue (u : Config.HostCharUnit) (c : Char) : Option (BitVec 32) :=
  match stringValues u (String.singleton c) with
  | [v] => some v
  | _ => none

/-- An operand token (R90): `v0`..`v7`, a number (decimal or hexadecimal), a character literal, or a
table name. -/
inductive AsmOperand where
  | reg (n : VIndex)
  | num (n : Nat)
  | chr (c : Char)
  | table (name : String)
  deriving DecidableEq, Repr

/-- The table names of R84. -/
def tableNames : List String := ["IP", "FP", "E", "P", "PC2", "KRED", "IDENT"]

/-- The id of a table name (R84, R90). -/
def tableId (name : String) : Option (BitVec 4) :=
  match tableNames.findIdx? (· == name) with
  | some k => some (BitVec.ofNat 4 k)
  | none => none

/-- An immediate operand (R90): a number, which must fit IMM, or a character literal of this host. -/
def asmImm : AsmOperand → Option (BitVec 32)
  | .num n => if n < 2 ^ 32 then some (BitVec.ofNat 32 n) else none
  | .chr c => literalValue Config.hostCharUnit c
  | .reg _ | .table _ => none

/-- One command line, destination first (R90); none for a line R90 has no form for. -/
def assemble (mnemonic : String) (operands : List AsmOperand) : Option Instr :=
  match mnemonic, operands with
  | "NOP", [] => some .nop
  | "ABORT", [] => some .abort
  | "CLRERR", [] => some .clrerr
  | "FROUND", [] => some .fround
  | "KCLR", [] => some .kclr
  | "KEND", [] => some .kend
  | "DEND", [] => some .dend
  | "OCLR", [] => some .oclr
  | "PERM", [.reg d, .reg a, .table name] => (tableId name).map (.perm d a)
  | "XOR", [.reg d, .reg a, .reg b] => some (.xor d a b)
  | "SUBST", [.reg d, .reg a] => some (.subst d a)
  | "B2I", [.reg d, .reg a] => some (.b2i d a)
  | "CASC", [.reg d, .reg a] => some (.casc d a)
  | "I2B", [.reg d, .reg a] => some (.i2b d a 0)
  | "I2B", [.reg d, .reg a, imm] => (asmImm imm).map (.i2b d a)
  | "HEX", [.reg a] => some (.hex a)
  | "KSCHED", [.reg a] => some (.ksched a)
  | "FINIT", [.reg a] => some (.finit a)
  | "FFINAL", [.reg d] => some (.ffinal d)
  | "FBLOCK", [.reg d, .reg data, .reg key] => some (.fblock d data key)
  | "KPUTC", [imm] => (asmImm imm).map .kputc
  | "DPUTC", [imm] => (asmImm imm).map .dputc
  | _, _ => none

/-- The assembly text of a command, as a listing shows it (R90, R93). Which of R90's spellings it shows
is a DESIGN CHOICE (log entry 22), safe: an immediate is always written in decimal, where
95_test_vectors.md lists KPUTC '1', and I2B's IMM always, even 0, where that file lists
I2B v1, v0. -/
def asmText (i : Instr) : String :=
  let r (n : VIndex) : String := "v" ++ toString n.val
  match i with
  | .nop => "NOP"
  | .abort => "ABORT"
  | .clrerr => "CLRERR"
  | .perm d a t => "PERM " ++ r d ++ ", " ++ r a ++ ", " ++ tableNames.getD t.toNat "IDENT"
  | .xor d a b => "XOR " ++ r d ++ ", " ++ r a ++ ", " ++ r b
  | .subst d a => "SUBST " ++ r d ++ ", " ++ r a
  | .i2b d a imm => "I2B " ++ r d ++ ", " ++ r a ++ ", " ++ toString imm.toNat
  | .b2i d a => "B2I " ++ r d ++ ", " ++ r a
  | .hex a => "HEX " ++ r a
  | .ksched a => "KSCHED " ++ r a
  | .finit a => "FINIT " ++ r a
  | .fround => "FROUND"
  | .ffinal d => "FFINAL " ++ r d
  | .fblock d a k => "FBLOCK " ++ r d ++ ", " ++ r a ++ ", " ++ r k
  | .kclr => "KCLR"
  | .kputc imm => "KPUTC " ++ toString imm.toNat
  | .kend => "KEND"
  | .dputc imm => "DPUTC " ++ toString imm.toNat
  | .dend => "DEND"
  | .casc d a => "CASC " ++ r d ++ ", " ++ r a
  | .oclr => "OCLR"

/-- A word as 16 hex digits, most significant first (R93). -/
def hex16 (w : Word) : String :=
  String.ofList ((List.range 16).map fun k => Char.ofNat (hexdigit (w.toNat / 16 ^ (15 - k) % 16)).toNat)

/-- A listing line: offset in the program, encoding, assembly (R93). The offset has at least two
decimal digits, as in the programs of 95_test_vectors.md: DEDUCED (log entry 19), safe. -/
def listingLine (offset : Nat) (i : Instr) : String :=
  (if offset < 10 then "0" else "") ++ toString offset ++ ": " ++ hex16 (encode i) ++ "  " ++ asmText i

/-- A program line with a command stands for the CMD write of its encoding, then WAIT (R91). -/
def commandActions (i : Instr) : List HostAction := [.write 0x008 (encode i), .wait]

/-- `LDV vN, value, len` (R92). -/
def ldvActions (n : VIndex) (value len : Word) : List HostAction :=
  [.write (BitVec.ofNat 12 (0x100 + 16 * n.val)) value,
   .write (BitVec.ofNat 12 (0x108 + 16 * n.val)) len]

/-- `CLRDONE` (R92). -/
def clrdoneActions : List HostAction := [.write 0x010 0x2]

/-- `KSTR "s"` for a string of this host (R92). -/
def kstrText (s : String) : List Instr := kstr (hostValues s)

/-- `DSTR "s"` for a string of this host (R92). -/
def dstrText (s : String) : List Instr := dstr (hostValues s)

/-- `ENCRYPT "p", ["k1", ..., "kn"]` for strings of this host (R92, R212). -/
def encryptText (p : String) (keys : List String) : List Instr :=
  encryptCommands (hostValues p) (keys.map hostValues)

/-- A pseudo-instruction's commands as the host runs them (R91). -/
def programActions (commands : List Instr) : List HostAction := commands.flatMap commandActions

/-- `ENCRYPT "p", ["k1", ..., "kn"]`, its strings given by their character values, as the host runs
it (R91, R92, R212). -/
def encryptActions (p : List (BitVec 32)) (keys : List (List (BitVec 32))) : List HostAction :=
  programActions (encryptCommands p keys)

end Sys2Proof.Machine
end

