-- ==== Sys2Proof/Safety.lean ====
section
/-! DEFINITION. What holds of the machine in every run, in the terms claims use. -/

namespace Sys2Proof.Machine

/-- The counts keep their ranges: NKB, KPN, DPN, OCNT (in whole blocks of 16 bytes) and ROUND
(R32-R36). -/
structure CountsBounded (s : State) : Prop where
  nkb : s.nkb ≤ Config.KB_DEPTH
  kpn : s.kpn ≤ 3
  dpn : s.dpn ≤ 3
  ocnt : s.ocnt ≤ Config.OCM_SIZE
  ocnt_blocks : s.ocnt % 16 = 0
  round : s.round ≤ 16

/-- A pack buffer of n characters: every bit below the n characters is 0, so that the buffer is the
block that null padding would give (R35, R36). -/
abbrev bufferPadded (buf : Word) (n : Nat) : Prop := buf <<< (16 * n) = 0

/-- The pack buffers are null-padded, and a key string and a data block are never both partly
packed (R35, R36, D27). -/
structure PackBuffersSound (s : State) : Prop where
  kpbuf : bufferPadded s.kpbuf s.kpn
  dpbuf : bufferPadded s.dpbuf s.dpn
  apart : s.kpn = 0 ∨ s.dpn = 0

/-- Codes 9 to 15 are never in ERR, ERROP is 0 while there is no error, and outside a block ROUND
is 0 or 16 (R241, R242, R32). -/
structure StatusSound (s : State) : Prop where
  err : s.err.toNat ≤ 8
  errop : s.err = 0 → s.errop = 0
  round : s.fact = false → s.round = 0 ∨ s.round = 16

/-- Both memories are in canonical form, and list only cells that exist (R33, R34). -/
structure MemoriesSound (s : State) : Prop where
  kbm_wf : memWf s.kbm = true
  ocm_wf : memWf s.ocm = true
  kbm_range : ∀ c ∈ s.kbm, c.1 < Config.KB_DEPTH
  ocm_range : ∀ c ∈ s.ocm, c.1 < Config.OCM_SIZE

/-- The byte is the ASCII code of an uppercase hex digit, '0'..'9' or 'A'..'F' (R109). -/
abbrev isHexDigit (b : Byte) : Prop :=
  0x30 ≤ b.toNat ∧ b.toNat ≤ 0x39 ∨ 0x41 ≤ b.toNat ∧ b.toNat ≤ 0x46

/-- Every valid key block and output byte was written since reset, so that no command reads a cell
before writing it (R271), and OCM holds hex digits only (R34, R108). -/
structure ContentsSound (s : State) : Prop where
  kbm : ∀ k, k < s.nkb → (memRead s.kbm k).isSome = true
  ocm : ∀ a, a < s.ocnt → (memRead s.ocm a).isSome = true
  hex : ∀ c ∈ s.ocm, isHexDigit c.2

/-- The invariant of the machine. -/
structure EngineInv (s : State) : Prop where
  counts : CountsBounded s
  buffers : PackBuffersSound s
  status : StatusSound s
  memories : MemoriesSound s
  contents : ContentsSound s

/-! ### The terms of the statements about commands -/

/-- A vector register that a command may read: its length is at most 64 (R25). -/
abbrev Readable (n : VIndex) (s : State) : Prop := (s.reg n).len.toNat ≤ 64

/-- A vector register that holds a vector of exactly `len` elements. -/
abbrev HoldsLength (n : VIndex) (len : Nat) (s : State) : Prop := (s.reg n).len.toNat = len

/-- A command that fails with error code `code` and opcode `op`: ERR and ERROP are written, the
command completes, and nothing else happens (R242, R245). -/
abbrev failed (code : BitVec 4) (op : Byte) (s : State) : Host.Outcome State Fault Refusal :=
  .next (complete { s with err := code, errop := op })

/-- The integer a vector register denotes: its payload below its length (R10, R25). -/
abbrev valueOf (n : VIndex) (s : State) : Nat := (s.reg n).pay.toNat % 2 ^ (s.reg n).len.toNat

/-- Every weighted sum stays inside the 4 x 16 matrix, so that SBoxRange cannot occur (R154). -/
abbrev WeightsInRange (t : Config.Params) : Prop :=
  t.weight[0] + t.weight[5] < 4 ∧ t.weight[1] + t.weight[2] + t.weight[3] + t.weight[4] < 16

/-- Element k of a 48-element vector held in a word, as 0 or 1. -/
abbrev element48 (x : Word) (k : Nat) : Nat := (x.getLsbD (47 - k)).toNat

/-- The row that R152 gives group g of a 48-element vector held in a word. -/
abbrev rowOfGroup (t : Config.Params) (x : Word) (g : Nat) : Nat :=
  t.weight[0] * element48 x (6 * g) + t.weight[5] * element48 x (6 * g + 5)

/-- The column that R153 gives group g of a 48-element vector held in a word. -/
abbrev columnOfGroup (t : Config.Params) (x : Word) (g : Nat) : Nat :=
  t.weight[1] * element48 x (6 * g + 1) + t.weight[2] * element48 x (6 * g + 2)
    + t.weight[3] * element48 x (6 * g + 3) + t.weight[4] * element48 x (6 * g + 4)

/-- S_r = ROT[0] + ... + ROT[r] (R169). -/
abbrev rotationSum (t : Config.Params) (r : Nat) : Nat := (t.rot.toList.take (r + 1)).sum

/-- Element q of the 56-element key state of the key block `x`, both halves rotated left by n:
derived element d of the key is key element 8*(7 - d mod 8) + d/8 (R165, R167, R168). -/
abbrev keyStateElement (x : Word) (n q : Nat) : Bool :=
  let d := if q < 28 then (q + n) % 28 else 28 + (q - 28 + n) % 28
  x.getLsbD (63 - (8 * (7 - d % 8) + d / 8))

/-- Hex character j (0..15) of a 64-bit block: the ASCII byte of its j-th hex digit from the most
significant one on (R108, R109). -/
abbrev hexCharacter (x : Nat) (j : Nat) : Byte :=
  let d := x / 16 ^ (15 - j) % 16
  BitVec.ofNat 8 (if d ≤ 9 then 0x30 + d else 0x41 + (d - 10))

/-- `m` is the memory `m0` with the 16 hex characters of block `x` at `a` and nothing else
changed. -/
abbrev AppendsHex (m0 m : Mem Byte) (a x : Nat) : Prop :=
  ∀ b, memRead m b = if a ≤ b ∧ b < a + 16 then some (hexCharacter x (b - a)) else memRead m0 b

/-- The key ring in KBM as blocks, in key-ring order (R200). -/
abbrev keyRing (s : State) : List Bits := (List.range s.nkb).map fun k => toBits (kbmRead k s)

/-- What the block function leaves in RK, KSTATE, L and R after data block `data` under key block
`key`: the schedule, its final key state and the halves after round 15 (R186). -/
abbrev BlockStepLeaves (t : Config.Params) (data key : Bits) (rk : Vector (BitVec 48) 16)
    (kst : BitVec 56) (l r : BitVec 32) : Prop :=
  ∃ keys p, keySchedule t key = .ok keys ∧ permute t.ip.toList data = .ok p ∧
    feistelRounds t keys.1 (slice p 0 32) (slice p 32 32) = .ok (toBits l, toBits r) ∧
    rk = rkFile keys.1 ∧ kst = ofBits 56 keys.2

/-- What a cascade of block `data` over the key ring in KBM leaves in the cipher's registers: for an
empty ring nothing changed, for any other what the last key block's step leaves (R200, R208). -/
abbrev CascadeLeaves (s : State) (data : Bits) (rk : Vector (BitVec 48) 16) (kst : BitVec 56)
    (l r : BitVec 32) (round : Nat) (fact : Bool) : Prop :=
  (s.nkb = 0 → rk = s.rk ∧ kst = s.kstate ∧ l = s.l ∧ r = s.r ∧ round = s.round ∧
    fact = s.fact) ∧
  (0 < s.nkb → round = 16 ∧ fact = false ∧
    ∃ acc, cascadeFold s.params (keyRing s).dropLast data = .ok acc ∧
      BlockStepLeaves s.params acc ((keyRing s).getLastD []) rk kst l r)

/-- How many blocks a text of n characters makes (R101). -/
abbrev blockCount (n : Nat) : Nat := (n + 3) / 4

end Sys2Proof.Machine
end

