-- ==== Sys2Proof/Certificates/Slice0/Obligations.lean ====
section
/-! DEFINITION. The statements about the machine, for the provers. Each formalises rules of the spec
or, where its docstring says so, a choice of the model. -/

open Sys2Proof Sys2Proof.Machine

/-! ### Reset, the invariant, and the step -/

/-- R270: every value the spec states for the state after reset, and the ID constant. -/
def Obligations.ResetLeavesTheStatedValues : Prop :=
  busRead 0x000 State.reset = 0x4443464500000007 ∧
  State.reset.seq = .idle ∧ State.reset.done = false ∧ State.reset.wbusy = false ∧
  State.reset.rej = false ∧ State.reset.err = 0 ∧ State.reset.errop = 0 ∧
  State.reset.round = 0 ∧ State.reset.fact = false ∧ State.reset.ie = false ∧
  (∀ n, State.reset.reg n = { pay := 0, len := 0 }) ∧
  (∀ r : Fin 16, State.reset.rk[r] = 0) ∧
  State.reset.l = 0 ∧ State.reset.r = 0 ∧ State.reset.kstate = 0 ∧
  State.reset.nkb = 0 ∧ State.reset.kpn = 0 ∧ State.reset.kpbuf = 0 ∧
  State.reset.dpn = 0 ∧ State.reset.dpbuf = 0 ∧ State.reset.ocnt = 0 ∧
  busRead 0x020 State.reset = 0 ∧ busRead 0x038 State.reset = 0 ∧ busRead 0x040 State.reset = 0 ∧
  busRead 0x048 State.reset = 0 ∧
  (∀ r : Fin 16, busRead (BitVec.ofNat 12 (0x200 + 8 * r.val)) State.reset = 0) ∧
  irq State.reset = false

/-- The invariant, which is the model's own, holds right after reset. -/
def Obligations.InvariantHoldsAtReset : Prop := EngineInv State.reset

/-- Every step of the machine, the engine's or the host's, from any state with the invariant, keeps
it: counts in range (R32-R36), pack buffers null-padded (R35, R36), ERR a defined code (R241),
memories canonical, valid entries written (R271), output all hex digits (R109). -/
def Obligations.EveryStepKeepsTheInvariant : Prop :=
  ∀ s t : State, EngineInv s → step s = .next t → EngineInv t

/-- R245: when a latched word whose latency has passed decodes to an instruction, the step is exec of
that instruction at that state, with nothing around it. -/
def Obligations.StepRunsTheDecodedCommand : Prop :=
  ∀ (s : State) (w : Word) (i : Instr), s.seq = .executing w 0 → decode w = .ok i →
    step s = exec i s

/-- R246: a word that is not legal executes nothing. -/
def Obligations.IllegalWordIsReported : Prop :=
  ∀ (s : State) (w : Word) (x : Illegal), s.seq = .executing w 0 → decode w = .error x →
    (s.err = 0 → step s = failed 4 (w.extractLsb' 0 8) s) ∧
    (s.err ≠ 0 → step s = .next (complete { s with rej := true }))

/-- R245, R248: every command and every illegal word completes: it has a next state, with BUSY 0 and
DONE 1. Only a host write of 1 to STATUS bit 1, or reset, clears DONE. -/
def Obligations.DoneIsSetByCompletionAndClearedByTheHost : Prop :=
  (∀ (i : Instr) (s : State), ∃ t, exec i s = .next t ∧ t.done = true ∧ t.busy = false) ∧
  (∀ (w : Word) (s : State), ∃ t, runIllegal w s = .next t ∧ t.done = true ∧ t.busy = false) ∧
  (∀ s t : State, s.done = true → step s = .next t → t.done = false →
    (∃ rest, s.host = .rst :: rest) ∨
    (∃ o x rest, s.host = .write o x :: rest ∧ o &&& 0xFF8 = 0x010 ∧ x.getLsbD 1 = true ∧
      s.busy = false))

/-- R280: a command in flight completes after a finite number of cycles, whatever the host does but
assert reset. The count of cycles left, and that the engine's step is a step of its own, are the
model's choice (log entry 5). -/
def Obligations.CommandInFlightCompletes : Prop :=
  ∀ (n : Nat) (w : Word) (s : State), s.seq = .executing w n → HostAction.rst ∉ s.host →
    ∃ t u : State, Host.Core.run Sys2Proof.core n s = .next t ∧ t.seq = .executing w 0 ∧
      step t = .next u ∧ u.busy = false ∧ u.done = true

/-- R7, R20: the constant tables are configuration: no step changes them. The step count advances by
one at every step. That both stand in State is the model's choice (log entries 2 and 3). -/
def Obligations.TablesNeverChange : Prop :=
  ∀ s t : State, step s = .next t → t.params = s.params ∧ t.tick = s.tick + 1

/-! ### Encoding -/

/-- Words written out from R81 and R83 decode to the commands they stand for, and a word with a
reserved bit set does not decode (R85). The name of the cause, `reservedBit`, is the model's choice
(log entry 14). -/
def Obligations.SampleWordsDecode : Prop :=
  decode 0x0000000000000000 = .ok .nop ∧
  decode 0x0000000000503210 = .ok (.perm 2 3 5) ∧
  decode 0x0000000000021311 = .ok (.xor 3 1 2) ∧
  decode 0x0000004100001213 = .ok (.i2b 2 1 0x41) ∧
  decode 0x0000000000010233 = .ok (.fblock 2 0 1) ∧
  decode 0x0000000000007020 = .ok (.ksched 7) ∧
  decode 0x0001000000000041 = .ok (.kputc 0x10000) ∧
  decode 0x0000000000000800 = .error .reservedBit

/-- R85: decoding the encoding of a well-formed instruction, any operand at any value, gives the
instruction back. -/
def Obligations.DecodeOfEncodeIsTheInstruction : Prop :=
  ∀ i : Instr, i.WellFormed → decode (encode i) = .ok i

/-- R85: each legal command has exactly one encoding: a word that decodes is the encoding of what it
decodes to, which is well formed. -/
def Obligations.LegalWordIsTheEncodingOfItsCommand : Prop :=
  ∀ (w : Word) (i : Instr), decode w = .ok i → i.WellFormed ∧ encode i = w

/-- R83: a word encodes a row of the opcode table iff word & mask = match and, for PERM, TBL is at
most 6. -/
def Obligations.DecoderAgreesWithTheOpcodeTable : Prop :=
  ∀ (w : Word) (m : Mnemonic),
    (∃ i, decode w = .ok i ∧ i.mnemonic = m) ↔
      (w &&& m.matchMask.2 = m.matchMask.1 ∧ (m = .perm → (w.extractLsb' 20 4).toNat ≤ 6))

/-! ### Errors -/

/-- R242: a command that raises an error has no effect but ERR and ERROP (and completion), for every
command of the set. -/
def Obligations.FailedCommandHasNoEffect : Prop :=
  ∀ (i : Instr) (s t : State), s.err = 0 → exec i s = .next t → t.err ≠ 0 →
    t = complete { s with err := t.err, errop := (encode i).extractLsb' 0 8 }

/-- R244: while ERR is not 0 every command but NOP, ABORT and CLRERR is rejected. -/
def Obligations.CommandsAreRejectedWhileAnErrorIsRecorded : Prop :=
  ∀ (i : Instr) (s : State), s.err ≠ 0 → i ≠ .nop → i ≠ .abort → i ≠ .clrerr →
    exec i s = .next (complete { s with rej := true })

/-- R243: ERR and ERROP keep the first error until CLRERR, ABORT or reset clears them. -/
def Obligations.RecordedErrorIsSticky : Prop :=
  ∀ s t : State, s.err ≠ 0 → step s = .next t →
    (t.err = s.err ∧ t.errop = s.errop) ∨
    (t.err = 0 ∧ t.errop = 0 ∧
      ((∃ w, s.seq = .executing w 0 ∧ (decode w = .ok .abort ∨ decode w = .ok .clrerr)) ∨
       (∃ rest, s.host = .rst :: rest)))

/-- R232, R251: CLRERR after a failed command leaves the engine exactly as it was before that
command, but for DONE. -/
def Obligations.ClrerrUndoesAFailedCommand : Prop :=
  ∀ (i : Instr) (s t : State), s.err = 0 → s.errop = 0 → exec i s = .next t → t.err ≠ 0 →
    exec .clrerr t = .next (complete (complete s))

/-! ### Control commands -/

/-- R230: NOP changes nothing, whatever ERR is, and completes. -/
def Obligations.NopOnlyCompletes : Prop :=
  ∀ s : State, exec .nop s =
    .next { s with seq := .idle, done := true, tick := s.tick + 1 }

/-- R231: ABORT clears the error, the counts, the pack buffers, ROUND and FACT, and nothing else. -/
def Obligations.AbortReturnsToTheStartOfACall : Prop :=
  ∀ s : State, exec .abort s =
    .next (complete { s with
      err := 0, errop := 0, nkb := 0, kpn := 0, kpbuf := 0, dpn := 0, dpbuf := 0, ocnt := 0,
      round := 0, fact := false })

/-- R232: CLRERR clears ERR and ERROP, and nothing else. -/
def Obligations.ClrerrClearsTheError : Prop :=
  ∀ s : State, exec .clrerr s = .next (complete { s with err := 0, errop := 0 })

/-! ### Bit codec -/

/-- R111: I2B writes the integer of the source at length max(natural length, IMM), with its
errors. -/
def Obligations.I2bConvertsAnInteger : Prop :=
  ∀ (vd vs1 : VIndex) (imm : BitVec 32) (s : State), s.err = 0 →
    (Readable vs1 s ∧ imm.toNat ≤ 64 → exec (.i2b vd vs1 imm) s =
      .next (complete (s.setV vd
        { pay := BitVec.ofNat 64 (valueOf vs1 s)
          len := BitVec.ofNat 7 (max (Nat.size (valueOf vs1 s)) imm.toNat) }))) ∧
    (¬ (Readable vs1 s ∧ imm.toNat ≤ 64) → exec (.i2b vd vs1 imm) s = failed 1 0x13 s)

/-- R114: B2I writes the integer of the source as a 64-long vector, with its error. -/
def Obligations.B2iReadsAnInteger : Prop :=
  ∀ (vd vs1 : VIndex) (s : State), s.err = 0 →
    (Readable vs1 s → exec (.b2i vd vs1) s =
      .next (complete (s.setV vd { pay := BitVec.ofNat 64 (valueOf vs1 s), len := 64 }))) ∧
    (¬ Readable vs1 s → exec (.b2i vd vs1) s = failed 1 0x14 s)

/-- R112: B2I after I2B returns the original integer, and I2B's length is at least IMM. -/
def Obligations.B2iAfterI2bReturnsTheInteger : Prop :=
  ∀ (vd vs1 vr : VIndex) (imm : BitVec 32) (s : State), s.err = 0 → Readable vs1 s →
    imm.toNat ≤ 64 → ∃ t u : State,
      exec (.i2b vd vs1 imm) s = .next t ∧ exec (.b2i vr vd) t = .next u ∧
      u.err = 0 ∧ valueOf vr u = valueOf vs1 s ∧ imm.toNat ≤ (t.reg vd).len.toNat

/-- R115, R108: HEX appends the sixteen hex characters of a 64-element block to OCM, with its
errors; every other byte of OCM and every other register is unchanged. -/
def Obligations.HexAppendsSixteenCharacters : Prop :=
  ∀ (vs1 : VIndex) (s : State), s.err = 0 →
    (HoldsLength vs1 64 s ∧ s.ocnt + 16 ≤ 2048 → ∃ m, exec (.hex vs1) s =
        .next (complete { s with ocm := m, ocnt := s.ocnt + 16 }) ∧
      AppendsHex s.ocm m s.ocnt (s.reg vs1).pay.toNat) ∧
    (¬ HoldsLength vs1 64 s → exec (.hex vs1) s = failed 1 0x15 s) ∧
    (HoldsLength vs1 64 s ∧ 2048 < s.ocnt + 16 → exec (.hex vs1) s = failed 7 0x15 s)

/-! ### Permutation -/

/-- R84, R165: `table` is the table that the id `tbl` names for an input of `len` elements. -/
abbrev TableOfId (t : Config.Params) (len : Nat) (tbl : BitVec 4) (table : List Nat) : Prop :=
  tbl = 0 ∧ table = t.ip.toList ∨
  tbl = 1 ∧ table = t.fp.toList ∨
  tbl = 2 ∧ table = t.e.toList ∨
  tbl = 3 ∧ table = t.p.toList ∨
  tbl = 4 ∧ table = t.pc2.toList ∨
  tbl = 5 ∧ table = ((List.range 56).map fun d => 8 * (7 - d % 8) + d / 8) ∨
  tbl = 6 ∧ table = List.range len

/-- R84, R130, R133, R134: PERM with a table of the map R84, every entry below the input's length,
writes the vector whose element i is input element T[i]; with its errors; each well-formed PERM names
one of those tables, and PERM with IDENT writes its input. -/
def Obligations.PermRearrangesByTheTable : Prop :=
  ∀ (vd vs1 : VIndex) (tbl : BitVec 4) (s : State), s.err = 0 →
    let len := (s.reg vs1).len.toNat
    (∀ table, TableOfId s.params len tbl table →
      (len ≤ 64 ∧ (∀ x ∈ table, x < len) → ∃ p : Word,
        exec (.perm vd vs1 tbl) s =
          .next (complete (s.setV vd { pay := p, len := BitVec.ofNat 7 table.length })) ∧
        table.length ≤ 64 ∧
        (∀ i, i < table.length →
          p.getLsbD (table.length - 1 - i) = (s.reg vs1).pay.getLsbD (len - 1 - table.getD i 0)) ∧
        (∀ k, table.length ≤ k → p.getLsbD k = false)) ∧
      (64 < len → exec (.perm vd vs1 tbl) s = failed 1 0x10 s) ∧
      (len ≤ 64 ∧ (∃ x ∈ table, len ≤ x) → exec (.perm vd vs1 tbl) s = failed 3 0x10 s)) ∧
    ((Instr.perm vd vs1 tbl).WellFormed → ∃ table, TableOfId s.params len tbl table) ∧
    (Readable vs1 s → exec (.perm vd vs1 6) s = .next (complete (s.setV vd
      { pay := BitVec.ofNat 64 (valueOf vs1 s), len := (s.reg vs1).len })))

/-- R165: the key reduction sets derived[i*8+j] = input[8*k+i] with k = 7-j. -/
def Obligations.PermWithKredReducesAKey : Prop :=
  ∀ (vd vs1 : VIndex) (s : State), s.err = 0 → HoldsLength vs1 64 s → ∃ p : Word,
    exec (.perm vd vs1 5) s = .next (complete (s.setV vd { pay := p, len := 56 })) ∧
    (∀ i j, i < 7 → j < 8 →
      p.getLsbD (55 - (i * 8 + j)) = (s.reg vs1).pay.getLsbD (63 - (8 * (7 - j) + i))) ∧
    p.toNat < 2 ^ 56

/-- R136: XOR of two vectors of equal length, with its error. -/
def Obligations.XorIsElementwise : Prop :=
  ∀ (vd vs1 vs2 : VIndex) (s : State), s.err = 0 →
    (Readable vs1 s ∧ (s.reg vs2).len = (s.reg vs1).len → exec (.xor vd vs1 vs2) s =
      .next (complete (s.setV vd
        { pay := BitVec.ofNat 64
            (((s.reg vs1).pay ^^^ (s.reg vs2).pay).toNat % 2 ^ (s.reg vs1).len.toNat)
          len := (s.reg vs1).len }))) ∧
    (¬ (Readable vs1 s ∧ (s.reg vs2).len = (s.reg vs1).len) →
      exec (.xor vd vs1 vs2) s = failed 1 0x11 s)

/-! ### Substitution -/

/-- R150-R155: SUBST looks up one 4-bit cell for each of the eight groups, at the row and column
that the weighted sums give, most significant group first; with its errors. -/
def Obligations.SubstLooksUpEveryGroup : Prop :=
  ∀ (vd vs1 : VIndex) (s : State), s.err = 0 →
    let x := (s.reg vs1).pay
    let inRange := fun g : Nat => rowOfGroup s.params x g < 4 ∧ columnOfGroup s.params x g < 16
    (HoldsLength vs1 48 s ∧ (∀ g, g < 8 → inRange g) → ∃ p : Word,
      exec (.subst vd vs1) s = .next (complete (s.setV vd { pay := p, len := 32 })) ∧
      p.toNat < 2 ^ 32 ∧
      ∀ (g : Fin 8) (h : inRange g.val),
        p.extractLsb' (28 - 4 * g.val) 4 =
          (s.params.sbox[g].get ⟨rowOfGroup s.params x g.val, h.1⟩).get
            ⟨columnOfGroup s.params x g.val, h.2⟩) ∧
    (¬ HoldsLength vs1 48 s → exec (.subst vd vs1) s = failed 1 0x12 s) ∧
    (HoldsLength vs1 48 s ∧ (∃ g, g < 8 ∧ ¬ inRange g) → exec (.subst vd vs1) s = failed 8 0x12 s)

/-! ### Key schedule -/

/-- R166, R169, R171: KSCHED writes the sixteen subkeys, RK[r] the compression of the halves rotated
left by ROT[0] + ... + ROT[r], and KSTATE the state after round 15; with its errors. -/
def Obligations.KschedDerivesTheRoundKeys : Prop :=
  ∀ (vs1 : VIndex) (s : State), s.err = 0 →
    let x := (s.reg vs1).pay
    (HoldsLength vs1 64 s ∧ (∀ q ∈ s.params.pc2.toList, q < 56) → ∃ rk kst,
      exec (.ksched vs1) s = .next (complete { s with rk := rk, kstate := kst }) ∧
      (∀ (r : Fin 16) (n : Fin 48),
        rk[r].getLsbD (47 - n.val) = keyStateElement x (rotationSum s.params r.val) s.params.pc2[n]) ∧
      (∀ q, q < 56 → kst.getLsbD (55 - q) = keyStateElement x (rotationSum s.params 15) q)) ∧
    (¬ HoldsLength vs1 64 s → exec (.ksched vs1) s = failed 1 0x20 s) ∧
    (HoldsLength vs1 64 s ∧ (∃ q ∈ s.params.pc2.toList, 56 ≤ q) →
      exec (.ksched vs1) s = failed 3 0x20 s)

/-- R173: key blocks that agree in every element but the last of each byte give the same round keys
and key state. -/
def Obligations.KschedIgnoresTheDroppedBits : Prop :=
  ∀ (vs1 : VIndex) (s : State) (x y : Word), s.err = 0 →
    x &&& 0xFEFEFEFEFEFEFEFE = y &&& 0xFEFEFEFEFEFEFEFE → ∃ t u : State,
      exec (.ksched vs1) (s.setV vs1 { pay := x, len := 64 }) = .next t ∧
      exec (.ksched vs1) (s.setV vs1 { pay := y, len := 64 }) = .next u ∧
      t.rk = u.rk ∧ t.kstate = u.kstate ∧ t.err = u.err

/-- R189, R166: with the all-zero key block every subkey and the key state are zero, for every ROT
and every well-formed PC2_TABLE. -/
def Obligations.ZeroKeyGivesZeroRoundKeys : Prop :=
  ∀ (vs1 : VIndex) (s : State), s.err = 0 → s.reg vs1 = { pay := 0, len := 64 } →
    (∀ q ∈ s.params.pc2.toList, q < 56) →
    exec (.ksched vs1) s = .next (complete { s with rk := Vector.replicate 16 0, kstate := 0 })

/-! ### Feistel network -/

/-- R181, R182: FINIT splits the initial permutation of the block into L and R, ROUND 0, FACT 1;
with its errors. -/
def Obligations.FinitSplitsThePermutedBlock : Prop :=
  ∀ (vs1 : VIndex) (s : State), s.err = 0 →
    (HoldsLength vs1 64 s ∧ (∀ q ∈ s.params.ip.toList, q < 64) → ∃ l r,
      exec (.finit vs1) s =
        .next (complete { s with l := l, r := r, round := 0, fact := true }) ∧
      (∀ i, i < 32 → l.getLsbD (31 - i) =
        (s.reg vs1).pay.getLsbD (63 - s.params.ip.toList.getD i 0)) ∧
      (∀ i, i < 32 → r.getLsbD (31 - i) =
        (s.reg vs1).pay.getLsbD (63 - s.params.ip.toList.getD (32 + i) 0))) ∧
    (¬ HoldsLength vs1 64 s → exec (.finit vs1) s = failed 1 0x30 s) ∧
    (HoldsLength vs1 64 s ∧ (∃ q ∈ s.params.ip.toList, 64 ≤ q) →
      exec (.finit vs1) s = failed 3 0x30 s)

/-- R183: FROUND puts the old R into L and f(R, RK[ROUND]) ^ L into R and counts the round, under any
tables for which the round function answers; it answers whenever the tables are well formed and the
weights in range; with its errors. -/
def Obligations.FroundDoesOneRound : Prop :=
  ∀ s : State, s.err = 0 →
    (s.fact = true ∧ s.round < 16 → s.params.Wf → WeightsInRange s.params → ∃ y,
      roundFunction s.params (toBits s.r) (toBits ((s.rk[s.round]?).getD 0)) = .ok y ∧
      exec .fround s = .next (complete { s with
        l := s.r, r := ofBits 32 y ^^^ s.l, round := s.round + 1 })) ∧
    (∀ y, s.fact = true ∧ s.round < 16 →
      roundFunction s.params (toBits s.r) (toBits ((s.rk[s.round]?).getD 0)) = .ok y →
      y.length = 32 ∧ exec .fround s = .next (complete { s with
        l := s.r, r := ofBits 32 y ^^^ s.l, round := s.round + 1 })) ∧
    (∀ e, s.fact = true ∧ s.round < 16 →
      roundFunction s.params (toBits s.r) (toBits ((s.rk[s.round]?).getD 0)) = .error e →
      exec .fround s = failed e.code 0x31 s) ∧
    (¬ (s.fact = true ∧ s.round < 16) → exec .fround s = failed 5 0x31 s)

/-- R184: the round function is the P permutation of the substitution of E(X) ^ K, element by
element, and fails where the substitution fails. -/
def Obligations.RoundFunctionIsItsFourSteps : Prop :=
  ∀ (t : Config.Params) (x : BitVec 32) (k : BitVec 48), t.Wf →
    roundFunction t (toBits x) (toBits k) =
      (subst t ((List.range 48).map fun j =>
        (x.getLsbD (31 - t.e.toList.getD j 0) ^^ k.getLsbD (47 - j)))).map
          fun sub => t.p.toList.map fun q => sub.getD q false

/-- R185: FFINAL writes the final permutation of R ++ L, right half first, and clears FACT;
with its errors. -/
def Obligations.FfinalPermutesTheSwappedHalves : Prop :=
  ∀ (vd : VIndex) (s : State), s.err = 0 →
    (s.fact = true ∧ s.round = 16 ∧ (∀ q ∈ s.params.fp.toList, q < 64) → ∃ p : Word,
      exec (.ffinal vd) s =
        .next (complete ({ s with fact := false }.setV vd { pay := p, len := 64 })) ∧
      (∀ i, i < 64 → p.getLsbD (63 - i) =
        (s.r ++ s.l).getLsbD (63 - s.params.fp.toList.getD i 0))) ∧
    (¬ (s.fact = true ∧ s.round = 16) → exec (.ffinal vd) s = failed 5 0x32 s) ∧
    (s.fact = true ∧ s.round = 16 ∧ (∃ q ∈ s.params.fp.toList, 64 ≤ q) →
      exec (.ffinal vd) s = failed 3 0x32 s)

/-- R188: with well-formed tables and weights in range, the block function answers a 64-element
block for every data and key block. -/
def Obligations.BlockFunctionIsTotal : Prop :=
  ∀ (t : Config.Params) (d k : Word), t.Wf → WeightsInRange t →
    ∃ c, feistel t (toBits d) (toBits k) = .ok c ∧ c.length = 64

/-- R186, R180: FBLOCK writes feistel(D, K) and leaves RK and KSTATE as the key schedule of K gives
them, L and R as the last round left them, ROUND = 16 and FACT = 0; with its errors. -/
def Obligations.FblockComputesTheBlockFunction : Prop :=
  ∀ (vd vs1 vs2 : VIndex) (s : State), s.err = 0 →
    (HoldsLength vs1 64 s ∧ HoldsLength vs2 64 s →
      let data := toBits (s.reg vs1).pay
      let key := toBits (s.reg vs2).pay
      (∀ c, feistel s.params data key = .ok c → ∃ rk kst l r,
        BlockStepLeaves s.params data key rk kst l r ∧
        exec (.fblock vd vs1 vs2) s = .next (complete ({ s with
          rk := rk, kstate := kst, l := l, r := r, round := 16,
          fact := false }.setV vd { pay := ofBits 64 c, len := 64 }))) ∧
      (∀ e, feistel s.params data key = .error e →
        exec (.fblock vd vs1 vs2) s = failed e.code 0x33 s)) ∧
    (¬ (HoldsLength vs1 64 s ∧ HoldsLength vs2 64 s) →
      exec (.fblock vd vs1 vs2) s = failed 1 0x33 s)

/-- R285, R186: a stepped block, KSCHED; FINIT; 16 x FROUND; FFINAL, ends in the state FBLOCK ends
in (but for the model's step count). -/
def Obligations.SteppedBlockEqualsFblock : Prop :=
  ∀ (vd vs1 vs2 : VIndex) (s t : State), s.err = 0 →
    exec (.fblock vd vs1 vs2) s = .next t → t.err = 0 →
    execAll ([.ksched vs2, .finit vs1] ++ List.replicate 16 .fround ++ [.ffinal vd]) s =
      .next { t with tick := s.tick + 19 }

/-! ### Key ring, data and cascade -/

/-- R202: KCLR empties the key ring and the key pack buffer, with its error. -/
def Obligations.KclrEmptiesTheKeyRing : Prop :=
  ∀ s : State, s.err = 0 →
    (s.dpn = 0 → exec .kclr s = .next (complete { s with nkb := 0, kpn := 0, kpbuf := 0 })) ∧
    (s.dpn ≠ 0 → exec .kclr s = failed 5 0x40 s)

/-- R203, R204: KPUTC puts a character into its place of the key pack buffer, and the fourth
character appends the block to KBM; with its errors in the order of R247. -/
def Obligations.KputcPacksAKeyCharacter : Prop :=
  ∀ (imm : BitVec 32) (s : State), s.err = 0 →
    let buf := s.kpbuf ||| (imm.setWidth 64 <<< (48 - 16 * s.kpn))
    (s.dpn = 0 ∧ imm.toNat ≤ 0xFFFF ∧ s.kpn < 3 →
      exec (.kputc imm) s = .next (complete { s with kpbuf := buf, kpn := s.kpn + 1 })) ∧
    (s.dpn = 0 ∧ imm.toNat ≤ 0xFFFF ∧ 3 ≤ s.kpn ∧ s.nkb < 64 → ∃ m,
      exec (.kputc imm) s = .next (complete { s with
        kbm := m, nkb := s.nkb + 1, kpbuf := 0, kpn := 0 }) ∧
      ∀ k, memRead m k = if k = s.nkb then some buf else memRead s.kbm k) ∧
    (s.dpn ≠ 0 → exec (.kputc imm) s = failed 5 0x41 s) ∧
    (s.dpn = 0 ∧ 0xFFFF < imm.toNat → exec (.kputc imm) s = failed 2 0x41 s) ∧
    (s.dpn = 0 ∧ imm.toNat ≤ 0xFFFF ∧ 3 ≤ s.kpn ∧ 64 ≤ s.nkb →
      exec (.kputc imm) s = failed 6 0x41 s)

/-- R205: KEND appends a partial key block, already null-padded, and does nothing for an empty
buffer; with its errors. -/
def Obligations.KendEndsAKeyString : Prop :=
  ∀ s : State, s.err = 0 →
    (s.dpn = 0 ∧ s.kpn = 0 → exec .kend s = .next (complete s)) ∧
    (s.dpn = 0 ∧ 0 < s.kpn ∧ s.nkb < 64 → ∃ m,
      exec .kend s = .next (complete { s with
        kbm := m, nkb := s.nkb + 1, kpbuf := 0, kpn := 0 }) ∧
      ∀ k, memRead m k = if k = s.nkb then some s.kpbuf else memRead s.kbm k) ∧
    (s.dpn ≠ 0 → exec .kend s = failed 5 0x42 s) ∧
    (s.dpn = 0 ∧ 0 < s.kpn ∧ 64 ≤ s.nkb → exec .kend s = failed 6 0x42 s)

/-- R208, R200: what a completed data block `buf` does in state `s` as the command of opcode `op`,
answering `out`: it appends the hex text of the block encrypted under the key ring in order, or
raises OutputFull or the cipher's error. An empty ring changes no cipher register; any other leaves
them as the last key block's step does, with ROUND = 16 and FACT = 0. -/
abbrev DataBlockEncrypted (buf : Word) (op : Byte) (s : State)
    (out : Host.Outcome State Fault Refusal) : Prop :=
  (s.ocnt + 16 ≤ 2048 →
    (∀ c, cascadeFold s.params (keyRing s) (toBits buf) = .ok c →
      ∃ m rk kst l r round fact, out = .next (complete { s with
          ocm := m, ocnt := s.ocnt + 16, dpbuf := 0, dpn := 0, rk := rk, kstate := kst, l := l,
          r := r, round := round, fact := fact }) ∧
        AppendsHex s.ocm m s.ocnt (val c) ∧
        CascadeLeaves s (toBits buf) rk kst l r round fact) ∧
    (∀ e, cascadeFold s.params (keyRing s) (toBits buf) = .error e → out = failed e.code op s)) ∧
  (2048 < s.ocnt + 16 → out = failed 7 op s)

/-- R206, R208: DPUTC of one of the first three characters of a block puts it into its place of the
data pack buffer, and the fourth character encrypts the block; with its errors in the order of
R247. -/
def Obligations.DputcPacksADataCharacter : Prop :=
  ∀ (imm : BitVec 32) (s : State), s.err = 0 →
    let buf := s.dpbuf ||| (imm.setWidth 64 <<< (48 - 16 * s.dpn))
    (s.kpn = 0 ∧ imm.toNat ≤ 0xFFFF ∧ s.dpn < 3 →
      exec (.dputc imm) s = .next (complete { s with dpbuf := buf, dpn := s.dpn + 1 })) ∧
    (s.kpn = 0 ∧ imm.toNat ≤ 0xFFFF ∧ 3 ≤ s.dpn →
      DataBlockEncrypted buf 0x43 s (exec (.dputc imm) s)) ∧
    (s.kpn ≠ 0 → exec (.dputc imm) s = failed 5 0x43 s) ∧
    (s.kpn = 0 ∧ 0xFFFF < imm.toNat → exec (.dputc imm) s = failed 2 0x43 s)

/-- R207, R208: DEND encrypts a partial block, already null-padded, and does nothing for an empty
buffer; with its sequence error. -/
def Obligations.DendEndsThePlaintext : Prop :=
  ∀ s : State, s.err = 0 →
    (s.kpn = 0 ∧ s.dpn = 0 → exec .dend s = .next (complete s)) ∧
    (s.kpn = 0 ∧ 0 < s.dpn → DataBlockEncrypted s.dpbuf 0x44 s (exec .dend s)) ∧
    (s.kpn ≠ 0 → exec .dend s = failed 5 0x44 s)

/-- R209, R200: CASC writes the block encrypted under the key ring in order; with its errors in the
order of R247. -/
def Obligations.CascEncryptsUnderTheKeyRing : Prop :=
  ∀ (vd vs1 : VIndex) (s : State), s.err = 0 →
    (s.kpn = 0 ∧ HoldsLength vs1 64 s →
      (∀ c, cascadeFold s.params (keyRing s) (toBits (s.reg vs1).pay) = .ok c →
        ∃ rk kst l r round fact, exec (.casc vd vs1) s = .next (complete ({ s with
            rk := rk, kstate := kst, l := l, r := r, round := round,
            fact := fact }.setV vd { pay := ofBits 64 c, len := 64 })) ∧
          CascadeLeaves s (toBits (s.reg vs1).pay) rk kst l r round fact) ∧
      (∀ e, cascadeFold s.params (keyRing s) (toBits (s.reg vs1).pay) = .error e →
        exec (.casc vd vs1) s = failed e.code 0x45 s)) ∧
    (s.kpn ≠ 0 → exec (.casc vd vs1) s = failed 5 0x45 s) ∧
    (s.kpn = 0 ∧ ¬ HoldsLength vs1 64 s → exec (.casc vd vs1) s = failed 1 0x45 s)

/-- R210: OCLR empties the output and nothing else. -/
def Obligations.OclrEmptiesTheOutput : Prop :=
  ∀ s : State, s.err = 0 → exec .oclr s = .next (complete { s with ocnt := 0 })

/-- R201: after a complete load (KCLR or ABORT, then each key string), KBM holds the flattened key
ring in order, and NKB counts it. -/
def Obligations.KeyLoadFillsKbmWithTheFlattenedRing : Prop :=
  ∀ (start : Instr) (keys : List (List (BitVec 32))) (ring : List Bits) (s : State),
    (start = .kclr ∧ s.err = 0 ∧ s.dpn = 0 ∨ start = .abort) →
    keyRingBlocks (keys.map fun k => k.map BitVec.toNat) = .ok ring → ring.length ≤ 64 →
    ∃ t : State, execAll (start :: keys.flatMap kstr) s = .next t ∧ t.err = 0 ∧ t.kpn = 0 ∧
      t.nkb = ring.length ∧ ring.length = (keys.map fun k => blockCount k.length).sum ∧
      ∀ k (h : k < ring.length), memRead t.kbm k = some (ofBits 64 ring[k])

/-- R212: the ENCRYPT sequence computes the source's encrypt: the output is, byte for byte, the
concatenated hex text of every data block folded over the flattened key ring. If a character is
above 0xFFFF, the ring or the output does not fit, or a block fails, the sequence ends with an
error recorded. -/
def Obligations.EncryptSequenceComputesEncrypt : Prop :=
  ∀ (p : List (BitVec 32)) (keys : List (List (BitVec 32))) (s : State),
    let answer := encrypt s.params (p.map BitVec.toNat) (keys.map fun k => k.map BitVec.toNat)
    let fits := (keys.map fun k => blockCount k.length).sum ≤ 64 ∧ 16 * blockCount p.length ≤ 2048
    ∃ t : State, execAll (encryptCommands p keys) s = .next t ∧
      (∀ text, answer = .ok text → fits → t.err = 0 ∧
        t.ocnt = 16 * blockCount p.length ∧ text.length = t.ocnt ∧
        ∀ a, a < t.ocnt → memRead t.ocm a = text[a]?) ∧
      ((∃ e, answer = .error e) ∨ ¬ fits → t.err ≠ 0)

/-! ### Who writes what -/

/-- R29, R31, R33, R34: RK and KSTATE are written only by KSCHED and the commands that include it,
KBM only by KPUTC and KEND, and OCM only by HEX, DPUTC and DEND; and no command changes an output
byte below OCNT. -/
def Obligations.OnlyNamedCommandsWriteKeysAndMemories : Prop :=
  ∀ (i : Instr) (s t : State), exec i s = .next t →
    (t.rk ≠ s.rk ∨ t.kstate ≠ s.kstate →
      i.mnemonic ∈ [Mnemonic.ksched, .fblock, .casc, .dputc, .dend]) ∧
    (t.kbm ≠ s.kbm → i.mnemonic ∈ [Mnemonic.kputc, .kend]) ∧
    (t.ocm ≠ s.ocm → i.mnemonic ∈ [Mnemonic.hex, .dputc, .dend]) ∧
    (∀ a, a < s.ocnt → memRead t.ocm a = memRead s.ocm a)

/-- R24, R26, R37, R38: a command changes no vector register but its destination, and never CTRL.IE,
WBUSY or anything of the host's. -/
def Obligations.CommandsLeaveOtherRegistersAlone : Prop :=
  ∀ (i : Instr) (s t : State), exec i s = .next t →
    (∀ n, (∀ vd, (∃ a tbl, i = .perm vd a tbl) ∨ (∃ a b, i = .xor vd a b) ∨ (∃ a, i = .subst vd a) ∨
        (∃ a imm, i = .i2b vd a imm) ∨ (∃ a, i = .b2i vd a) ∨ i = .ffinal vd ∨
        (∃ a b, i = .fblock vd a b) ∨ (∃ a, i = .casc vd a) → n ≠ vd) → t.reg n = s.reg n) ∧
    t.ie = s.ie ∧ t.wbusy = s.wbusy ∧ t.host = s.host ∧ t.readData = s.readData

/-! ### The bus -/

/-- R62: offset bits 2:0 are ignored: an access is an access to the word at `o & 0xFF8`. -/
def Obligations.OffsetBitsTwoToZeroAreIgnored : Prop :=
  ∀ (o : Offset) (s : State),
    (s.busy = false → busRead o s = busRead (o &&& 0xFF8) s) ∧
    ∀ x : Word, busWrite o x s = busWrite (o &&& 0xFF8) x s

/-- R61, R69: in a cycle of the host with no command in flight, a read changes nothing but what the
host holds, and a write is the bus write. The script, the data read and the step count are the
model's own fields (log entries 3 and 8). -/
def Obligations.HostAccessIsOneStep : Prop :=
  ∀ (s : State) (o : Offset) (rest : List HostAction), s.busy = false →
    (s.host = .read o :: rest → step s = .next { s with
      readData := some (busRead o s), host := rest, tick := s.tick + 1 }) ∧
    (∀ x : Word, s.host = .write o x :: rest → step s = .next
      { busWrite o x { s with host := rest } with tick := s.tick + 1 })

/-- R281, R282: while BUSY = 1 every host write, at any offset, is dropped and sets WBUSY; ID reads its
constant, and STATUS its fields with BUSY = 1. That the WBUSY it reads is as the writes dropped
meanwhile have left it is the model's choice (log entry 7, DEDUCED from R282's "current value"). -/
def Obligations.BusWhileBusy : Prop :=
  ∀ (o : Offset) (s : State), s.busy = true →
    (∀ x : Word, busWrite o x s = { s with wbusy := true }) ∧
    (o &&& 0xFF8 = 0x000 → busRead o s = 0x4443464500000007) ∧
    (o &&& 0xFF8 = 0x010 → busRead o s = statusWord s ∧ (busRead o s).getLsbD 0 = true)

/-- R23, R62: a write to CMD while BUSY = 0 latches the word and sets BUSY; a read of CMD returns
0. The number of cycles until the step is a free value of the model (log entry 5). -/
def Obligations.CmdWriteLatchesTheCommand : Prop :=
  ∀ (o : Offset) (x : Word) (s : State), s.busy = false → o &&& 0xFF8 = 0x008 →
    busRead o s = 0 ∧ (busWrite o x s).busy = true ∧
    ∃ n, busWrite o x s = { s with seq := .executing x n }

/-- R24, R70: what the host writes to VPAY_n and VLEN_n it reads back, the length cut to 7 bits, and
no other register changes. -/
def Obligations.VectorRegistersReadBack : Prop :=
  ∀ (n : VIndex) (x : Word) (s : State), s.busy = false →
    let pay : Offset := BitVec.ofNat 12 (0x100 + 16 * n.val)
    let len : Offset := BitVec.ofNat 12 (0x108 + 16 * n.val)
    busWrite pay x s = s.setV n { pay := x, len := (s.reg n).len } ∧
    busRead pay (busWrite pay x s) = x ∧
    busWrite len x s = s.setV n { pay := (s.reg n).pay, len := x.setWidth 7 } ∧
    busRead len (busWrite len x s) = x &&& 0x7F

/-- R37, R21: a host read of STATUS, at offset 0x010, has the fields at their places and every other bit
0, and a host write clears exactly the W1C bits written as 1. That a read while BUSY = 1 shows the
current WBUSY is the model's choice (log entry 7, DEDUCED from R282). -/
def Obligations.StatusHoldsItsFields : Prop :=
  ∀ s : State,
    let w := busRead 0x010 s
    (w.getLsbD 0 = s.busy ∧ w.getLsbD 1 = s.done ∧ w.getLsbD 2 = s.wbusy ∧ w.getLsbD 3 = s.rej) ∧
    (w.extractLsb' 8 4 = s.err ∧ w.extractLsb' 16 8 = s.errop ∧
      w.extractLsb' 24 5 = BitVec.ofNat 5 s.round ∧ w.getLsbD 29 = s.fact) ∧
    w &&& 0xFFFFFFFFC000F0F0 = 0 ∧
    (∀ x : Word, s.busy = false → busWrite 0x010 x s = { s with
      done := s.done && !x.getLsbD 1, wbusy := s.wbusy && !x.getLsbD 2,
      rej := s.rej && !x.getLsbD 3 })

/-- R39, R38, R249: the fields of STREAM and CTRL at their places, every other bit 0; a write to CTRL
stores bit 0; the interrupt output is the level CTRL.IE & STATUS.DONE. -/
def Obligations.StreamAndCtrlHoldTheirFields : Prop :=
  ∀ s : State, s.busy = false →
    let w := busRead 0x020 s
    (w.extractLsb' 0 8 = BitVec.ofNat 8 s.nkb ∧ w.extractLsb' 8 3 = BitVec.ofNat 3 s.kpn ∧
      w.extractLsb' 12 3 = BitVec.ofNat 3 s.dpn ∧ w.extractLsb' 16 12 = BitVec.ofNat 12 s.ocnt ∧
      w &&& 0xFFFFFFFFF0008800 = 0) ∧
    (busRead 0x018 s = if s.ie then 1 else 0) ∧
    (∀ x : Word, busWrite 0x018 x s = { s with ie := x.getLsbD 0 } ∧ busWrite 0x020 x s = s) ∧
    irq s = ((busRead 0x018 s).getLsbD 0 && (busRead 0x010 s).getLsbD 1)

/-- R64, R65: the gaps of the map read as 0 and ignore writes, and CMD reads as 0. -/
def Obligations.UnmappedOffsetsReadZeroAndIgnoreWrites : Prop :=
  ∀ (o : Offset) (x : Word) (s : State), s.busy = false →
    let a := o.toNat / 8 * 8
    busRead 0x008 s = 0 ∧
    ((0x050 ≤ a ∧ a ≤ 0x0F8 ∨ 0x180 ≤ a ∧ a ≤ 0x1F8 ∨ 0x280 ≤ a ∧ a ≤ 0x3F8 ∨
        0x600 ≤ a ∧ a ≤ 0x7F8) →
      busRead o s = 0 ∧ busWrite o x s = s)

/-- R22, R29-R31, R35, R36, R65, R68: ID reads its constant, the other read-only registers read as the
state they show, and all ignore writes. -/
def Obligations.ReadOnlyRegistersShowTheState : Prop :=
  ∀ s : State, s.busy = false →
    busRead 0x000 s = 0x4443464500000007 ∧
    (busRead 0x028 s = s.kpbuf ∧ busRead 0x030 s = s.dpbuf ∧
      (busRead 0x038 s).toNat = s.l.toNat ∧ (busRead 0x040 s).toNat = s.r.toNat ∧
      (busRead 0x048 s).toNat = s.kstate.toNat) ∧
    (∀ r : Fin 16, (busRead (BitVec.ofNat 12 (0x200 + 8 * r.val)) s).toNat = s.rk[r].toNat) ∧
    (∀ k, k < 64 → busRead (BitVec.ofNat 12 (0x400 + 8 * k)) s = kbmRead k s) ∧
    (∀ (o : Offset) (x : Word), (o &&& 0xFF8 = 0x000 ∨ 0x020 ≤ o.toNat ∧ o.toNat < 0x100 ∨
      0x180 ≤ o.toNat) → busWrite o x s = s)

/-- R66: OCM byte 8m+j is in bits [8*(7-j)+7 : 8*(7-j)] of the bus word OCMW_m. -/
def Obligations.OutputWindowIsBigEndian : Prop :=
  ∀ (s : State) (m j : Nat), s.busy = false → m < 256 → j < 8 →
    (busRead (BitVec.ofNat 12 (0x800 + 8 * m)) s).extractLsb' (8 * (7 - j)) 8 = ocmRead (8 * m + j) s

/-- R272: the reset input abandons a command in flight without its effects and loads the values of
R270. That it is an action of the host's script, and what the model's own fields keep, is the
model's choice (log entries 2, 3, 8 and 9). -/
def Obligations.ResetAbandonsTheCommandInFlight : Prop :=
  ∀ (s : State) (rest : List HostAction), s.host = .rst :: rest →
    (∀ w, s.seq ≠ .executing w 0) →
    step s = .next { State.reset with
      params := s.params, tick := s.tick + 1, host := rest, readData := s.readData }
end

