-- ==== Sys2Proof/Laws/Bits.lean ====
section
/-! SUPPORT. Laws of bit vectors: lengths, the two directions between vectors and integers, and what
each element of a slice, a permutation and a rotation is. -/

namespace Sys2Proof.Machine

/-! ### Lengths -/

@[simp] theorem bitsN_length (n x : Nat) : (bitsN n x).length = n := by simp [bitsN]

@[simp] theorem toBits_length {w : Nat} (x : BitVec w) : (toBits x).length = w := by simp [toBits]

@[simp] theorem slice_length (v : Bits) (i n : Nat) : (slice v i n).length = min n (v.length - i) := by
  simp [slice]

@[simp] theorem xorBits_length (a b : Bits) : (xorBits a b).length = min a.length b.length := by
  simp [xorBits]

@[simp] theorem rotl_length (h : Bits) (n : Nat) : (rotl h n).length = 28 := by simp [rotl]

@[simp] theorem kred_length : kred.length = 56 := by simp [kred]

@[simp] theorem charbits_length (c : Nat) : (charbits c).length = 16 := by simp [charbits]

@[simp] theorem intToBits_length (x m : Nat) :
    (intToBits x m).length = max (naturalLength x) m := by simp [intToBits]

@[simp] theorem hex4_length (x : Nat) : (hex4 x).length = 4 := rfl

/-! ### The integer of a vector -/

@[simp] theorem val_nil : val [] = 0 := rfl

theorem val_append_single (v : Bits) (b : Bool) : val (v ++ [b]) = 2 * val v + b.toNat := by
  simp [val]

theorem val_lt (v : Bits) : val v < 2 ^ v.length := by
  induction v using List.reverseRecOn with
  | nil => simp
  | append_singleton v b ih =>
    rw [val_append_single, List.length_append, List.length_singleton, Nat.pow_succ]
    have := Bool.toNat_le b
    omega

theorem bitsN_succ (n x : Nat) : bitsN (n + 1) x = bitsN n (x / 2) ++ [x.testBit 0] := by
  unfold bitsN
  rw [List.range_succ, List.map_append]
  congr 1
  · apply List.map_congr_left
    intro i hi
    have hi : i < n := List.mem_range.1 hi
    rw [show n + 1 - 1 - i = (n - 1 - i) + 1 by omega, Nat.testBit_succ]
  · simp

theorem val_bitsN {n x : Nat} (h : x < 2 ^ n) : val (bitsN n x) = x := by
  induction n generalizing x with
  | zero => simp [bitsN]; omega
  | succ n ih =>
    rw [bitsN_succ, val_append_single, ih (by omega), Nat.testBit_zero]
    by_cases hx : x % 2 = 1 <;> simp [hx] <;> omega

theorem bitsN_val (v : Bits) : bitsN v.length (val v) = v := by
  induction v using List.reverseRecOn with
  | nil => simp [bitsN]
  | append_singleton v b ih =>
    have hb := Bool.toNat_le b
    rw [List.length_append, List.length_singleton, bitsN_succ, val_append_single,
      show (2 * val v + b.toNat) / 2 = val v by omega, ih, Nat.testBit_zero]
    cases b <;> simp

@[simp] theorem ofBits_toBits {w : Nat} (x : BitVec w) : ofBits w (toBits x) = x := by
  simp [ofBits, toBits, val_bitsN x.isLt]

theorem toBits_ofBits {w : Nat} {v : Bits} (h : v.length = w) : toBits (ofBits w v) = v := by
  subst h
  simp [toBits, ofBits, Nat.mod_eq_of_lt (val_lt v), bitsN_val]

theorem ofBits_toNat {w : Nat} {v : Bits} (h : v.length ≤ w) : (ofBits w v).toNat = val v := by
  simp only [ofBits, BitVec.toNat_ofNat]
  exact Nat.mod_eq_of_lt (lt_of_lt_of_le (val_lt v) (Nat.pow_le_pow_right (by decide) h))

/-! ### Elements -/

theorem bitsN_getD {n x i : Nat} (h : i < n) : (bitsN n x).getD i false = x.testBit (n - 1 - i) := by
  simp [bitsN, List.getD, h]

theorem toBits_getD {w i : Nat} (x : BitVec w) (h : i < w) :
    (toBits x).getD i false = x.getLsbD (w - 1 - i) := by
  rw [toBits, bitsN_getD h, BitVec.getLsbD]

theorem val_testBit {v : Bits} {i : Nat} (h : i < v.length) :
    (val v).testBit (v.length - 1 - i) = v.getD i false := by
  rw [← bitsN_getD h, bitsN_val]

theorem ofBits_getLsbD {w i : Nat} {v : Bits} (hw : v.length = w) (h : i < w) :
    (ofBits w v).getLsbD (w - 1 - i) = v.getD i false := by
  subst hw
  rw [BitVec.getLsbD, ofBits_toNat (le_refl _), val_testBit h]

theorem slice_getD {v : Bits} {i n k : Nat} (h : k < n) :
    (slice v i n).getD k false = v.getD (i + k) false := by
  simp [slice, List.getD, List.getElem?_drop, h]

theorem rotl_getD {h : Bits} {n i : Nat} (hi : i < 28) :
    (rotl h n).getD i false = h.getD ((i + n) % 28) false := by
  simp [rotl, List.getD, hi]

theorem xorBits_getD {a b : Bits} (h : a.length = b.length) (i : Nat) :
    (xorBits a b).getD i false = ((a.getD i false) ^^ (b.getD i false)) := by
  by_cases hi : i < a.length
  · simp [xorBits, List.getD, hi, h ▸ hi]
  · simp [xorBits, List.getD, hi, show ¬ i < b.length by omega]

/-- Rotations add up: rotation is cumulative across rounds (R169). -/
theorem rotl_rotl (h : Bits) (m n : Nat) : rotl (rotl h m) n = rotl h (m + n) := by
  unfold rotl
  apply List.map_congr_left
  intro i _
  have := rotl_getD (h := h) (n := m) (Nat.mod_lt (i + n) (by decide : 28 > 0))
  rw [rotl] at this
  rw [this]
  congr 1
  omega

/-- Everything `permute` can answer (R130, R131). -/
theorem permute_ok_iff {table : List Nat} {v w : Bits} :
    permute table v = .ok w ↔
      (∀ t ∈ table, t < v.length) ∧ w = table.map fun t => v.getD t false := by
  unfold permute
  split
  · rename_i h
    simp only [List.any_eq_true, decide_eq_true_eq] at h
    obtain ⟨t, ht, hle⟩ := h
    simp only [reduceCtorEq, false_iff, not_and]
    intro hall
    exact absurd (hall t ht) (by omega)
  · rename_i h
    simp only [List.any_eq_true, decide_eq_true_eq, not_exists, not_and, not_le] at h
    simp only [Except.ok.injEq]
    exact ⟨fun e => ⟨h, e.symm⟩, fun e => e.2.symm⟩

/-- The one error of `permute`, and when it is raised (R131). -/
theorem permute_error_iff {table : List Nat} {v : Bits} {e : Err} :
    permute table v = .error e ↔
      e = .invalidPermutationTable ∧ ∃ t ∈ table, v.length ≤ t := by
  unfold permute
  split
  · rename_i h
    simp only [List.any_eq_true, decide_eq_true_eq] at h
    simp only [Except.error.injEq]
    exact ⟨fun he => ⟨he.symm, h⟩, fun he => he.1.symm⟩
  · rename_i h
    simp only [List.any_eq_true, decide_eq_true_eq] at h
    simp only [reduceCtorEq, false_iff, not_and]
    exact fun _ => h

theorem permute_length {table : List Nat} {v w : Bits} (h : permute table v = .ok w) :
    w.length = table.length := by
  rw [(permute_ok_iff.1 h).2, List.length_map]

/-- Every entry of KRED is below 64 (R165). -/
theorem kred_lt {t : Nat} (h : t ∈ kred) : t < 64 := by
  simp only [kred, List.mem_map, List.mem_range] at h
  obtain ⟨n, hn, rfl⟩ := h
  omega

/-- `blocksToHex` of a 64-element block gives 16 characters (R108, R110). -/
theorem blocksToHex_ok {b : Bits} {t : List Byte} (h : blocksToHex b = .ok t) :
    b.length = 64 ∧ t.length = 16 := by
  unfold blocksToHex at h
  split at h
  · cases h
  · rename_i hb
    cases h
    exact ⟨not_not.1 hb, by simp [List.flatMap]⟩

/-- Every character of a hex group is the code of a hex digit (R109). -/
theorem hex4_mem {x : Nat} {b : Byte} (h : b ∈ hex4 x) : ∃ d, d ≤ 15 ∧ b = hexdigit d := by
  simp only [hex4, List.mem_cons, List.not_mem_nil, or_false] at h
  rcases h with rfl | rfl | rfl | rfl <;> exact ⟨_, by omega, rfl⟩

theorem blocksToHex_mem {b : Bits} {t : List Byte} (h : blocksToHex b = .ok t) {x : Byte}
    (hx : x ∈ t) : ∃ d, d ≤ 15 ∧ x = hexdigit d := by
  unfold blocksToHex at h
  split at h
  · cases h
  · cases h
    simp only [List.mem_flatMap] at hx
    obtain ⟨_, _, hx⟩ := hx
    exact hex4_mem hx

end Sys2Proof.Machine
end

