-- ==== Sys2Proof/Laws/Memory.lean ====
section
/-! SUPPORT. Laws of a memory: a read after a write, and that writing keeps the canonical form. -/

namespace Sys2Proof.Machine

variable {α : Type}

@[simp] theorem memRead_nil (a : Nat) : memRead ([] : Mem α) a = none := rfl

theorem memRead_cons (k : Nat) (x : α) (m : Mem α) (a : Nat) :
    memRead ((k, x) :: m) a = if k = a then some x else memRead m a := rfl

/-- Everything a write does, seen by a read. -/
theorem memRead_memWrite (m : Mem α) (a b : Nat) (x : α) :
    memRead (memWrite m a x) b = if b = a then some x else memRead m b := by
  induction m with
  | nil => simp [memWrite, memRead, eq_comm]
  | cons c m ih =>
    obtain ⟨k, y⟩ := c
    unfold memWrite
    by_cases h1 : a < k
    · rw [if_pos h1, memRead_cons a x]
      by_cases h : a = b
      · rw [if_pos h, if_pos h.symm]
      · rw [if_neg h, if_neg (Ne.symm h)]
    · rw [if_neg h1]
      by_cases h2 : a = k
      · subst h2
        rw [if_pos rfl, memRead_cons a x, memRead_cons a y]
        by_cases h : a = b
        · rw [if_pos h, if_pos h.symm]
        · rw [if_neg h, if_neg (Ne.symm h), if_neg h]
      · rw [if_neg h2, memRead_cons k y, memRead_cons k y, ih]
        by_cases h : k = b
        · rw [if_pos h, if_neg (fun e => h2 (e.symm.trans h.symm)), if_pos h]
        · rw [if_neg h, if_neg h]

@[simp] theorem memRead_memWrite_same (m : Mem α) (a : Nat) (x : α) :
    memRead (memWrite m a x) a = some x := by simp [memRead_memWrite]

theorem memRead_memWrite_other (m : Mem α) {a b : Nat} (x : α) (h : b ≠ a) :
    memRead (memWrite m a x) b = memRead m b := by simp [memRead_memWrite, h]

/-- Everything a write of consecutive cells does, seen by a read. -/
theorem memRead_memWriteAll (m : Mem α) (a b : Nat) (xs : List α) :
    memRead (memWriteAll m a xs) b =
      if a ≤ b ∧ b < a + xs.length then xs[b - a]? else memRead m b := by
  induction xs generalizing m a with
  | nil => simp [memWriteAll]
  | cons x xs ih =>
    rw [memWriteAll, ih, List.length_cons]
    by_cases hb : b = a
    · subst hb
      simp
    · by_cases h : a + 1 ≤ b ∧ b < a + 1 + xs.length
      · rw [if_pos h, if_pos (by omega), show b - a = (b - (a + 1)) + 1 by omega]
        rfl
      · rw [if_neg h, if_neg (by omega), memRead_memWrite_other _ _ hb]

/-- Every cell a write leaves was there before, or is the cell written. -/
theorem mem_memWrite {m : Mem α} {a : Nat} {x : α} {c : Nat × α} (h : c ∈ memWrite m a x) :
    c = (a, x) ∨ c ∈ m := by
  induction m with
  | nil => simpa [memWrite] using h
  | cons d m ih =>
    unfold memWrite at h
    split_ifs at h <;> simp only [List.mem_cons] at h ⊢
    · tauto
    · tauto
    · rcases h with h | h
      · tauto
      · have := ih h; tauto

theorem mem_memWriteAll {m : Mem α} {a : Nat} {xs : List α} {c : Nat × α}
    (h : c ∈ memWriteAll m a xs) :
    c ∈ m ∨ (a ≤ c.1 ∧ c.1 < a + xs.length ∧ c.2 ∈ xs) := by
  induction xs generalizing m a with
  | nil => exact .inl h
  | cons x xs ih =>
    rcases ih h with h | ⟨h1, h2, h3⟩
    · rcases mem_memWrite h with rfl | h
      · exact .inr ⟨le_refl _, by simp, List.mem_cons_self⟩
      · exact .inl h
    · exact .inr ⟨by omega, by simp only [List.length_cons]; omega, List.mem_cons_of_mem _ h3⟩

@[simp] theorem memWf_nil : memWf ([] : Mem α) = true := by simp [memWf]

/-- A write keeps the canonical form. -/
theorem memWf_memWrite {m : Mem α} (h : memWf m = true) (a : Nat) (x : α) :
    memWf (memWrite m a x) = true := by
  simp only [memWf, decide_eq_true_eq] at h ⊢
  induction m with
  | nil => simp [memWrite]
  | cons c m ih =>
    rw [List.pairwise_cons] at h
    unfold memWrite
    split_ifs with h1 h2
    · refine List.pairwise_cons.2 ⟨fun d hd => ?_, List.pairwise_cons.2 h⟩
      rcases List.mem_cons.1 hd with rfl | hd
      · exact h1
      · exact h1.trans (h.1 d hd)
    · exact List.pairwise_cons.2 ⟨fun d hd => h2 ▸ h.1 d hd, h.2⟩
    · refine List.pairwise_cons.2 ⟨fun d hd => ?_, ih h.2⟩
      rcases mem_memWrite hd with rfl | hd
      · simp only; omega
      · exact h.1 d hd

theorem memWf_memWriteAll {m : Mem α} (h : memWf m = true) (a : Nat) (xs : List α) :
    memWf (memWriteAll m a xs) = true := by
  induction xs generalizing m a with
  | nil => exact h
  | cons x xs ih => exact ih (memWf_memWrite h a x) (a + 1)

end Sys2Proof.Machine
end

