-- ==== Sys2Proof/Laws/State.lean ====
section
/-! SUPPORT. What each named update of the state does to each field, one lemma per field per update,
and the BUSY flag that each leaves. -/

namespace Sys2Proof.Machine

variable (s : State)

/-! ### State.setV -/

@[simp] theorem State.setV_params (n : VIndex) (x : VReg) : (s.setV n x).params = s.params := rfl
@[simp] theorem State.setV_v (n : VIndex) (x : VReg) : (s.setV n x).v = s.v.set n x := rfl
@[simp] theorem State.setV_rk (n : VIndex) (x : VReg) : (s.setV n x).rk = s.rk := rfl
@[simp] theorem State.setV_l (n : VIndex) (x : VReg) : (s.setV n x).l = s.l := rfl
@[simp] theorem State.setV_r (n : VIndex) (x : VReg) : (s.setV n x).r = s.r := rfl
@[simp] theorem State.setV_round (n : VIndex) (x : VReg) : (s.setV n x).round = s.round := rfl
@[simp] theorem State.setV_fact (n : VIndex) (x : VReg) : (s.setV n x).fact = s.fact := rfl
@[simp] theorem State.setV_kstate (n : VIndex) (x : VReg) : (s.setV n x).kstate = s.kstate := rfl
@[simp] theorem State.setV_kbm (n : VIndex) (x : VReg) : (s.setV n x).kbm = s.kbm := rfl
@[simp] theorem State.setV_nkb (n : VIndex) (x : VReg) : (s.setV n x).nkb = s.nkb := rfl
@[simp] theorem State.setV_kpbuf (n : VIndex) (x : VReg) : (s.setV n x).kpbuf = s.kpbuf := rfl
@[simp] theorem State.setV_kpn (n : VIndex) (x : VReg) : (s.setV n x).kpn = s.kpn := rfl
@[simp] theorem State.setV_dpbuf (n : VIndex) (x : VReg) : (s.setV n x).dpbuf = s.dpbuf := rfl
@[simp] theorem State.setV_dpn (n : VIndex) (x : VReg) : (s.setV n x).dpn = s.dpn := rfl
@[simp] theorem State.setV_ocm (n : VIndex) (x : VReg) : (s.setV n x).ocm = s.ocm := rfl
@[simp] theorem State.setV_ocnt (n : VIndex) (x : VReg) : (s.setV n x).ocnt = s.ocnt := rfl
@[simp] theorem State.setV_seq (n : VIndex) (x : VReg) : (s.setV n x).seq = s.seq := rfl
@[simp] theorem State.setV_done (n : VIndex) (x : VReg) : (s.setV n x).done = s.done := rfl
@[simp] theorem State.setV_wbusy (n : VIndex) (x : VReg) : (s.setV n x).wbusy = s.wbusy := rfl
@[simp] theorem State.setV_rej (n : VIndex) (x : VReg) : (s.setV n x).rej = s.rej := rfl
@[simp] theorem State.setV_err (n : VIndex) (x : VReg) : (s.setV n x).err = s.err := rfl
@[simp] theorem State.setV_errop (n : VIndex) (x : VReg) : (s.setV n x).errop = s.errop := rfl
@[simp] theorem State.setV_ie (n : VIndex) (x : VReg) : (s.setV n x).ie = s.ie := rfl
@[simp] theorem State.setV_tick (n : VIndex) (x : VReg) : (s.setV n x).tick = s.tick := rfl
@[simp] theorem State.setV_host (n : VIndex) (x : VReg) : (s.setV n x).host = s.host := rfl
@[simp] theorem State.setV_readData (n : VIndex) (x : VReg) : (s.setV n x).readData = s.readData := rfl
@[simp] theorem State.setV_busy (n : VIndex) (x : VReg) : (s.setV n x).busy = s.busy := rfl

/-! ### setv -/

@[simp] theorem setv_params (n : VIndex) (x : Bits) : (setv n x s).params = s.params := rfl
@[simp] theorem setv_v (n : VIndex) (x : Bits) : (setv n x s).v = s.v.set n (regOfBits x) := rfl
@[simp] theorem setv_rk (n : VIndex) (x : Bits) : (setv n x s).rk = s.rk := rfl
@[simp] theorem setv_l (n : VIndex) (x : Bits) : (setv n x s).l = s.l := rfl
@[simp] theorem setv_r (n : VIndex) (x : Bits) : (setv n x s).r = s.r := rfl
@[simp] theorem setv_round (n : VIndex) (x : Bits) : (setv n x s).round = s.round := rfl
@[simp] theorem setv_fact (n : VIndex) (x : Bits) : (setv n x s).fact = s.fact := rfl
@[simp] theorem setv_kstate (n : VIndex) (x : Bits) : (setv n x s).kstate = s.kstate := rfl
@[simp] theorem setv_kbm (n : VIndex) (x : Bits) : (setv n x s).kbm = s.kbm := rfl
@[simp] theorem setv_nkb (n : VIndex) (x : Bits) : (setv n x s).nkb = s.nkb := rfl
@[simp] theorem setv_kpbuf (n : VIndex) (x : Bits) : (setv n x s).kpbuf = s.kpbuf := rfl
@[simp] theorem setv_kpn (n : VIndex) (x : Bits) : (setv n x s).kpn = s.kpn := rfl
@[simp] theorem setv_dpbuf (n : VIndex) (x : Bits) : (setv n x s).dpbuf = s.dpbuf := rfl
@[simp] theorem setv_dpn (n : VIndex) (x : Bits) : (setv n x s).dpn = s.dpn := rfl
@[simp] theorem setv_ocm (n : VIndex) (x : Bits) : (setv n x s).ocm = s.ocm := rfl
@[simp] theorem setv_ocnt (n : VIndex) (x : Bits) : (setv n x s).ocnt = s.ocnt := rfl
@[simp] theorem setv_seq (n : VIndex) (x : Bits) : (setv n x s).seq = s.seq := rfl
@[simp] theorem setv_done (n : VIndex) (x : Bits) : (setv n x s).done = s.done := rfl
@[simp] theorem setv_wbusy (n : VIndex) (x : Bits) : (setv n x s).wbusy = s.wbusy := rfl
@[simp] theorem setv_rej (n : VIndex) (x : Bits) : (setv n x s).rej = s.rej := rfl
@[simp] theorem setv_err (n : VIndex) (x : Bits) : (setv n x s).err = s.err := rfl
@[simp] theorem setv_errop (n : VIndex) (x : Bits) : (setv n x s).errop = s.errop := rfl
@[simp] theorem setv_ie (n : VIndex) (x : Bits) : (setv n x s).ie = s.ie := rfl
@[simp] theorem setv_tick (n : VIndex) (x : Bits) : (setv n x s).tick = s.tick := rfl
@[simp] theorem setv_host (n : VIndex) (x : Bits) : (setv n x s).host = s.host := rfl
@[simp] theorem setv_readData (n : VIndex) (x : Bits) : (setv n x s).readData = s.readData := rfl
@[simp] theorem setv_busy (n : VIndex) (x : Bits) : (setv n x s).busy = s.busy := rfl

/-! ### takeError -/

@[simp] theorem takeError_params (e : Err) (op : Byte) : (takeError e op s).params = s.params := rfl
@[simp] theorem takeError_v (e : Err) (op : Byte) : (takeError e op s).v = s.v := rfl
@[simp] theorem takeError_rk (e : Err) (op : Byte) : (takeError e op s).rk = s.rk := rfl
@[simp] theorem takeError_l (e : Err) (op : Byte) : (takeError e op s).l = s.l := rfl
@[simp] theorem takeError_r (e : Err) (op : Byte) : (takeError e op s).r = s.r := rfl
@[simp] theorem takeError_round (e : Err) (op : Byte) : (takeError e op s).round = s.round := rfl
@[simp] theorem takeError_fact (e : Err) (op : Byte) : (takeError e op s).fact = s.fact := rfl
@[simp] theorem takeError_kstate (e : Err) (op : Byte) : (takeError e op s).kstate = s.kstate := rfl
@[simp] theorem takeError_kbm (e : Err) (op : Byte) : (takeError e op s).kbm = s.kbm := rfl
@[simp] theorem takeError_nkb (e : Err) (op : Byte) : (takeError e op s).nkb = s.nkb := rfl
@[simp] theorem takeError_kpbuf (e : Err) (op : Byte) : (takeError e op s).kpbuf = s.kpbuf := rfl
@[simp] theorem takeError_kpn (e : Err) (op : Byte) : (takeError e op s).kpn = s.kpn := rfl
@[simp] theorem takeError_dpbuf (e : Err) (op : Byte) : (takeError e op s).dpbuf = s.dpbuf := rfl
@[simp] theorem takeError_dpn (e : Err) (op : Byte) : (takeError e op s).dpn = s.dpn := rfl
@[simp] theorem takeError_ocm (e : Err) (op : Byte) : (takeError e op s).ocm = s.ocm := rfl
@[simp] theorem takeError_ocnt (e : Err) (op : Byte) : (takeError e op s).ocnt = s.ocnt := rfl
@[simp] theorem takeError_seq (e : Err) (op : Byte) : (takeError e op s).seq = s.seq := rfl
@[simp] theorem takeError_done (e : Err) (op : Byte) : (takeError e op s).done = s.done := rfl
@[simp] theorem takeError_wbusy (e : Err) (op : Byte) : (takeError e op s).wbusy = s.wbusy := rfl
@[simp] theorem takeError_rej (e : Err) (op : Byte) : (takeError e op s).rej = s.rej := rfl
@[simp] theorem takeError_err (e : Err) (op : Byte) : (takeError e op s).err = e.code := rfl
@[simp] theorem takeError_errop (e : Err) (op : Byte) : (takeError e op s).errop = op := rfl
@[simp] theorem takeError_ie (e : Err) (op : Byte) : (takeError e op s).ie = s.ie := rfl
@[simp] theorem takeError_tick (e : Err) (op : Byte) : (takeError e op s).tick = s.tick := rfl
@[simp] theorem takeError_host (e : Err) (op : Byte) : (takeError e op s).host = s.host := rfl
@[simp] theorem takeError_readData (e : Err) (op : Byte) : (takeError e op s).readData = s.readData := rfl
@[simp] theorem takeError_reg (e : Err) (op : Byte) (n : VIndex) : (takeError e op s).reg n = s.reg n := rfl
@[simp] theorem takeError_busy (e : Err) (op : Byte) : (takeError e op s).busy = s.busy := rfl

/-! ### clearError -/

@[simp] theorem clearError_params : (clearError s).params = s.params := rfl
@[simp] theorem clearError_v : (clearError s).v = s.v := rfl
@[simp] theorem clearError_rk : (clearError s).rk = s.rk := rfl
@[simp] theorem clearError_l : (clearError s).l = s.l := rfl
@[simp] theorem clearError_r : (clearError s).r = s.r := rfl
@[simp] theorem clearError_round : (clearError s).round = s.round := rfl
@[simp] theorem clearError_fact : (clearError s).fact = s.fact := rfl
@[simp] theorem clearError_kstate : (clearError s).kstate = s.kstate := rfl
@[simp] theorem clearError_kbm : (clearError s).kbm = s.kbm := rfl
@[simp] theorem clearError_nkb : (clearError s).nkb = s.nkb := rfl
@[simp] theorem clearError_kpbuf : (clearError s).kpbuf = s.kpbuf := rfl
@[simp] theorem clearError_kpn : (clearError s).kpn = s.kpn := rfl
@[simp] theorem clearError_dpbuf : (clearError s).dpbuf = s.dpbuf := rfl
@[simp] theorem clearError_dpn : (clearError s).dpn = s.dpn := rfl
@[simp] theorem clearError_ocm : (clearError s).ocm = s.ocm := rfl
@[simp] theorem clearError_ocnt : (clearError s).ocnt = s.ocnt := rfl
@[simp] theorem clearError_seq : (clearError s).seq = s.seq := rfl
@[simp] theorem clearError_done : (clearError s).done = s.done := rfl
@[simp] theorem clearError_wbusy : (clearError s).wbusy = s.wbusy := rfl
@[simp] theorem clearError_rej : (clearError s).rej = s.rej := rfl
@[simp] theorem clearError_err : (clearError s).err = 0 := rfl
@[simp] theorem clearError_errop : (clearError s).errop = 0 := rfl
@[simp] theorem clearError_ie : (clearError s).ie = s.ie := rfl
@[simp] theorem clearError_tick : (clearError s).tick = s.tick := rfl
@[simp] theorem clearError_host : (clearError s).host = s.host := rfl
@[simp] theorem clearError_readData : (clearError s).readData = s.readData := rfl
@[simp] theorem clearError_reg (n : VIndex) : (clearError s).reg n = s.reg n := rfl
@[simp] theorem clearError_busy : (clearError s).busy = s.busy := rfl

/-! ### reject -/

@[simp] theorem reject_params : (reject s).params = s.params := rfl
@[simp] theorem reject_v : (reject s).v = s.v := rfl
@[simp] theorem reject_rk : (reject s).rk = s.rk := rfl
@[simp] theorem reject_l : (reject s).l = s.l := rfl
@[simp] theorem reject_r : (reject s).r = s.r := rfl
@[simp] theorem reject_round : (reject s).round = s.round := rfl
@[simp] theorem reject_fact : (reject s).fact = s.fact := rfl
@[simp] theorem reject_kstate : (reject s).kstate = s.kstate := rfl
@[simp] theorem reject_kbm : (reject s).kbm = s.kbm := rfl
@[simp] theorem reject_nkb : (reject s).nkb = s.nkb := rfl
@[simp] theorem reject_kpbuf : (reject s).kpbuf = s.kpbuf := rfl
@[simp] theorem reject_kpn : (reject s).kpn = s.kpn := rfl
@[simp] theorem reject_dpbuf : (reject s).dpbuf = s.dpbuf := rfl
@[simp] theorem reject_dpn : (reject s).dpn = s.dpn := rfl
@[simp] theorem reject_ocm : (reject s).ocm = s.ocm := rfl
@[simp] theorem reject_ocnt : (reject s).ocnt = s.ocnt := rfl
@[simp] theorem reject_seq : (reject s).seq = s.seq := rfl
@[simp] theorem reject_done : (reject s).done = s.done := rfl
@[simp] theorem reject_wbusy : (reject s).wbusy = s.wbusy := rfl
@[simp] theorem reject_rej : (reject s).rej = true := rfl
@[simp] theorem reject_err : (reject s).err = s.err := rfl
@[simp] theorem reject_errop : (reject s).errop = s.errop := rfl
@[simp] theorem reject_ie : (reject s).ie = s.ie := rfl
@[simp] theorem reject_tick : (reject s).tick = s.tick := rfl
@[simp] theorem reject_host : (reject s).host = s.host := rfl
@[simp] theorem reject_readData : (reject s).readData = s.readData := rfl
@[simp] theorem reject_reg (n : VIndex) : (reject s).reg n = s.reg n := rfl
@[simp] theorem reject_busy : (reject s).busy = s.busy := rfl

/-! ### complete -/

@[simp] theorem complete_params : (complete s).params = s.params := rfl
@[simp] theorem complete_v : (complete s).v = s.v := rfl
@[simp] theorem complete_rk : (complete s).rk = s.rk := rfl
@[simp] theorem complete_l : (complete s).l = s.l := rfl
@[simp] theorem complete_r : (complete s).r = s.r := rfl
@[simp] theorem complete_round : (complete s).round = s.round := rfl
@[simp] theorem complete_fact : (complete s).fact = s.fact := rfl
@[simp] theorem complete_kstate : (complete s).kstate = s.kstate := rfl
@[simp] theorem complete_kbm : (complete s).kbm = s.kbm := rfl
@[simp] theorem complete_nkb : (complete s).nkb = s.nkb := rfl
@[simp] theorem complete_kpbuf : (complete s).kpbuf = s.kpbuf := rfl
@[simp] theorem complete_kpn : (complete s).kpn = s.kpn := rfl
@[simp] theorem complete_dpbuf : (complete s).dpbuf = s.dpbuf := rfl
@[simp] theorem complete_dpn : (complete s).dpn = s.dpn := rfl
@[simp] theorem complete_ocm : (complete s).ocm = s.ocm := rfl
@[simp] theorem complete_ocnt : (complete s).ocnt = s.ocnt := rfl
@[simp] theorem complete_seq : (complete s).seq = .idle := rfl
@[simp] theorem complete_done : (complete s).done = true := rfl
@[simp] theorem complete_wbusy : (complete s).wbusy = s.wbusy := rfl
@[simp] theorem complete_rej : (complete s).rej = s.rej := rfl
@[simp] theorem complete_err : (complete s).err = s.err := rfl
@[simp] theorem complete_errop : (complete s).errop = s.errop := rfl
@[simp] theorem complete_ie : (complete s).ie = s.ie := rfl
@[simp] theorem complete_tick : (complete s).tick = s.tick + 1 := rfl
@[simp] theorem complete_host : (complete s).host = s.host := rfl
@[simp] theorem complete_readData : (complete s).readData = s.readData := rfl
@[simp] theorem complete_reg (n : VIndex) : (complete s).reg n = s.reg n := rfl
@[simp] theorem complete_busy : (complete s).busy = false := rfl

/-! ### kbmWrite -/

@[simp] theorem kbmWrite_params (k : Nat) (x : Word) : (kbmWrite k x s).params = s.params := rfl
@[simp] theorem kbmWrite_v (k : Nat) (x : Word) : (kbmWrite k x s).v = s.v := rfl
@[simp] theorem kbmWrite_rk (k : Nat) (x : Word) : (kbmWrite k x s).rk = s.rk := rfl
@[simp] theorem kbmWrite_l (k : Nat) (x : Word) : (kbmWrite k x s).l = s.l := rfl
@[simp] theorem kbmWrite_r (k : Nat) (x : Word) : (kbmWrite k x s).r = s.r := rfl
@[simp] theorem kbmWrite_round (k : Nat) (x : Word) : (kbmWrite k x s).round = s.round := rfl
@[simp] theorem kbmWrite_fact (k : Nat) (x : Word) : (kbmWrite k x s).fact = s.fact := rfl
@[simp] theorem kbmWrite_kstate (k : Nat) (x : Word) : (kbmWrite k x s).kstate = s.kstate := rfl
@[simp] theorem kbmWrite_kbm (k : Nat) (x : Word) : (kbmWrite k x s).kbm = memWrite s.kbm k x := rfl
@[simp] theorem kbmWrite_nkb (k : Nat) (x : Word) : (kbmWrite k x s).nkb = s.nkb := rfl
@[simp] theorem kbmWrite_kpbuf (k : Nat) (x : Word) : (kbmWrite k x s).kpbuf = s.kpbuf := rfl
@[simp] theorem kbmWrite_kpn (k : Nat) (x : Word) : (kbmWrite k x s).kpn = s.kpn := rfl
@[simp] theorem kbmWrite_dpbuf (k : Nat) (x : Word) : (kbmWrite k x s).dpbuf = s.dpbuf := rfl
@[simp] theorem kbmWrite_dpn (k : Nat) (x : Word) : (kbmWrite k x s).dpn = s.dpn := rfl
@[simp] theorem kbmWrite_ocm (k : Nat) (x : Word) : (kbmWrite k x s).ocm = s.ocm := rfl
@[simp] theorem kbmWrite_ocnt (k : Nat) (x : Word) : (kbmWrite k x s).ocnt = s.ocnt := rfl
@[simp] theorem kbmWrite_seq (k : Nat) (x : Word) : (kbmWrite k x s).seq = s.seq := rfl
@[simp] theorem kbmWrite_done (k : Nat) (x : Word) : (kbmWrite k x s).done = s.done := rfl
@[simp] theorem kbmWrite_wbusy (k : Nat) (x : Word) : (kbmWrite k x s).wbusy = s.wbusy := rfl
@[simp] theorem kbmWrite_rej (k : Nat) (x : Word) : (kbmWrite k x s).rej = s.rej := rfl
@[simp] theorem kbmWrite_err (k : Nat) (x : Word) : (kbmWrite k x s).err = s.err := rfl
@[simp] theorem kbmWrite_errop (k : Nat) (x : Word) : (kbmWrite k x s).errop = s.errop := rfl
@[simp] theorem kbmWrite_ie (k : Nat) (x : Word) : (kbmWrite k x s).ie = s.ie := rfl
@[simp] theorem kbmWrite_tick (k : Nat) (x : Word) : (kbmWrite k x s).tick = s.tick := rfl
@[simp] theorem kbmWrite_host (k : Nat) (x : Word) : (kbmWrite k x s).host = s.host := rfl
@[simp] theorem kbmWrite_readData (k : Nat) (x : Word) : (kbmWrite k x s).readData = s.readData := rfl
@[simp] theorem kbmWrite_reg (k : Nat) (x : Word) (n : VIndex) : (kbmWrite k x s).reg n = s.reg n := rfl
@[simp] theorem kbmWrite_busy (k : Nat) (x : Word) : (kbmWrite k x s).busy = s.busy := rfl

/-! ### appendOutput -/

@[simp] theorem appendOutput_params (t : List Byte) : (appendOutput t s).params = s.params := rfl
@[simp] theorem appendOutput_v (t : List Byte) : (appendOutput t s).v = s.v := rfl
@[simp] theorem appendOutput_rk (t : List Byte) : (appendOutput t s).rk = s.rk := rfl
@[simp] theorem appendOutput_l (t : List Byte) : (appendOutput t s).l = s.l := rfl
@[simp] theorem appendOutput_r (t : List Byte) : (appendOutput t s).r = s.r := rfl
@[simp] theorem appendOutput_round (t : List Byte) : (appendOutput t s).round = s.round := rfl
@[simp] theorem appendOutput_fact (t : List Byte) : (appendOutput t s).fact = s.fact := rfl
@[simp] theorem appendOutput_kstate (t : List Byte) : (appendOutput t s).kstate = s.kstate := rfl
@[simp] theorem appendOutput_kbm (t : List Byte) : (appendOutput t s).kbm = s.kbm := rfl
@[simp] theorem appendOutput_nkb (t : List Byte) : (appendOutput t s).nkb = s.nkb := rfl
@[simp] theorem appendOutput_kpbuf (t : List Byte) : (appendOutput t s).kpbuf = s.kpbuf := rfl
@[simp] theorem appendOutput_kpn (t : List Byte) : (appendOutput t s).kpn = s.kpn := rfl
@[simp] theorem appendOutput_dpbuf (t : List Byte) : (appendOutput t s).dpbuf = s.dpbuf := rfl
@[simp] theorem appendOutput_dpn (t : List Byte) : (appendOutput t s).dpn = s.dpn := rfl
@[simp] theorem appendOutput_ocm (t : List Byte) : (appendOutput t s).ocm = memWriteAll s.ocm s.ocnt t := rfl
@[simp] theorem appendOutput_ocnt (t : List Byte) : (appendOutput t s).ocnt = s.ocnt + 16 := rfl
@[simp] theorem appendOutput_seq (t : List Byte) : (appendOutput t s).seq = s.seq := rfl
@[simp] theorem appendOutput_done (t : List Byte) : (appendOutput t s).done = s.done := rfl
@[simp] theorem appendOutput_wbusy (t : List Byte) : (appendOutput t s).wbusy = s.wbusy := rfl
@[simp] theorem appendOutput_rej (t : List Byte) : (appendOutput t s).rej = s.rej := rfl
@[simp] theorem appendOutput_err (t : List Byte) : (appendOutput t s).err = s.err := rfl
@[simp] theorem appendOutput_errop (t : List Byte) : (appendOutput t s).errop = s.errop := rfl
@[simp] theorem appendOutput_ie (t : List Byte) : (appendOutput t s).ie = s.ie := rfl
@[simp] theorem appendOutput_tick (t : List Byte) : (appendOutput t s).tick = s.tick := rfl
@[simp] theorem appendOutput_host (t : List Byte) : (appendOutput t s).host = s.host := rfl
@[simp] theorem appendOutput_readData (t : List Byte) : (appendOutput t s).readData = s.readData := rfl
@[simp] theorem appendOutput_reg (t : List Byte) (n : VIndex) : (appendOutput t s).reg n = s.reg n := rfl
@[simp] theorem appendOutput_busy (t : List Byte) : (appendOutput t s).busy = s.busy := rfl

/-! ### abortRule -/

@[simp] theorem abortRule_params : (abortRule s).params = s.params := rfl
@[simp] theorem abortRule_v : (abortRule s).v = s.v := rfl
@[simp] theorem abortRule_rk : (abortRule s).rk = s.rk := rfl
@[simp] theorem abortRule_l : (abortRule s).l = s.l := rfl
@[simp] theorem abortRule_r : (abortRule s).r = s.r := rfl
@[simp] theorem abortRule_round : (abortRule s).round = 0 := rfl
@[simp] theorem abortRule_fact : (abortRule s).fact = false := rfl
@[simp] theorem abortRule_kstate : (abortRule s).kstate = s.kstate := rfl
@[simp] theorem abortRule_kbm : (abortRule s).kbm = s.kbm := rfl
@[simp] theorem abortRule_nkb : (abortRule s).nkb = 0 := rfl
@[simp] theorem abortRule_kpbuf : (abortRule s).kpbuf = 0 := rfl
@[simp] theorem abortRule_kpn : (abortRule s).kpn = 0 := rfl
@[simp] theorem abortRule_dpbuf : (abortRule s).dpbuf = 0 := rfl
@[simp] theorem abortRule_dpn : (abortRule s).dpn = 0 := rfl
@[simp] theorem abortRule_ocm : (abortRule s).ocm = s.ocm := rfl
@[simp] theorem abortRule_ocnt : (abortRule s).ocnt = 0 := rfl
@[simp] theorem abortRule_seq : (abortRule s).seq = s.seq := rfl
@[simp] theorem abortRule_done : (abortRule s).done = s.done := rfl
@[simp] theorem abortRule_wbusy : (abortRule s).wbusy = s.wbusy := rfl
@[simp] theorem abortRule_rej : (abortRule s).rej = s.rej := rfl
@[simp] theorem abortRule_err : (abortRule s).err = 0 := rfl
@[simp] theorem abortRule_errop : (abortRule s).errop = 0 := rfl
@[simp] theorem abortRule_ie : (abortRule s).ie = s.ie := rfl
@[simp] theorem abortRule_tick : (abortRule s).tick = s.tick := rfl
@[simp] theorem abortRule_host : (abortRule s).host = s.host := rfl
@[simp] theorem abortRule_readData : (abortRule s).readData = s.readData := rfl
@[simp] theorem abortRule_reg (n : VIndex) : (abortRule s).reg n = s.reg n := rfl
@[simp] theorem abortRule_busy : (abortRule s).busy = s.busy := rfl

/-! ### clearStatusBits -/

@[simp] theorem clearStatusBits_params (x : Word) : (clearStatusBits x s).params = s.params := rfl
@[simp] theorem clearStatusBits_v (x : Word) : (clearStatusBits x s).v = s.v := rfl
@[simp] theorem clearStatusBits_rk (x : Word) : (clearStatusBits x s).rk = s.rk := rfl
@[simp] theorem clearStatusBits_l (x : Word) : (clearStatusBits x s).l = s.l := rfl
@[simp] theorem clearStatusBits_r (x : Word) : (clearStatusBits x s).r = s.r := rfl
@[simp] theorem clearStatusBits_round (x : Word) : (clearStatusBits x s).round = s.round := rfl
@[simp] theorem clearStatusBits_fact (x : Word) : (clearStatusBits x s).fact = s.fact := rfl
@[simp] theorem clearStatusBits_kstate (x : Word) : (clearStatusBits x s).kstate = s.kstate := rfl
@[simp] theorem clearStatusBits_kbm (x : Word) : (clearStatusBits x s).kbm = s.kbm := rfl
@[simp] theorem clearStatusBits_nkb (x : Word) : (clearStatusBits x s).nkb = s.nkb := rfl
@[simp] theorem clearStatusBits_kpbuf (x : Word) : (clearStatusBits x s).kpbuf = s.kpbuf := rfl
@[simp] theorem clearStatusBits_kpn (x : Word) : (clearStatusBits x s).kpn = s.kpn := rfl
@[simp] theorem clearStatusBits_dpbuf (x : Word) : (clearStatusBits x s).dpbuf = s.dpbuf := rfl
@[simp] theorem clearStatusBits_dpn (x : Word) : (clearStatusBits x s).dpn = s.dpn := rfl
@[simp] theorem clearStatusBits_ocm (x : Word) : (clearStatusBits x s).ocm = s.ocm := rfl
@[simp] theorem clearStatusBits_ocnt (x : Word) : (clearStatusBits x s).ocnt = s.ocnt := rfl
@[simp] theorem clearStatusBits_seq (x : Word) : (clearStatusBits x s).seq = s.seq := rfl
@[simp] theorem clearStatusBits_done (x : Word) : (clearStatusBits x s).done = (s.done && !x.getLsbD 1) := rfl
@[simp] theorem clearStatusBits_wbusy (x : Word) : (clearStatusBits x s).wbusy = (s.wbusy && !x.getLsbD 2) := rfl
@[simp] theorem clearStatusBits_rej (x : Word) : (clearStatusBits x s).rej = (s.rej && !x.getLsbD 3) := rfl
@[simp] theorem clearStatusBits_err (x : Word) : (clearStatusBits x s).err = s.err := rfl
@[simp] theorem clearStatusBits_errop (x : Word) : (clearStatusBits x s).errop = s.errop := rfl
@[simp] theorem clearStatusBits_ie (x : Word) : (clearStatusBits x s).ie = s.ie := rfl
@[simp] theorem clearStatusBits_tick (x : Word) : (clearStatusBits x s).tick = s.tick := rfl
@[simp] theorem clearStatusBits_host (x : Word) : (clearStatusBits x s).host = s.host := rfl
@[simp] theorem clearStatusBits_readData (x : Word) : (clearStatusBits x s).readData = s.readData := rfl
@[simp] theorem clearStatusBits_reg (x : Word) (n : VIndex) : (clearStatusBits x s).reg n = s.reg n := rfl
@[simp] theorem clearStatusBits_busy (x : Word) : (clearStatusBits x s).busy = s.busy := rfl

/-! ### assertReset: the reset state, but for the host's fields, the tables and the step count -/

@[simp] theorem assertReset_params : (assertReset s).params = s.params := rfl
@[simp] theorem assertReset_v : (assertReset s).v = State.reset.v := rfl
@[simp] theorem assertReset_rk : (assertReset s).rk = State.reset.rk := rfl
@[simp] theorem assertReset_l : (assertReset s).l = State.reset.l := rfl
@[simp] theorem assertReset_r : (assertReset s).r = State.reset.r := rfl
@[simp] theorem assertReset_round : (assertReset s).round = State.reset.round := rfl
@[simp] theorem assertReset_fact : (assertReset s).fact = State.reset.fact := rfl
@[simp] theorem assertReset_kstate : (assertReset s).kstate = State.reset.kstate := rfl
@[simp] theorem assertReset_kbm : (assertReset s).kbm = State.reset.kbm := rfl
@[simp] theorem assertReset_nkb : (assertReset s).nkb = State.reset.nkb := rfl
@[simp] theorem assertReset_kpbuf : (assertReset s).kpbuf = State.reset.kpbuf := rfl
@[simp] theorem assertReset_kpn : (assertReset s).kpn = State.reset.kpn := rfl
@[simp] theorem assertReset_dpbuf : (assertReset s).dpbuf = State.reset.dpbuf := rfl
@[simp] theorem assertReset_dpn : (assertReset s).dpn = State.reset.dpn := rfl
@[simp] theorem assertReset_ocm : (assertReset s).ocm = State.reset.ocm := rfl
@[simp] theorem assertReset_ocnt : (assertReset s).ocnt = State.reset.ocnt := rfl
@[simp] theorem assertReset_seq : (assertReset s).seq = State.reset.seq := rfl
@[simp] theorem assertReset_done : (assertReset s).done = State.reset.done := rfl
@[simp] theorem assertReset_wbusy : (assertReset s).wbusy = State.reset.wbusy := rfl
@[simp] theorem assertReset_rej : (assertReset s).rej = State.reset.rej := rfl
@[simp] theorem assertReset_err : (assertReset s).err = State.reset.err := rfl
@[simp] theorem assertReset_errop : (assertReset s).errop = State.reset.errop := rfl
@[simp] theorem assertReset_ie : (assertReset s).ie = State.reset.ie := rfl
@[simp] theorem assertReset_tick : (assertReset s).tick = s.tick := rfl
@[simp] theorem assertReset_host : (assertReset s).host = s.host := rfl
@[simp] theorem assertReset_readData : (assertReset s).readData = s.readData := rfl
@[simp] theorem assertReset_busy : (assertReset s).busy = false := rfl

/-- The register just written reads as it was written. -/
@[simp] theorem setV_reg_same (n : VIndex) (x : VReg) : (s.setV n x).reg n = x := by
  simp [State.reg, State.setV]

/-- Every other vector register keeps its value. -/
theorem setV_reg_other {m n : VIndex} (x : VReg) (h : m ≠ n) : (s.setV n x).reg m = s.reg m := by
  have : n.val ≠ m.val := fun e => h (Fin.ext e.symm)
  simp [State.reg, State.setV, this]

end Sys2Proof.Machine
end

