-- ==== Sys2Proof/Laws/Ops.lean ====
section
/-! SUPPORT. One lemma for each shared operation that says everything it can do: operands, checks,
packing, output, and the command step. -/

namespace Sys2Proof.Machine

/-! ### Sequencing in Except -/

/-- What a sequence that succeeds went through. -/
theorem bind_ok_iff {ε α β : Type} {x : Except ε α} {f : α → Except ε β} {b : β} :
    (x >>= f) = .ok b ↔ ∃ a, x = .ok a ∧ f a = .ok b := by
  cases x <;> simp [bind, Except.bind]

/-- Where a sequence that fails failed. -/
theorem bind_error_iff {ε α β : Type} {x : Except ε α} {f : α → Except ε β} {e : ε} :
    (x >>= f) = .error e ↔ x = .error e ∨ ∃ a, x = .ok a ∧ f a = .error e := by
  cases x <;> simp [bind, Except.bind]

@[simp] theorem ok_bind {ε α β : Type} (a : α) (f : α → Except ε β) :
    ((Except.ok a : Except ε α) >>= f) = f a := rfl

@[simp] theorem error_bind {ε α β : Type} (e : ε) (f : α → Except ε β) :
    ((Except.error e : Except ε α) >>= f) = .error e := rfl

@[simp] theorem pure_eq_ok {ε α : Type} (a : α) : (pure a : Except ε α) = .ok a := rfl

/-! ### Operands -/

/-- The vector that register n denotes when its length field is at most 64 (R25). -/
def denotes (n : VIndex) (s : State) : Bits :=
  bitsN (s.reg n).len.toNat ((s.reg n).pay.toNat % 2 ^ (s.reg n).len.toNat)

@[simp] theorem denotes_length (n : VIndex) (s : State) :
    (denotes n s).length = (s.reg n).len.toNat := by simp [denotes]

/-- Everything `vec` can do (R25, R27). -/
theorem vec_cases (n : VIndex) (s : State) :
    ((s.reg n).len.toNat ≤ 64 ∧ vec n s = .ok (denotes n s)) ∨
    (64 < (s.reg n).len.toNat ∧ vec n s = .error .invalidLength) := by
  unfold vec denotes
  split
  · exact .inr ⟨‹_›, rfl⟩
  · exact .inl ⟨by omega, rfl⟩

theorem vec_ok {n : VIndex} {s : State} (h : (s.reg n).len.toNat ≤ 64) :
    vec n s = .ok (denotes n s) := by
  rcases vec_cases n s with ⟨_, h'⟩ | ⟨h', _⟩
  · exact h'
  · omega

theorem vec_error {n : VIndex} {s : State} (h : 64 < (s.reg n).len.toNat) :
    vec n s = .error .invalidLength := by
  rcases vec_cases n s with ⟨h', _⟩ | ⟨_, h'⟩
  · omega
  · exact h'

/-- Everything `vecOfLength` can do, for a contract of at most 64 elements. -/
theorem vecOfLength_cases {len : Nat} (hl : len ≤ 64) (n : VIndex) (s : State) :
    ((s.reg n).len.toNat = len ∧ vecOfLength len n s = .ok (denotes n s)) ∨
    ((s.reg n).len.toNat ≠ len ∧ vecOfLength len n s = .error .invalidLength) := by
  unfold vecOfLength
  rcases vec_cases n s with ⟨h, he⟩ | ⟨h, he⟩
  · by_cases hlen : (s.reg n).len.toNat = len
    · exact .inl ⟨hlen, by simp [he, hlen]⟩
    · exact .inr ⟨hlen, by simp [he, hlen]⟩
  · exact .inr ⟨by omega, by simp [he]⟩

/-- The value of the vector a register denotes: its payload below its length (R10, R25). -/
theorem val_denotes (n : VIndex) (s : State) :
    val (denotes n s) = (s.reg n).pay.toNat % 2 ^ (s.reg n).len.toNat :=
  val_bitsN (Nat.mod_lt _ (Nat.two_pow_pos _))

/-- A register of length 64 denotes its whole payload. -/
theorem denotes_full {n : VIndex} {s : State} (h : (s.reg n).len.toNat = 64) :
    denotes n s = toBits (s.reg n).pay := by
  have := (s.reg n).pay.isLt
  simp only [denotes, h, toBits, Nat.mod_eq_of_lt this]

/-- Element i of the vector a register denotes is payload bit len-1-i (R25). -/
theorem denotes_getD {n : VIndex} {s : State} {i : Nat} (h : i < (s.reg n).len.toNat) :
    (denotes n s).getD i false = (s.reg n).pay.getLsbD ((s.reg n).len.toNat - 1 - i) := by
  rw [denotes, bitsN_getD h, Nat.testBit_mod_two_pow, BitVec.getLsbD]
  simp only [Bool.and_eq_right_iff_imp, decide_eq_true_eq]
  omega

/-- The register image of a vector keeps its length and its integer (R26). -/
theorem regOfBits_len {x : Bits} (h : x.length ≤ 64) : (regOfBits x).len.toNat = x.length := by
  simp [regOfBits]; omega

theorem regOfBits_pay {x : Bits} (h : x.length ≤ 64) : (regOfBits x).pay.toNat = val x :=
  ofBits_toNat h

/-! ### Checks -/

theorem charOf_cases (imm : BitVec 32) :
    (imm.toNat ≤ 0xFFFF ∧ charOf imm = .ok imm.toNat) ∨
    (0xFFFF < imm.toNat ∧ charOf imm = .error .invalidCharacter) := by
  unfold charOf immValue
  split
  · exact .inr ⟨‹_›, rfl⟩
  · exact .inl ⟨by omega, rfl⟩

theorem checkOutputRoom_cases (s : State) :
    (s.ocnt + 16 ≤ Config.OCM_SIZE ∧ checkOutputRoom s = .ok ()) ∨
    (Config.OCM_SIZE < s.ocnt + 16 ∧ checkOutputRoom s = .error .outputFull) := by
  unfold checkOutputRoom
  split
  · exact .inr ⟨‹_›, rfl⟩
  · exact .inl ⟨by omega, rfl⟩

theorem checkNoData_cases (s : State) :
    (s.dpn = 0 ∧ checkNoData s = .ok ()) ∨ (s.dpn ≠ 0 ∧ checkNoData s = .error .sequenceError) := by
  unfold checkNoData
  split
  · exact .inr ⟨‹_›, rfl⟩
  · exact .inl ⟨not_not.1 ‹_›, rfl⟩

theorem checkNoKey_cases (s : State) :
    (s.kpn = 0 ∧ checkNoKey s = .ok ()) ∨ (s.kpn ≠ 0 ∧ checkNoKey s = .error .sequenceError) := by
  unfold checkNoKey
  split
  · exact .inr ⟨‹_›, rfl⟩
  · exact .inl ⟨not_not.1 ‹_›, rfl⟩

/-- Everything `appendKeyBlock` can do (R204). -/
theorem appendKeyBlock_cases (buf : Word) (s : State) :
    (s.nkb < Config.KB_DEPTH ∧ appendKeyBlock buf s =
      .ok { s with kbm := memWrite s.kbm s.nkb buf, nkb := s.nkb + 1, kpbuf := 0, kpn := 0 }) ∨
    (Config.KB_DEPTH ≤ s.nkb ∧ appendKeyBlock buf s = .error .keyRingFull) := by
  unfold appendKeyBlock
  split
  · exact .inr ⟨‹_›, rfl⟩
  · exact .inl ⟨by omega, rfl⟩

/-! ### The command step -/

/-- Everything a legal command can do (R242, R244, R245): it always completes, rejected, done, or
failed with no effect but the error report. -/
theorem runCommand_cases (m : Mnemonic) (rule : State → Except Err State) (s : State) :
    (s.err ≠ 0 ∧ runsDespiteError m = false ∧
      runCommand m rule s = .next (complete (reject s))) ∨
    ((s.err = 0 ∨ runsDespiteError m = true) ∧
      ((∃ t, rule s = .ok t ∧ runCommand m rule s = .next (complete t)) ∨
       (∃ e, rule s = .error e ∧ runCommand m rule s = .next (complete (takeError e m.code s))))) := by
  unfold runCommand
  by_cases h : s.err ≠ 0 ∧ runsDespiteError m = false
  · exact .inl ⟨h.1, h.2, by rw [if_pos h]⟩
  · refine .inr ⟨?_, ?_⟩
    · by_cases he : s.err = 0
      · exact .inl he
      · exact .inr (by cases hm : runsDespiteError m <;> simp_all)
    · rw [if_neg h]
      cases hr : rule s with
      | ok t => exact .inl ⟨t, rfl, rfl⟩
      | error e => exact .inr ⟨e, rfl, rfl⟩

/-- A command whose rule succeeds, run while no error is recorded. -/
theorem runCommand_ok {m : Mnemonic} {rule : State → Except Err State} {s t : State}
    (he : s.err = 0) (h : rule s = .ok t) : runCommand m rule s = .next (complete t) := by
  simp [runCommand, he, h, settle]

/-- A command whose rule raises an error, run while no error is recorded (R242). -/
theorem runCommand_error {m : Mnemonic} {rule : State → Except Err State} {s : State} {e : Err}
    (he : s.err = 0) (h : rule s = .error e) :
    runCommand m rule s = .next (complete (takeError e m.code s)) := by
  simp [runCommand, he, h, settle]

/-- Everything a word that is not legal can do (R246). -/
theorem runIllegal_cases (w : Word) (s : State) :
    (s.err = 0 ∧ runIllegal w s = .next (complete (takeError .illegalCommand (opField w) s))) ∨
    (s.err ≠ 0 ∧ runIllegal w s = .next (complete (reject s))) := by
  unfold runIllegal
  by_cases h : s.err = 0
  · exact .inl ⟨h, by rw [if_pos h]⟩
  · exact .inr ⟨h, by rw [if_neg h]⟩

end Sys2Proof.Machine
end

