-- ==== Sys2Proof/Laws/Cipher.lean ====
section
/-! SUPPORT. What the cipher datapath answers: the lengths of its vectors, and which fields of the
state each body can change. -/

namespace Sys2Proof.Machine

/-! ### Substitution -/

/-- Everything `sboxCell` can do (R154). -/
theorem sboxCell_cases (box : Vector (Vector (BitVec 4) 16) 4) (row col : Nat) :
    (∃ h : row < 4 ∧ col < 16, sboxCell box row col = .ok ((box.get ⟨row, h.1⟩).get ⟨col, h.2⟩)) ∨
    (¬ (row < 4 ∧ col < 16) ∧ sboxCell box row col = .error .sBoxRange) := by
  unfold sboxCell
  split
  · exact .inl ⟨‹_›, rfl⟩
  · exact .inr ⟨‹_›, rfl⟩

theorem substGroups_length {t : Config.Params} {m w : Bits} {gs : List (Fin 8)}
    (h : substGroups t m gs = .ok w) : w.length = 4 * gs.length := by
  induction gs generalizing w with
  | nil => cases h; rfl
  | cons g gs ih =>
    simp only [substGroups, bind_ok_iff, pure_eq_ok, Except.ok.injEq] at h
    obtain ⟨_, _, _, hr, rfl⟩ := h
    simp [ih hr]
    omega

/-- `subst` gives 32 elements (R155). -/
theorem subst_length {t : Config.Params} {m w : Bits} (h : subst t m = .ok w) : w.length = 32 :=
  substGroups_length h

/-- The one error of substitution (R154). -/
theorem substGroups_error {t : Config.Params} {m : Bits} {gs : List (Fin 8)} {e : Err}
    (h : substGroups t m gs = .error e) : e = .sBoxRange := by
  induction gs with
  | nil => cases h
  | cons g gs ih =>
    simp only [substGroups, bind_error_iff, pure_eq_ok, reduceCtorEq, and_false, exists_false,
      or_false] at h
    rcases h with h | ⟨_, _, h⟩
    · rcases sboxCell_cases t.sbox[g] (sboxRow t.weight (slice m (6 * g.val) 6))
        (sboxColumn t.weight (slice m (6 * g.val) 6)) with ⟨_, h'⟩ | ⟨_, h'⟩
      · rw [h'] at h; cases h
      · rw [h'] at h; cases h; rfl
    · exact ih h

/-! ### Key schedule -/

/-- Everything the rounds of the schedule can answer: one subkey for each rotation amount, each the
compression of the halves rotated by the sum of the amounts so far (R169, R171). -/
theorem scheduleRounds_ok {pc2 : List Nat} {ns : List Nat} {c d : Bits} {x : List Bits × Bits}
    (hc : c = rotl c 0) (hd : d = rotl d 0) (h : scheduleRounds pc2 ns c d = .ok x) :
    x.1.length = ns.length ∧
    (∀ r, r < ns.length → permute pc2 (rotl c (ns.take (r + 1)).sum ++ rotl d (ns.take (r + 1)).sum)
      = .ok (x.1.getD r [])) ∧
    x.2 = rotl c ns.sum ++ rotl d ns.sum := by
  induction ns generalizing c d x with
  | nil =>
    cases h
    exact ⟨rfl, fun r hr => absurd hr (by simp), by simp [← hc, ← hd]⟩
  | cons n ns ih =>
    simp only [scheduleRounds, bind_ok_iff, pure_eq_ok, Except.ok.injEq] at h
    obtain ⟨key, hk, rest, hrest, rfl⟩ := h
    obtain ⟨hlen, hkeys, hst⟩ := ih (by rw [rotl_rotl]; simp) (by rw [rotl_rotl]; simp) hrest
    refine ⟨by simp [hlen], fun r hr => ?_, by simp [hst, rotl_rotl]⟩
    cases r with
    | zero => simpa using hk
    | succ r =>
      have := hkeys r (by simpa using hr)
      simpa [rotl_rotl] using this

/-- A half rotated by 0 is itself. -/
theorem rotl_zero {h : Bits} (hl : h.length = 28) : h = rotl h 0 := by
  apply List.ext_getElem (by rw [hl, rotl_length])
  intro i h1 h2
  have h3 := rotl_getD (h := h) (n := 0) (by omega : i < 28)
  rw [Nat.add_zero, Nat.mod_eq_of_lt (by omega)] at h3
  simpa [List.getD, h1, h2, hl ▸ h1] using h3.symm

/-! ### Which fields the bodies change -/

/-- Everything KSCHED-body can do when it succeeds (R166). -/
theorem kschedBody_ok {kb : Bits} {s t : State} (h : kschedBody kb s = .ok t) :
    ∃ x, keySchedule s.params kb = .ok x ∧ t = { s with rk := rkFile x.1, kstate := ofBits 56 x.2 } := by
  simp only [kschedBody, bind_ok_iff, pure_eq_ok, Except.ok.injEq] at h
  obtain ⟨x, hx, rfl⟩ := h
  exact ⟨x, hx, rfl⟩

/-- Everything FINIT-body can do when it succeeds (R181). -/
theorem finitBody_ok {d : Bits} {s t : State} (h : finitBody d s = .ok t) :
    ∃ p, permute s.params.ip.toList d = .ok p ∧ t = { s with
      l := ofBits 32 (slice p 0 32), r := ofBits 32 (slice p 32 32), round := 0, fact := true } := by
  simp only [finitBody, bind_ok_iff, pure_eq_ok, Except.ok.injEq] at h
  obtain ⟨p, hp, rfl⟩ := h
  exact ⟨p, hp, rfl⟩

/-- Everything FROUND-body can do when it succeeds (R183). -/
theorem froundBody_ok {s t : State} (h : froundBody s = .ok t) :
    ∃ y, roundFunction s.params (toBits s.r) (roundKey s.round s) = .ok y ∧ t = { s with
      l := s.r, r := ofBits 32 (xorBits y (toBits s.l)), round := s.round + 1 } := by
  simp only [froundBody, bind_ok_iff, pure_eq_ok, Except.ok.injEq] at h
  obtain ⟨y, hy, rfl⟩ := h
  exact ⟨y, hy, rfl⟩

/-- The rounds change only L, R and ROUND, and ROUND counts them (R32). -/
theorem froundBodies_ok {n : Nat} {s t : State} (h : froundBodies n s = .ok t) :
    ∃ l r, t = { s with l := l, r := r, round := s.round + n } := by
  induction n generalizing s with
  | zero => cases h; exact ⟨_, _, rfl⟩
  | succ n ih =>
    simp only [froundBodies, bind_ok_iff] at h
    obtain ⟨u, hu, h⟩ := h
    obtain ⟨_, _, rfl⟩ := froundBody_ok hu
    obtain ⟨l, r, rfl⟩ := ih h
    exact ⟨l, r, by simp [Nat.add_assoc, Nat.add_comm 1 n]⟩

/-- Everything FFINAL-body can do when it succeeds (R185). -/
theorem ffinalBody_ok {s : State} {x : Bits × State} (h : ffinalBody s = .ok x) :
    permute s.params.fp.toList (toBits s.r ++ toBits s.l) = .ok x.1 ∧
      x.2 = { s with fact := false } ∧ x.1.length = 64 := by
  simp only [ffinalBody, bind_ok_iff, pure_eq_ok, Except.ok.injEq] at h
  obtain ⟨out, ho, rfl⟩ := h
  exact ⟨ho, rfl, by simpa using permute_length ho⟩

/-- FBLOCK-body changes only RK, KSTATE, L, R, ROUND and FACT, leaves ROUND = 16 and FACT = 0, and
answers 64 elements (R186). -/
theorem fblockBody_ok {d k : Bits} {s : State} {x : Bits × State} (h : fblockBody d k s = .ok x) :
    (∃ rk ks l r, x.2 = { s with
      rk := rk, kstate := ks, l := l, r := r, round := 16, fact := false }) ∧ x.1.length = 64 := by
  simp only [fblockBody, bind_ok_iff] at h
  obtain ⟨s1, h1, s2, h2, s3, h3, h4⟩ := h
  obtain ⟨y, _, rfl⟩ := kschedBody_ok h1
  obtain ⟨p, _, rfl⟩ := finitBody_ok h2
  obtain ⟨l, r, rfl⟩ := froundBodies_ok h3
  obtain ⟨_, hx, hl⟩ := ffinalBody_ok h4
  exact ⟨⟨_, _, l, r, hx⟩, hl⟩

/-- A cascade changes only RK, KSTATE, L, R, ROUND and FACT; it changes none of them for an empty
ring, and leaves ROUND = 16 and FACT = 0 for any other (R200, R208). -/
theorem cascadeFrom_ok {ks : List Nat} {acc : Bits} {s : State} {x : Bits × State}
    (ha : acc.length = 64) (h : cascadeFrom ks acc s = .ok x) :
    (∃ rk kst l r round fact, x.2 = { s with
      rk := rk, kstate := kst, l := l, r := r, round := round, fact := fact } ∧
      ((round = 16 ∧ fact = false) ∨ (round = s.round ∧ fact = s.fact))) ∧ x.1.length = 64 := by
  induction ks generalizing acc s with
  | nil => cases h; exact ⟨⟨_, _, _, _, _, _, rfl, .inr ⟨rfl, rfl⟩⟩, ha⟩
  | cons k ks ih =>
    simp only [cascadeFrom, bind_ok_iff] at h
    obtain ⟨y, hy, h⟩ := h
    obtain ⟨⟨rk, kst, l, r, hs⟩, hl⟩ := fblockBody_ok hy
    obtain ⟨⟨rk', kst', l', r', round, fact, hx, hc⟩, hx1⟩ := ih hl h
    refine ⟨⟨rk', kst', l', r', round, fact, ?_, .inl ?_⟩, hx1⟩
    · rw [hx, hs]
    · rw [hs] at hc
      rcases hc with hc | hc <;> exact hc

/-- Everything a completed data block can do when it succeeds (R208). -/
theorem dataBlockDone_ok {buf : Word} {s t : State} (h : dataBlockDone buf s = .ok t) :
    ∃ x hex, s.ocnt + 16 ≤ Config.OCM_SIZE ∧ cascade (toBits buf) s = .ok x ∧
      blocksToHex x.1 = .ok hex ∧ t = { appendOutput hex x.2 with dpbuf := 0, dpn := 0 } := by
  simp only [dataBlockDone, bind_ok_iff, pure_eq_ok, Except.ok.injEq] at h
  obtain ⟨_, hr, x, hx, hex, hh, rfl⟩ := h
  refine ⟨x, hex, ?_, hx, hh, rfl⟩
  rcases checkOutputRoom_cases s with ⟨h, _⟩ | ⟨_, h⟩
  · exact h
  · rw [h] at hr; cases hr

end Sys2Proof.Machine
end

