-- ==== Sys2Proof/Laws/Commands.lean ====
section
/-! SUPPORT. Everything each command's rule can do when it succeeds, one lemma for each rule, and what
no command does. -/

namespace Sys2Proof.Machine

/-- A contract of 64 elements that is met (R27). -/
theorem vecOfLength_ok {len : Nat} {n : VIndex} {s : State} {x : Bits} (hl : len ≤ 64)
    (h : vecOfLength len n s = .ok x) : (s.reg n).len.toNat = len ∧ x = denotes n s := by
  rcases vecOfLength_cases hl n s with ⟨hn, he⟩ | ⟨_, he⟩
  · rw [he] at h; cases h; exact ⟨hn, rfl⟩
  · rw [he] at h; cases h

theorem vec_eq_ok {n : VIndex} {s : State} {x : Bits} (h : vec n s = .ok x) :
    (s.reg n).len.toNat ≤ 64 ∧ x = denotes n s := by
  rcases vec_cases n s with ⟨hn, he⟩ | ⟨_, he⟩
  · rw [he] at h; cases h; exact ⟨hn, rfl⟩
  · rw [he] at h; cases h

theorem checkNoData_ok {s : State} {u : Unit} (h : checkNoData s = .ok u) : s.dpn = 0 := by
  rcases checkNoData_cases s with ⟨hn, _⟩ | ⟨_, he⟩
  · exact hn
  · rw [he] at h; cases h

theorem checkNoKey_ok {s : State} {u : Unit} (h : checkNoKey s = .ok u) : s.kpn = 0 := by
  rcases checkNoKey_cases s with ⟨hn, _⟩ | ⟨_, he⟩
  · exact hn
  · rw [he] at h; cases h

theorem charOf_ok {imm : BitVec 32} {c : Nat} (h : charOf imm = .ok c) :
    c = imm.toNat ∧ c ≤ 0xFFFF := by
  rcases charOf_cases imm with ⟨hn, he⟩ | ⟨_, he⟩
  · rw [he] at h; cases h; exact ⟨rfl, hn⟩
  · rw [he] at h; cases h

theorem checkOutputRoom_ok {s : State} {u : Unit} (h : checkOutputRoom s = .ok u) :
    s.ocnt + 16 ≤ Config.OCM_SIZE := by
  rcases checkOutputRoom_cases s with ⟨hn, _⟩ | ⟨_, he⟩
  · exact hn
  · rw [he] at h; cases h

theorem appendKeyBlock_ok {buf : Word} {s t : State} (h : appendKeyBlock buf s = .ok t) :
    s.nkb < Config.KB_DEPTH ∧ t =
      { s with kbm := memWrite s.kbm s.nkb buf, nkb := s.nkb + 1, kpbuf := 0, kpn := 0 } := by
  rcases appendKeyBlock_cases buf s with ⟨hn, he⟩ | ⟨_, he⟩
  · rw [he] at h; cases h; exact ⟨hn, rfl⟩
  · rw [he] at h; cases h

/-! ### BitCodec, PermutationEngine, SubstitutionEngine -/

theorem i2bRule_ok {vd vs1 : VIndex} {imm : BitVec 32} {s t : State}
    (h : i2bRule vd vs1 imm s = .ok t) :
    (s.reg vs1).len.toNat ≤ 64 ∧ imm.toNat ≤ 64 ∧
      t = setv vd (intToBits (val (denotes vs1 s)) imm.toNat) s := by
  simp only [i2bRule, bind_ok_iff, pure_eq_ok] at h
  obtain ⟨x, hx, h⟩ := h
  obtain ⟨hl, rfl⟩ := vec_eq_ok hx
  split at h
  · cases h
  · rename_i hi
    cases h
    exact ⟨hl, not_lt.1 hi, rfl⟩

theorem b2iRule_ok {vd vs1 : VIndex} {s t : State} (h : b2iRule vd vs1 s = .ok t) :
    (s.reg vs1).len.toNat ≤ 64 ∧ t = setv vd (bitsN 64 (bitsToInt (denotes vs1 s))) s := by
  simp only [b2iRule, bind_ok_iff, pure_eq_ok, Except.ok.injEq] at h
  obtain ⟨x, hx, rfl⟩ := h
  obtain ⟨hl, rfl⟩ := vec_eq_ok hx
  exact ⟨hl, rfl⟩

theorem hexRule_ok {vs1 : VIndex} {s t : State} (h : hexRule vs1 s = .ok t) :
    (s.reg vs1).len.toNat = 64 ∧ s.ocnt + 16 ≤ Config.OCM_SIZE ∧
      ∃ x, blocksToHex (denotes vs1 s) = .ok x ∧ t = appendOutput x s := by
  simp only [hexRule, bind_ok_iff, pure_eq_ok, Except.ok.injEq] at h
  obtain ⟨b, hb, _, hr, x, hx, rfl⟩ := h
  obtain ⟨hl, rfl⟩ := vecOfLength_ok (by decide) hb
  exact ⟨hl, checkOutputRoom_ok hr, x, hx, rfl⟩

theorem permRule_ok {vd vs1 : VIndex} {tbl : BitVec 4} {s t : State}
    (h : permRule vd vs1 tbl s = .ok t) :
    tbl.toNat ≤ 6 ∧ (s.reg vs1).len.toNat ≤ 64 ∧
      ∃ w, permute (tableOf s.params tbl (s.reg vs1).len.toNat) (denotes vs1 s) = .ok w ∧
        t = setv vd w s := by
  unfold permRule at h
  split at h
  · cases h
  · simp only [bind_ok_iff, pure_eq_ok, Except.ok.injEq] at h
    obtain ⟨x, hx, w, hw, rfl⟩ := h
    obtain ⟨hl, rfl⟩ := vec_eq_ok hx
    exact ⟨by omega, hl, w, by simpa using hw, rfl⟩

theorem xorRule_ok {vd vs1 vs2 : VIndex} {s t : State} (h : xorRule vd vs1 vs2 s = .ok t) :
    (s.reg vs1).len.toNat ≤ 64 ∧ (s.reg vs2).len.toNat = (s.reg vs1).len.toNat ∧
      t = setv vd (xorBits (denotes vs1 s) (denotes vs2 s)) s := by
  simp only [xorRule, bind_ok_iff, pure_eq_ok] at h
  obtain ⟨a, ha, b, hb, h⟩ := h
  obtain ⟨hl, rfl⟩ := vec_eq_ok ha
  obtain ⟨_, rfl⟩ := vec_eq_ok hb
  split at h
  · cases h
  · rename_i hne
    cases h
    exact ⟨hl, by simpa [eq_comm] using hne, rfl⟩

theorem substRule_ok {vd vs1 : VIndex} {s t : State} (h : substRule vd vs1 s = .ok t) :
    (s.reg vs1).len.toNat = 48 ∧
      ∃ w, subst s.params (denotes vs1 s) = .ok w ∧ t = setv vd w s := by
  simp only [substRule, bind_ok_iff, pure_eq_ok, Except.ok.injEq] at h
  obtain ⟨m, hm, w, hw, rfl⟩ := h
  obtain ⟨hl, rfl⟩ := vecOfLength_ok (by decide) hm
  exact ⟨hl, w, hw, rfl⟩

/-! ### KeyScheduler and FeistelBlockCipher -/

theorem kschedRule_ok {vs1 : VIndex} {s t : State} (h : kschedRule vs1 s = .ok t) :
    (s.reg vs1).len.toNat = 64 ∧ ∃ x, keySchedule s.params (denotes vs1 s) = .ok x ∧
      t = { s with rk := rkFile x.1, kstate := ofBits 56 x.2 } := by
  simp only [kschedRule, bind_ok_iff] at h
  obtain ⟨kb, hkb, h⟩ := h
  obtain ⟨hl, rfl⟩ := vecOfLength_ok (by decide) hkb
  exact ⟨hl, kschedBody_ok h⟩

theorem finitRule_ok {vs1 : VIndex} {s t : State} (h : finitRule vs1 s = .ok t) :
    (s.reg vs1).len.toNat = 64 ∧ ∃ p, permute s.params.ip.toList (denotes vs1 s) = .ok p ∧
      t = { s with
        l := ofBits 32 (slice p 0 32), r := ofBits 32 (slice p 32 32), round := 0, fact := true } := by
  simp only [finitRule, bind_ok_iff] at h
  obtain ⟨d, hd, h⟩ := h
  obtain ⟨hl, rfl⟩ := vecOfLength_ok (by decide) hd
  exact ⟨hl, finitBody_ok h⟩

theorem froundRule_ok {s t : State} (h : froundRule s = .ok t) :
    s.fact = true ∧ s.round < 16 ∧ froundBody s = .ok t := by
  unfold froundRule at h
  split at h
  · cases h
  · rename_i hc
    simp only [not_or, Bool.not_eq_false, not_le] at hc
    exact ⟨hc.1, hc.2, h⟩

theorem ffinalRule_ok {vd : VIndex} {s t : State} (h : ffinalRule vd s = .ok t) :
    s.fact = true ∧ s.round = 16 ∧
      ∃ w, permute s.params.fp.toList (toBits s.r ++ toBits s.l) = .ok w ∧
        t = setv vd w { s with fact := false } := by
  unfold ffinalRule at h
  split at h
  · cases h
  · rename_i hc
    simp only [not_or, Bool.not_eq_false, not_not] at hc
    simp only [bind_ok_iff, pure_eq_ok, Except.ok.injEq] at h
    obtain ⟨x, hx, rfl⟩ := h
    obtain ⟨hp, hs, _⟩ := ffinalBody_ok hx
    exact ⟨hc.1, hc.2, x.1, hp, by rw [hs]⟩

theorem fblockRule_ok {vd vs1 vs2 : VIndex} {s t : State} (h : fblockRule vd vs1 vs2 s = .ok t) :
    (s.reg vs1).len.toNat = 64 ∧ (s.reg vs2).len.toNat = 64 ∧
      ∃ x, fblockBody (denotes vs1 s) (denotes vs2 s) s = .ok x ∧ t = setv vd x.1 x.2 := by
  simp only [fblockRule, bind_ok_iff, pure_eq_ok] at h
  obtain ⟨a, ha, b, hb, h⟩ := h
  obtain ⟨_, rfl⟩ := vec_eq_ok ha
  obtain ⟨_, rfl⟩ := vec_eq_ok hb
  split at h
  · cases h
  · split at h
    · cases h
    · rename_i h1 h2
      simp only [bind_ok_iff, Except.ok.injEq] at h
      obtain ⟨x, hx, rfl⟩ := h
      exact ⟨by simpa using h1, by simpa using h2, x, hx, rfl⟩

/-! ### CascadeStringCipher -/

theorem kclrRule_ok {s t : State} (h : kclrRule s = .ok t) :
    s.dpn = 0 ∧ t = { s with nkb := 0, kpn := 0, kpbuf := 0 } := by
  simp only [kclrRule, bind_ok_iff, pure_eq_ok, Except.ok.injEq] at h
  obtain ⟨_, hu, rfl⟩ := h
  exact ⟨checkNoData_ok hu, rfl⟩

theorem kputcRule_ok {imm : BitVec 32} {s t : State} (h : kputcRule imm s = .ok t) :
    s.dpn = 0 ∧ imm.toNat ≤ 0xFFFF ∧
      ((s.kpn < 3 ∧
          t = { s with kpbuf := packChar s.kpbuf s.kpn imm.toNat, kpn := s.kpn + 1 }) ∨
       (3 ≤ s.kpn ∧ appendKeyBlock (packChar s.kpbuf s.kpn imm.toNat) s = .ok t)) := by
  simp only [kputcRule, bind_ok_iff, pure_eq_ok] at h
  obtain ⟨_, hu, c, hc, h⟩ := h
  obtain ⟨rfl, hc⟩ := charOf_ok hc
  refine ⟨checkNoData_ok hu, hc, ?_⟩
  split at h
  · cases h; exact .inl ⟨‹_›, rfl⟩
  · exact .inr ⟨by omega, h⟩

theorem kendRule_ok {s t : State} (h : kendRule s = .ok t) :
    s.dpn = 0 ∧ ((s.kpn = 0 ∧ t = s) ∨ (0 < s.kpn ∧ appendKeyBlock s.kpbuf s = .ok t)) := by
  simp only [kendRule, bind_ok_iff, pure_eq_ok] at h
  obtain ⟨_, hu, h⟩ := h
  refine ⟨checkNoData_ok hu, ?_⟩
  split at h
  · exact .inr ⟨‹_›, h⟩
  · cases h; exact .inl ⟨by omega, rfl⟩

theorem dputcRule_ok {imm : BitVec 32} {s t : State} (h : dputcRule imm s = .ok t) :
    s.kpn = 0 ∧ imm.toNat ≤ 0xFFFF ∧
      ((s.dpn < 3 ∧
          t = { s with dpbuf := packChar s.dpbuf s.dpn imm.toNat, dpn := s.dpn + 1 }) ∨
       (3 ≤ s.dpn ∧ dataBlockDone (packChar s.dpbuf s.dpn imm.toNat) s = .ok t)) := by
  simp only [dputcRule, bind_ok_iff, pure_eq_ok] at h
  obtain ⟨_, hu, c, hc, h⟩ := h
  obtain ⟨rfl, hc⟩ := charOf_ok hc
  refine ⟨checkNoKey_ok hu, hc, ?_⟩
  split at h
  · cases h; exact .inl ⟨‹_›, rfl⟩
  · exact .inr ⟨by omega, h⟩

theorem dendRule_ok {s t : State} (h : dendRule s = .ok t) :
    s.kpn = 0 ∧ ((s.dpn = 0 ∧ t = s) ∨ (0 < s.dpn ∧ dataBlockDone s.dpbuf s = .ok t)) := by
  simp only [dendRule, bind_ok_iff, pure_eq_ok] at h
  obtain ⟨_, hu, h⟩ := h
  refine ⟨checkNoKey_ok hu, ?_⟩
  split at h
  · exact .inr ⟨‹_›, h⟩
  · cases h; exact .inl ⟨by omega, rfl⟩

theorem cascRule_ok {vd vs1 : VIndex} {s t : State} (h : cascRule vd vs1 s = .ok t) :
    s.kpn = 0 ∧ (s.reg vs1).len.toNat = 64 ∧
      ∃ x, cascade (denotes vs1 s) s = .ok x ∧ t = setv vd x.1 x.2 := by
  simp only [cascRule, bind_ok_iff, pure_eq_ok, Except.ok.injEq] at h
  obtain ⟨_, hu, d, hd, x, hx, rfl⟩ := h
  obtain ⟨hl, rfl⟩ := vecOfLength_ok (by decide) hd
  exact ⟨checkNoKey_ok hu, hl, x, hx, rfl⟩

end Sys2Proof.Machine
end

