-- ==== Sys2Proof/Laws/Decode.lean ====
section
/-! SUPPORT. Laws of command words: the fields of an assembled word, and the opcode map. -/

namespace Sys2Proof

/-- A bit inside a field placed at bit `lo` is the field's. -/
theorem fieldAt_inside {w lo i : Nat} (x : BitVec w) (h : i < 64) (h1 : lo ≤ i) (_h2 : i < lo + w) :
    (fieldAt lo x).getLsbD i = x.getLsbD (i - lo) := by
  simp [fieldAt, h, h1]

/-- A bit outside a field placed at bit `lo` is 0. -/
theorem fieldAt_outside {w lo i : Nat} (x : BitVec w) (h : i < lo ∨ lo + w ≤ i) :
    (fieldAt lo x).getLsbD i = false := by
  simp only [fieldAt, BitVec.getLsbD_shiftLeft, BitVec.getLsbD_setWidth]
  rcases h with h | h
  · simp [h]
  · simp [BitVec.getLsbD_of_ge x (i - lo) (by omega)]

section Fields

variable (op : Byte) (vd vs1 vs2 : BitVec 3) (tbl : BitVec 4) (imm : BitVec 32)

@[simp] theorem opField_commandWord : opField (commandWord op vd vs1 vs2 tbl imm) = op := by
  ext i hi
  simp (disch := omega) only [opField, BitVec.getElem_extractLsb', commandWord, BitVec.getLsbD_or,
    fieldAt_inside, fieldAt_outside, Bool.or_false]
  simp [BitVec.getLsbD_eq_getElem, hi]

@[simp] theorem vdField_commandWord : vdField (commandWord op vd vs1 vs2 tbl imm) = vd := by
  ext i hi
  simp (disch := omega) only [vdField, BitVec.getElem_extractLsb', commandWord, BitVec.getLsbD_or,
    fieldAt_inside, fieldAt_outside, Bool.or_false, Bool.false_or]
  simp [BitVec.getLsbD_eq_getElem, hi]

@[simp] theorem vs1Field_commandWord : vs1Field (commandWord op vd vs1 vs2 tbl imm) = vs1 := by
  ext i hi
  simp (disch := omega) only [vs1Field, BitVec.getElem_extractLsb', commandWord, BitVec.getLsbD_or,
    fieldAt_inside, fieldAt_outside, Bool.or_false, Bool.false_or]
  simp [BitVec.getLsbD_eq_getElem, hi]

@[simp] theorem vs2Field_commandWord : vs2Field (commandWord op vd vs1 vs2 tbl imm) = vs2 := by
  ext i hi
  simp (disch := omega) only [vs2Field, BitVec.getElem_extractLsb', commandWord, BitVec.getLsbD_or,
    fieldAt_inside, fieldAt_outside, Bool.or_false, Bool.false_or]
  simp [BitVec.getLsbD_eq_getElem, hi]

@[simp] theorem tblField_commandWord : tblField (commandWord op vd vs1 vs2 tbl imm) = tbl := by
  ext i hi
  simp (disch := omega) only [tblField, BitVec.getElem_extractLsb', commandWord, BitVec.getLsbD_or,
    fieldAt_inside, fieldAt_outside, Bool.or_false, Bool.false_or]
  simp [BitVec.getLsbD_eq_getElem, hi]

@[simp] theorem immField_commandWord : immField (commandWord op vd vs1 vs2 tbl imm) = imm := by
  ext i hi
  simp (disch := omega) only [immField, BitVec.getElem_extractLsb', commandWord, BitVec.getLsbD_or,
    fieldAt_inside, fieldAt_outside, Bool.or_false, Bool.false_or]
  simp [BitVec.getLsbD_eq_getElem, hi]

/-- A stretch of an assembled word that holds no field is 0 (R81). -/
theorem gap_commandWord {lo n : Nat}
    (h : lo = 11 ∧ n = 1 ∨ lo = 15 ∧ n = 1 ∨ lo = 19 ∧ n = 1 ∨ lo = 24 ∧ n = 8) :
    (commandWord op vd vs1 vs2 tbl imm).extractLsb' lo n = 0#n := by
  ext i hi
  simp (disch := omega) only [BitVec.getElem_extractLsb', commandWord, BitVec.getLsbD_or,
    fieldAt_outside, Bool.or_false, BitVec.getElem_zero]

@[simp] theorem reservedClear_commandWord :
    reservedClear (commandWord op vd vs1 vs2 tbl imm) = true := by
  have h1 := gap_commandWord op vd vs1 vs2 tbl imm (lo := 11) (n := 1) (by omega)
  have h2 := gap_commandWord op vd vs1 vs2 tbl imm (lo := 15) (n := 1) (by omega)
  have h3 := gap_commandWord op vd vs1 vs2 tbl imm (lo := 19) (n := 1) (by omega)
  have h4 := gap_commandWord op vd vs1 vs2 tbl imm (lo := 24) (n := 8) (by omega)
  simp only [reservedClear, h1, h2, h3, h4]
  rfl

end Fields

/-- The opcode map read back (R83, R89). -/
@[simp] theorem ofCode_code (m : Mnemonic) : Mnemonic.ofCode m.code = some m := by
  cases m <;> decide

/-- An opcode stands for at most one mnemonic (R89). -/
theorem ofCode_some {op : Byte} {m : Mnemonic} (h : Mnemonic.ofCode op = some m) : m.code = op := by
  simpa using List.find?_some h

end Sys2Proof
end

