-- ==== Sys2Proof/Laws/PerInstr.lean ====
section
/-! SUPPORT. The family of laws that hold of every instruction as syntax: the opcode and the reserved
bits of its encoding (30_encoding.md R81, R83, R85). -/

namespace Sys2Proof.Laws.EncodedFields

/-- The encoding has the opcode of the instruction's mnemonic, clear reserved bits, and 0 in every
field that the mnemonic does not use. -/
def Statement (i : Instr) : Prop :=
  opField (encode i) = i.mnemonic.code ∧ reservedClear (encode i) = true ∧
    unusedClear i.mnemonic.uses (encode i) = true

/-- The statement of an encoding that is a command word with the unused fields 0. -/
theorem of_commandWord {i : Instr} {vd vs1 vs2 : BitVec 3} {tbl : BitVec 4} {imm : BitVec 32}
    (h : encode i = commandWord i.mnemonic.code vd vs1 vs2 tbl imm)
    (hd : (i.mnemonic.uses.vd || vd == 0) = true) (ha : (i.mnemonic.uses.vs1 || vs1 == 0) = true)
    (hb : (i.mnemonic.uses.vs2 || vs2 == 0) = true) (ht : (i.mnemonic.uses.tbl || tbl == 0) = true)
    (hi : (i.mnemonic.uses.imm || imm == 0) = true) : Statement i := by
  simp only [Statement, h, opField_commandWord, reservedClear_commandWord, unusedClear,
    vdField_commandWord, vs1Field_commandWord, vs2Field_commandWord, tblField_commandWord,
    immField_commandWord, hd, ha, hb, ht, hi, Bool.and_self, and_self]

theorem nop : Statement .nop := of_commandWord rfl rfl rfl rfl rfl rfl
theorem abort : Statement .abort := of_commandWord rfl rfl rfl rfl rfl rfl
theorem clrerr : Statement .clrerr := of_commandWord rfl rfl rfl rfl rfl rfl
theorem perm (vd vs1 : VIndex) (tbl : BitVec 4) : Statement (.perm vd vs1 tbl) := of_commandWord rfl rfl rfl rfl rfl rfl
theorem xor (vd vs1 vs2 : VIndex) : Statement (.xor vd vs1 vs2) := of_commandWord rfl rfl rfl rfl rfl rfl
theorem subst (vd vs1 : VIndex) : Statement (.subst vd vs1) := of_commandWord rfl rfl rfl rfl rfl rfl
theorem i2b (vd vs1 : VIndex) (imm : BitVec 32) : Statement (.i2b vd vs1 imm) := of_commandWord rfl rfl rfl rfl rfl rfl
theorem b2i (vd vs1 : VIndex) : Statement (.b2i vd vs1) := of_commandWord rfl rfl rfl rfl rfl rfl
theorem hex (vs1 : VIndex) : Statement (.hex vs1) := of_commandWord rfl rfl rfl rfl rfl rfl
theorem ksched (vs1 : VIndex) : Statement (.ksched vs1) := of_commandWord rfl rfl rfl rfl rfl rfl
theorem finit (vs1 : VIndex) : Statement (.finit vs1) := of_commandWord rfl rfl rfl rfl rfl rfl
theorem fround : Statement .fround := of_commandWord rfl rfl rfl rfl rfl rfl
theorem ffinal (vd : VIndex) : Statement (.ffinal vd) := of_commandWord rfl rfl rfl rfl rfl rfl
theorem fblock (vd vs1 vs2 : VIndex) : Statement (.fblock vd vs1 vs2) := of_commandWord rfl rfl rfl rfl rfl rfl
theorem kclr : Statement .kclr := of_commandWord rfl rfl rfl rfl rfl rfl
theorem kputc (imm : BitVec 32) : Statement (.kputc imm) := of_commandWord rfl rfl rfl rfl rfl rfl
theorem kend : Statement .kend := of_commandWord rfl rfl rfl rfl rfl rfl
theorem dputc (imm : BitVec 32) : Statement (.dputc imm) := of_commandWord rfl rfl rfl rfl rfl rfl
theorem dend : Statement .dend := of_commandWord rfl rfl rfl rfl rfl rfl
theorem casc (vd vs1 : VIndex) : Statement (.casc vd vs1) := of_commandWord rfl rfl rfl rfl rfl rfl
theorem oclr : Statement .oclr := of_commandWord rfl rfl rfl rfl rfl rfl

end Sys2Proof.Laws.EncodedFields
end

