-- ==== Sys2Proof/Laws/Step.lean ====
section
/-! SUPPORT. Everything one step of the machine can do, and what the host's cycle can change. -/

namespace Sys2Proof.Machine

/-- Everything a step can do: the engine runs the decoded command, reports an illegal word, or the
host has the cycle (R2, R245, R246). -/
theorem step_cases (s : State) :
    (∃ w i, s.seq = .executing w 0 ∧ decode w = .ok i ∧ step s = exec i s) ∨
    (∃ w x, s.seq = .executing w 0 ∧ decode w = .error x ∧ step s = runIllegal w s) ∨
    ((∀ w, s.seq ≠ .executing w 0) ∧ step s = .next (hostCycle s)) := by
  unfold step nextStep
  cases h : s.seq with
  | idle => exact .inr (.inr ⟨fun w => by simp, rfl⟩)
  | executing w left =>
    cases left with
    | succ n => exact .inr (.inr ⟨fun w => by simp, rfl⟩)
    | zero =>
      cases hd : decode w with
      | ok i => exact .inl ⟨w, i, rfl, hd, by simp [engineStep, hd]⟩
      | error x => exact .inr (.inl ⟨w, x, rfl, hd, by simp [engineStep, hd]⟩)

/-- Every legal command is the command step of its own mnemonic and rule (R245). -/
theorem exec_is_runCommand (i : Instr) : ∃ rule, ∀ s, exec i s = runCommand i.mnemonic rule s := by
  cases i <;> exact ⟨_, fun _ => rfl⟩

/-- The host's write changes none of the engine's memories, counts or cipher registers (R65): only
CMD, STATUS, CTRL, VPAY and VLEN, and WBUSY for a write that is dropped. -/
theorem busWrite_ok (o : Offset) (x : Word) (s : State) :
    ∃ v seq done wbusy rej ie, busWrite o x s = { s with
      v := v, seq := seq, done := done, wbusy := wbusy, rej := rej, ie := ie } := by
  unfold busWrite
  split
  · exact ⟨s.v, s.seq, s.done, true, s.rej, s.ie, rfl⟩
  · cases regAt o <;> exact ⟨_, _, _, _, _, _, rfl⟩

/-- Everything one action of the host can do: the reset input, or an access that changes only what
the host can reach (R65, R69, R272). -/
theorem hostAct_cases (s : State) :
    (∃ rest, s.host = .rst :: rest ∧ hostAct s = assertReset { s with host := rest }) ∨
    (∃ v seq done wbusy rej ie host readData, hostAct s = { s with
      v := v, seq := seq, done := done, wbusy := wbusy, rej := rej, ie := ie, host := host,
      readData := readData }) := by
  unfold hostAct
  split
  · exact .inr ⟨_, _, _, _, _, _, _, _, rfl⟩
  · exact .inr ⟨_, _, _, _, _, _, _, _, rfl⟩
  · rename_i o x rest h
    obtain ⟨v, seq, done, wbusy, rej, ie, hw⟩ := busWrite_ok o x { s with host := rest }
    rw [hw]
    exact .inr ⟨_, _, _, _, _, _, _, _, rfl⟩
  · exact .inr ⟨_, _, _, _, _, _, _, _, rfl⟩
  · exact .inr ⟨_, _, _, _, _, _, _, _, rfl⟩
  · rename_i rest h
    exact .inl ⟨rest, h, rfl⟩

end Sys2Proof.Machine
end

