-- ==== Sys2Proof/Laws/Text.lean ====
section
/-! SUPPORT. What each unit of the host's strings gives the engine (92_eei_decisions.md D11). -/

namespace Sys2Proof.Machine

theorem codePointValue_toNat (c : Char) : (codePointValue c).toNat = c.toNat :=
  Nat.mod_eq_of_lt c.val.toNat_lt

/-- Up to U+FFFF a character is one UTF-16 unit, its code point. -/
theorem utf16Units_eq_codePoint {c : Char} (h : c.toNat ≤ 0xFFFF) :
    utf16Units c = [codePointValue c] := if_pos h

/-- Every UTF-16 unit fits 16 bits. -/
theorem utf16Units_le {c : Char} {v : BitVec 32} (h : v ∈ utf16Units c) : v.toNat ≤ 0xFFFF := by
  have hc : c.toNat < 0xD800 ∨ 0xDFFF < c.toNat ∧ c.toNat < 0x110000 := c.valid
  unfold utf16Units at h
  split at h
  · next hs => simp at h; subst h; rw [codePointValue_toNat]; exact hs
  · simp at h
    rcases h with rfl | rfl <;> simp only [BitVec.toNat_ofNat] <;> omega

/-- The two units agree on a string with no character above U+FFFF. -/
theorem stringValues_units_agree {s : String} (h : ∀ c ∈ s.toList, c.toNat ≤ 0xFFFF) :
    stringValues .utf16 s = stringValues .codePoint s := by
  show s.toList.flatMap utf16Units = s.toList.map codePointValue
  rw [List.flatMap_congr fun c hc => utf16Units_eq_codePoint (h c hc), ← List.map_eq_flatMap]

/-- A host of UTF-16 units never meets InvalidCharacter (R104). -/
theorem textToBlocks_utf16 (s : String) :
    ∃ b, textToBlocks ((stringValues .utf16 s).map BitVec.toNat) = .ok b := by
  refine ⟨_, if_neg ?_⟩
  simp only [List.any_map, List.any_eq_true, not_exists, not_and]
  intro v hv
  obtain ⟨c, _, hc⟩ := List.mem_flatMap.mp hv
  simpa using utf16Units_le hc

/-- A host of code points meets InvalidCharacter exactly for a character above U+FFFF (R104). -/
theorem textToBlocks_codePoint (s : String) :
    textToBlocks ((stringValues .codePoint s).map BitVec.toNat) = .error .invalidCharacter ↔
      ∃ c ∈ s.toList, 0xFFFF < c.toNat := by
  simp [textToBlocks, stringValues, codePointValue_toNat]

end Sys2Proof.Machine
end

