-- ==== Sys2Proof/Tests/Slice0.lean ====
section
/-! SUPPORT. Tests: the check of well-formedness, words written out from the encoding tables of the
spec, one or two single-step vectors of 95_test_vectors.md for each command, and for each statement
with hypotheses a state and operands that meet them. "Row X" is a row of 95_test_vectors.md. -/

namespace Sys2Proof.Machine.Slice0

/-! ### Small states -/

/-- The state after reset of the instance with the candidate tables (93_implementation_defined.md
G1). -/
def base : State := { State.reset with params := Config.candidate }

/-- `s` with a vector register loaded. -/
def ld (n : VIndex) (pay : Word) (len : BitVec 7) (s : State) : State :=
  s.setV n { pay := pay, len := len }

/-- The state after the engine's step on the command word `w`. -/
def after (w : Word) (s : State) : State :=
  match engineStep w s with
  | .next t => t
  | .fault _ => s
  | .refused _ => s

/-- `s` with the recorded error of an illegal word 0x47 (row Y2). -/
def broken (s : State) : State := { s with err := 4, errop := 0x47 }

/-- The candidate tables with the weight vector of row U9, which leaves the matrix. -/
def badWeights : Config.Params := { Config.candidate with weight := #v[4, 8, 4, 2, 1, 1] }

/-- The candidate tables with one PC2 entry out of range. -/
def badPc2 : Config.Params := { Config.candidate with pc2 := Config.candidate.pc2.set 7 56 }

/-- The candidate tables with one IP entry out of range. -/
def badIp : Config.Params := { Config.candidate with ip := Config.candidate.ip.set 0 64 }

/-- The candidate tables with one FP entry out of range. -/
def badFp : Config.Params := { Config.candidate with fp := Config.candidate.fp.set 63 64 }

/-- A state in the middle of a call: one key block, a key character, a line of output, a command
latched whose latency has passed (`KPUTC 'x'`). -/
def midCall : State :=
  { base with
    kbm := [(0, 0x0031000000000000)], nkb := 1, kpbuf := 0x0061000000000000, kpn := 1
    ocm := [(0, 0x30), (1, 0x30), (2, 0x37), (3, 0x34), (4, 0x30), (5, 0x30), (6, 0x36), (7, 0x35),
      (8, 0x30), (9, 0x30), (10, 0x37), (11, 0x33), (12, 0x30), (13, 0x30), (14, 0x37), (15, 0x46)]
    ocnt := 16, round := 16, seq := .executing 0x0000007800000041 0 }

/-! ### Well-formedness (R84, R85) -/

/-- A PERM with a reserved table id is refused, the last id of the map is not. -/
theorem test_wellFormed_refuses_reserved_table :
    ¬ (Instr.perm 1 0 7).WellFormed ∧ ¬ (Instr.perm 1 0 15).WellFormed ∧
      (Instr.perm 1 0 6).WellFormed := by decide

/-! ### Decoding: words written out from the fields of R81 and the opcodes of R83 -/

theorem test_decode_nop : decode 0x0000000000000000 = .ok .nop := by decide
theorem test_decode_abort : decode 0x0000000000000001 = .ok .abort := by decide
theorem test_decode_clrerr : decode 0x0000000000000002 = .ok .clrerr := by decide
/-- VD = 1, VS1 = 4, TBL = 5: bits 10:8 = 001, 14:12 = 100, 23:20 = 0101. -/
theorem test_decode_perm : decode 0x0000000000504110 = .ok (.perm 1 4 5) := by decide
/-- VD = 3, VS1 = 1, VS2 = 2 (row X1). -/
theorem test_decode_xor : decode 0x0000000000021311 = .ok (.xor 3 1 2) := by decide
theorem test_decode_subst : decode 0x0000000000001212 = .ok (.subst 2 1) := by decide
/-- IMM = 65 in bits 63:32 (row I9). -/
theorem test_decode_i2b : decode 0x0000004100001213 = .ok (.i2b 2 1 65) := by decide
theorem test_decode_b2i : decode 0x0000000000001214 = .ok (.b2i 2 1) := by decide
theorem test_decode_hex : decode 0x0000000000001015 = .ok (.hex 1) := by decide
theorem test_decode_ksched : decode 0x0000000000007020 = .ok (.ksched 7) := by decide
theorem test_decode_finit : decode 0x0000000000005030 = .ok (.finit 5) := by decide
theorem test_decode_fround : decode 0x0000000000000031 = .ok .fround := by decide
theorem test_decode_ffinal : decode 0x0000000000000732 = .ok (.ffinal 7) := by decide
/-- VD = 2, VS1 = 0 (data), VS2 = 1 (key) (row F1). -/
theorem test_decode_fblock : decode 0x0000000000010233 = .ok (.fblock 2 0 1) := by decide
theorem test_decode_kclr : decode 0x0000000000000040 = .ok .kclr := by decide
theorem test_decode_kputc : decode 0xFFFFFFFF00000041 = .ok (.kputc 0xFFFFFFFF) := by decide
theorem test_decode_kend : decode 0x0000000000000042 = .ok .kend := by decide
theorem test_decode_dputc : decode 0x0000006400000043 = .ok (.dputc 0x64) := by decide
theorem test_decode_dend : decode 0x0000000000000044 = .ok .dend := by decide
theorem test_decode_casc : decode 0x0000000000003645 = .ok (.casc 6 3) := by decide
theorem test_decode_oclr : decode 0x0000000000000046 = .ok .oclr := by decide

/-- The ends of the unassigned opcode ranges of R86 decode to nothing. -/
theorem test_decode_refuses_unassigned_opcodes :
    [0x03, 0x0F, 0x16, 0x1F, 0x21, 0x2F, 0x34, 0x3F, 0x47, 0xFF].all
      (fun w => legal (BitVec.ofNat 64 w) == false) = true := by decide

/-- Each reserved bit makes a word illegal (R85): bits 11, 15, 19, 24 and 31 on a PERM. -/
theorem test_decode_refuses_reserved_bits :
    [0x500910, 0x508110, 0x580110, 0x1500110, 0x80500110].all
      (fun w => legal (BitVec.ofNat 64 w) == false) = true ∧ legal 0x500110 = true := by decide

/-- A field that a command does not use must be 0 (R85): row Y-style words for HEX, KPUTC, FROUND and
SUBST. -/
theorem test_decode_refuses_unused_fields :
    [0x115, 0x3100000141, 0x10031, 0x101212, 0x100000040].all
      (fun w => legal (BitVec.ofNat 64 w) == false) = true := by decide

/-- The table's numbering: one word of 64 bits; a number beyond it is no command word. -/
theorem test_decodeTableWord :
    decodeTableWord 64 0x0000000000010233 = some (.fblock 2 0 1) ∧
      decodeTableWord 64 0x47 = none ∧ decodeTableWord 72 (2 ^ 64) = none := by decide

/-- The next step after reset runs the word that `withFetchWord` places. -/
theorem test_withFetchWord :
    step (State.reset.withFetchWord 64 0x0000000000010233) =
      exec (.fblock 2 0 1) (State.reset.withFetchWord 64 0x0000000000010233) := rfl

/-! ### Control commands -/

/-- The example of R230: with ERR = 4 and DONE = 1, NOP leaves STATUS as it is. -/
theorem test_nop :
    statusWord (after 0x0 { base with err := 4, done := true }) = 0x402 := by decide

/-- The example of R231. -/
theorem test_abort :
    let t := after 0x1 { base with
      err := 2, errop := 0x41, nkb := 3, dpn := 2, dpbuf := 0x0061006200000000, ocnt := 16,
      round := 16, rej := true }
    statusWord t = 0xA ∧ streamWord t = 0 ∧ t.dpbuf = 0 := by decide

/-- The example of R232. -/
theorem test_clrerr :
    statusWord (after 0x2 { base with err := 1, errop := 0x12, rej := true }) = 0xA := by decide

/-- Rows Y1 to Y3: an illegal word, reported once. -/
theorem test_illegal_words :
    statusWord (after 0x800 base) = 0x402 ∧ statusWord (after 0x47 base) = 0x470402 ∧
      statusWord (after 0x47 (broken base)) = 0x47040A := by decide

/-! ### Bit codec -/

/-- Rows I1 and I5. -/
theorem test_i2b :
    (after 0x0000000000001213 (ld 1 0 64 base)).reg 2 = { pay := 0, len := 0 } ∧
      (after 0x0000000800001213 (ld 1 5 8 base)).reg 2 = { pay := 5, len := 8 } := by
  decide +kernel

/-- Rows I9 and I10. -/
theorem test_i2b_errors :
    statusWord (after 0x0000004100001213 (ld 1 5 8 base)) = 0x130102 ∧
      statusWord (after 0x0000000000001213 (ld 1 5 65 base)) = 0x130102 := by decide

/-- Rows B3 and B5. -/
theorem test_b2i :
    (after 0x0000000000001214 (ld 1 0b0001010 7 base)).reg 2 = { pay := 10, len := 64 } ∧
      (after 0x0000000000000114 (ld 0 0xFF 4 base)).reg 1 = { pay := 0xF, len := 64 } := by
  decide +kernel

/-- Row H3: OCMW0 and OCMW1, and STREAM. -/
theorem test_hex :
    let t := after 0x0000000000001015 (ld 1 0x00AB0CDE000F1234 64 base)
    busRead 0x800 t = 0x3030414230434445 ∧ busRead 0x808 t = 0x3030304631323334 ∧
      streamWord t = 0x100000 := by decide +kernel

/-- Rows H5 and H6. -/
theorem test_hex_errors :
    statusWord (after 0x0000000000001015 (ld 1 0 63 base)) = 0x150102 ∧
      statusWord (after 0x0000000000001015 (ld 1 0 64 { base with ocnt := 2048 })) = 0x150702 := by
  decide

/-! ### Permutation and exclusive or -/

/-- Rows P2 (S), P7 (C), P10 (S). -/
theorem test_perm :
    (after 0x0000000000500110 (ld 0 0x0123456789ABCDEF 64 base)).reg 1 =
        { pay := 0xF0CCAA00F0CCAA, len := 56 } ∧
      (after 0x0000000000200110 (ld 0 0xFFFFFFFF00000000 64 base)).reg 1 =
        { pay := 0xFFFFFFFFFFFF, len := 48 } ∧
      (after 0x0000000000600110 (ld 0 0xFFFF 8 base)).reg 1 = { pay := 0xFF, len := 8 } := by
  decide +kernel

/-- Rows P12, P13 and P14. -/
theorem test_perm_errors :
    statusWord (after 0x0000000000000110 (ld 0 0x1234 32 base)) = 0x100302 ∧
      statusWord (after 0x0000000000601210 (ld 1 0 65 base)) = 0x100102 ∧
      statusWord (after 0x0000000000700110 base) = 0x100402 := by decide +kernel

/-- Rows X5 (the destination is a source) and X2. -/
theorem test_xor :
    (after 0x0000000000021111 (ld 1 0xF0 8 (ld 2 0x3C 8 base))).reg 1 = { pay := 0xCC, len := 8 } ∧
      statusWord (after 0x0000000000021311 (ld 1 0xF0 8 (ld 2 0x3C 7 base))) = 0x110102 := by
  decide

/-! ### Substitution -/

/-- Rows U3 and U5: all groups, and the row bit that is last in its group. -/
theorem test_subst :
    (after 0x0000000000001212 (ld 1 0x6117BA866527 48 base)).reg 2 =
        { pay := 0x5C82B597, len := 32 } ∧
      (after 0x0000000000001212 (ld 1 0x040000000000 48 base)).reg 2 =
        { pay := 0x0FA72C4D, len := 32 } := by decide +kernel

/-- Rows U8 and U9. -/
theorem test_subst_errors :
    statusWord (after 0x0000000000001212 (ld 1 0 49 base)) = 0x120102 ∧
      statusWord (after 0x0000000000001212
        (ld 1 0x800000000000 48 { base with params := badWeights })) = 0x120802 := by decide +kernel

/-! ### Key schedule and block cipher -/

/-- Row S6: RK0, RK15 and KSTATE. -/
theorem test_ksched :
    let t := after 0x0000000000001020 (ld 1 0x133457799BBCDFF1 64 base)
    t.rk[0] = 0x1B02EFA6E5F6 ∧ t.rk[15] = 0xCB3D8B7A01BF ∧ t.kstate = 0xF0CCAAFF786655 := by
  decide +kernel

/-- The trace of row F1: FINIT, and the first round under the subkey RK0 of row S4. -/
theorem test_finit_fround :
    let s := after 0x0000000000000030 (ld 0 0x0074006500730074 64
      { base with rk := base.rk.set 0 0x000000020000 })
    s.l = 0xAAA28A28 ∧ s.r = 0x00AA0020 ∧ statusWord s = 0x20000002 ∧
      (after 0x0000000000000031 s).l = 0x00AA0020 ∧ (after 0x0000000000000031 s).r = 0xF62364C8 := by
  decide +kernel

/-- Rows F9, F11 and F12. -/
theorem test_step_errors :
    statusWord (after 0x0000000000000031 base) = 0x310502 ∧
      statusWord (after 0x0000000000000031 { base with fact := true, round := 16 }) = 0x30310502 ∧
      statusWord (after 0x0000000000000030 (ld 0 0 63 base)) = 0x300102 := by decide

/-- The example of R185, and row F10. -/
theorem test_ffinal :
    (after 0x0000000000000132 { base with
      l := 0xE04D1499, r := 0x7ED29A79, fact := true, round := 16 }).reg 1 =
        { pay := 0x235468675FC1F196, len := 64 } ∧
      statusWord (after 0x0000000000000132 { base with fact := true, round := 15 }) = 0x2F320502 := by
  decide +kernel

/-- Row F1, and STATUS after it. -/
theorem test_fblock :
    let t := after 0x0000000000010233
      (ld 0 0x0074006500730074 64 (ld 1 0x0031000000000000 64 base))
    t.reg 2 = { pay := 0x235468675FC1F196, len := 64 } ∧ statusWord t = 0x10000002 := by
  decide +kernel

/-! ### Key ring, data and cascade -/

/-- The example of R202, and row K22. -/
theorem test_kclr :
    streamWord (after 0x0000000000000040 { base with nkb := 3, kpn := 1 }) = 0 ∧
      statusWord (after 0x0000000000000040 { base with dpn := 1 }) = 0x400502 := by decide

/-- The example of R203 and row K18. -/
theorem test_kputc :
    (after 0x0000003100000041 base).kpbuf = 0x0031000000000000 ∧
      (after 0x0000003100000041 base).kpn = 1 ∧
      statusWord (after 0x0001000000000041 base) = 0x410202 := by decide

/-- The example of R205, and row K24. -/
theorem test_kend :
    (after 0x0000000000000042 { base with kpn := 1, kpbuf := 0x0031000000000000 }).kbm =
        [(0, 0x0031000000000000)] ∧
      statusWord (after 0x0000000000000042 { base with kpn := 3, nkb := 64 }) = 0x420602 := by decide

/-- Rows K19 and K21. -/
theorem test_dputc :
    (after 0x0000FFFF00000043 base).dpbuf = 0xFFFF000000000000 ∧
      streamWord (after 0x0000FFFF00000043 base) = 0x1000 ∧
      statusWord (after 0x0001000000000043 { base with kpn := 1 }) = 0x430502 := by decide

/-- Row K13: DEND of "A" with an empty ring. -/
theorem test_dend :
    let t := after 0x0000000000000044 { base with dpn := 1, dpbuf := 0x0041000000000000 }
    busRead 0x800 t = 0x3030343130303030 ∧ streamWord t = 0x100000 ∧ t.dpbuf = 0 := by
  decide +kernel

/-- One key block: the corner case of R209 with row F1; and row K17. -/
theorem test_casc :
    (after 0x0000000000000145 (ld 0 0x0074006500730074 64 { base with
      kbm := [(0, 0x0031000000000000), (1, 0x0032000000000000)], nkb := 1 })).reg 1 =
        { pay := 0x235468675FC1F196, len := 64 } ∧
      statusWord (after 0x0000000000000145 { base with kpn := 1 }) = 0x450502 := by decide +kernel

/-- The example of R210. -/
theorem test_oclr :
    streamWord (after 0x0000000000000046 { base with ocnt := 48, dpn := 3 }) = 0x3000 := by decide

/-! ### The bus and reset -/

/-- The reset column of R21, by reading the registers. -/
theorem test_reset_registers :
    busRead 0x000 State.reset = 0x4443464500000007 ∧
      [0x008, 0x010, 0x018, 0x020, 0x028, 0x030, 0x038, 0x040, 0x048, 0x100, 0x178, 0x200, 0x278].all
        (fun o => busRead (BitVec.ofNat 12 o) State.reset == 0) = true := by decide +kernel

/-- The corners of the map of R21. -/
theorem test_register_map :
    regAt 0x170 = .vpay 7 ∧ regAt 0x17F = .vlen 7 ∧ regAt 0x278 = .rk 15 ∧ regAt 0x5F8 = .kbm 63 ∧
      regAt 0xFF8 = .ocmw 255 ∧ regAt 0x600 = .unmapped ∧ regAt 0x180 = .unmapped := by decide

/-- A write that meets BUSY = 1 is dropped and seen in WBUSY (R281); STATUS shows it (R282). -/
theorem test_write_while_busy :
    let s := busWrite 0x100 5 { base with seq := .executing 0x46 3 }
    s.reg 0 = { pay := 0, len := 0 } ∧ busRead 0x010 s = 0x5 := by decide

/-- WAIT stays while BUSY = 1 and ends when it is 0 (R92). -/
theorem test_wait :
    (hostCycle { base with host := [.wait], seq := .executing 0x0 1 }).host = [.wait] ∧
      (hostCycle { base with host := [.wait] }).host = [] := by decide

/-- The assembler's lines for two commands of R90 encode as 95_test_vectors.md lists them. -/
theorem test_assemble :
    (assemble "PERM" [.reg 1, .reg 0, .table "KRED"]).map encode = some 0x0000000000500110 ∧
      (assemble "I2B" [.reg 2, .reg 1]).map encode = some 0x0000000000001213 ∧
      assemble "XOR" [.reg 2, .reg 1] = none := by decide

/-- Line 19 of program P1 of 95_test_vectors.md. -/
theorem test_listing :
    listingLine 19 (.fblock 3 0 1) = "19: 0000000000010333  FBLOCK v3, v0, v1" := by
  decide +kernel

/-- The host's strings (D11): U+1F600 is one value above 0xFFFF for a host of code points and two
surrogates for a host of UTF-16 units, so that only the first has a character literal for it. -/
theorem test_host_char_unit :
    stringValues .codePoint "a😀" = [0x61, 0x1F600] ∧
      stringValues .utf16 "a😀" = [0x61, 0xD83D, 0xDE00] ∧
      literalValue .codePoint '😀' = some 0x1F600 ∧ literalValue .utf16 '😀' = none := by
  decide +kernel

/-- `KSTR "abcd"` (R92) in both units of D11: the key string of row K23. -/
theorem test_kstr :
    [Config.HostCharUnit.codePoint, .utf16].all (fun u => kstr (stringValues u "abcd") ==
      [.kputc 0x61, .kputc 0x62, .kputc 0x63, .kputc 0x64, .kend]) = true := by decide +kernel

/-! ### Witnesses: states and operands that meet the hypotheses of the statements -/

theorem witness_EveryStepKeepsTheInvariant :
    EngineInv midCall ∧ ∃ t, step midCall = .next t ∧ t ≠ midCall := by
  refine ⟨⟨⟨by decide, by decide, by decide, by decide, by decide, by decide⟩,
    ⟨by decide, by decide, by decide⟩, ⟨by decide, by decide, by decide⟩,
    ⟨by decide, by decide, by decide, by decide⟩, ⟨by decide, by decide, by decide⟩⟩,
    _, rfl, ?_⟩
  intro h
  exact absurd (congrArg State.kpn h) (by decide)

theorem witness_StepRunsTheDecodedCommand :
    midCall.seq = .executing 0x0000007800000041 0 ∧
      decode 0x0000007800000041 = .ok (.kputc 0x78) := by decide

theorem witness_IllegalWordIsReported :
    decode 0x47 = .error (.unknownOpcode 0x47) ∧
      ({ base with seq := .executing 0x47 0 } : State).err = 0 ∧
      (broken { base with seq := .executing 0x47 0 }).err ≠ 0 := by decide

theorem witness_DoneIsSetByCompletionAndClearedByTheHost :
    (∃ t, step { base with done := true, host := [.write 0x017 2] } = .next t ∧ t.done = false) ∧
      (∃ t, step { base with done := true, host := [.rst] } = .next t ∧ t.done = false) :=
  ⟨⟨_, rfl, by decide⟩, ⟨_, rfl, by decide⟩⟩

theorem witness_CommandInFlightCompletes :
    HostAction.rst ∉ ({ base with seq := .executing 0x46 2, host := [.wait] } : State).host := by
  decide

theorem witness_TablesNeverChange : ∃ t, step midCall = .next t ∧ t.kpn = 2 :=
  ⟨_, rfl, by decide⟩

theorem witness_DecodeOfEncodeIsTheInstruction : (Instr.perm 7 7 6).WellFormed := by decide

theorem witness_LegalWordIsTheEncodingOfItsCommand :
    decode 0x0000000000677710 = .error (.unusedField .perm) ∧
      decode 0x0000000000607710 = .ok (.perm 7 7 6) := by decide

theorem witness_FailedCommandHasNoEffect :
    base.err = 0 ∧ ∃ t, exec .fround base = .next t ∧ t.err ≠ 0 := ⟨by decide, _, rfl, by decide⟩

theorem witness_CommandsAreRejectedWhileAnErrorIsRecorded :
    (broken base).err ≠ 0 ∧ Instr.oclr ≠ .nop ∧ Instr.oclr ≠ .abort ∧ Instr.oclr ≠ .clrerr := by
  decide

theorem witness_RecordedErrorIsSticky :
    (broken base).err ≠ 0 ∧
      (∃ t, step { broken base with seq := .executing 0x31 0 } = .next t ∧ t.err = 4) ∧
      (∃ t, step { broken base with seq := .executing 0x2 0 } = .next t ∧ t.err = 0) :=
  ⟨by decide, ⟨_, rfl, by decide⟩, ⟨_, rfl, by decide⟩⟩

theorem witness_ClrerrUndoesAFailedCommand :
    base.err = 0 ∧ base.errop = 0 ∧ ∃ t, exec .fround base = .next t ∧ t.err ≠ 0 :=
  ⟨by decide, by decide, _, rfl, by decide⟩

/-- Both clauses, at the ends of their ranges: length 64 and IMM 64; length 65; IMM 65. -/
theorem witness_I2bConvertsAnInteger :
    Readable 1 (ld 1 5 64 base) ∧ (64 : BitVec 32).toNat ≤ 64 ∧ ¬ Readable 1 (ld 1 5 65 base) ∧
      ¬ (65 : BitVec 32).toNat ≤ 64 := by decide

theorem witness_B2iReadsAnInteger :
    Readable 1 (ld 1 5 64 base) ∧ ¬ Readable 1 (ld 1 5 65 base) := by decide

theorem witness_B2iAfterI2bReturnsTheInteger :
    base.err = 0 ∧ Readable 1 (ld 1 0xFF 4 base) ∧ (64 : BitVec 32).toNat ≤ 64 := by decide

/-- The last place that fits, a length that does not fit, and the first place that does not. -/
theorem witness_HexAppendsSixteenCharacters :
    (HoldsLength 1 64 (ld 1 0 64 { base with ocnt := 2032 }) ∧ 2032 + 16 ≤ 2048) ∧
      ¬ HoldsLength 1 64 (ld 1 0 63 base) ∧
      (HoldsLength 1 64 (ld 1 0 64 { base with ocnt := 2048 }) ∧ 2048 < 2048 + 16) := by decide

/-- E on 32 elements, and the first and last id of the map; a length of 65; IP on 32 elements; the
ends of the lengths of IDENT. -/
theorem witness_PermRearrangesByTheTable :
    (Instr.perm 1 0 2).WellFormed ∧ TableOfId Config.candidate 32 2 Config.candidate.e.toList ∧
      (∀ x ∈ Config.candidate.e.toList, x < 32) ∧
      TableOfId Config.candidate 64 0 Config.candidate.ip.toList ∧
      TableOfId Config.candidate 64 6 (List.range 64) ∧
      ¬ Readable 0 (ld 0 0 65 base) ∧ (∃ x ∈ Config.candidate.ip.toList, 32 ≤ x) ∧
      Readable 0 (ld 0 5 0 base) ∧ Readable 0 (ld 0 5 64 base) := by
  decide +kernel

theorem witness_PermWithKredReducesAKey : HoldsLength 0 64 (ld 0 0 64 base) := by decide

theorem witness_XorIsElementwise :
    (Readable 1 (ld 1 1 64 (ld 2 1 64 base)) ∧
        ((ld 1 1 64 (ld 2 1 64 base)).reg 2).len = ((ld 1 1 64 (ld 2 1 64 base)).reg 1).len) ∧
      ((ld 1 1 64 (ld 2 1 63 base)).reg 2).len ≠ ((ld 1 1 64 (ld 2 1 63 base)).reg 1).len := by
  decide

/-- All groups in range; a length of 47; a group at row 4 under the weights of row U9. -/
theorem witness_SubstLooksUpEveryGroup :
    HoldsLength 1 48 (ld 1 0xFFFFFFFFFFFF 48 base) ∧
      (∀ g, g < 8 → rowOfGroup Config.candidate 0xFFFFFFFFFFFF g < 4 ∧
        columnOfGroup Config.candidate 0xFFFFFFFFFFFF g < 16) ∧
      ¬ HoldsLength 1 48 (ld 1 0 47 base) ∧ ¬ rowOfGroup badWeights 0x800000000000 0 < 4 := by
  decide +kernel

theorem witness_KschedDerivesTheRoundKeys :
    HoldsLength 1 64 (ld 1 0 64 base) ∧ (∀ q ∈ Config.candidate.pc2.toList, q < 56) ∧
      ¬ HoldsLength 1 64 (ld 1 0 65 base) ∧ (∃ q ∈ badPc2.pc2.toList, 56 ≤ q) := by decide +kernel

theorem witness_KschedIgnoresTheDroppedBits :
    base.err = 0 ∧ (0x0101010101010101 : Word) ≠ 0 ∧
      (0x0101010101010101 : Word) &&& 0xFEFEFEFEFEFEFEFE = 0 &&& 0xFEFEFEFEFEFEFEFE := by decide

theorem witness_ZeroKeyGivesZeroRoundKeys :
    (ld 1 0 64 base).reg 1 = { pay := 0, len := 64 } ∧
      ∀ q ∈ Config.candidate.pc2.toList, q < 56 := by decide +kernel

theorem witness_FinitSplitsThePermutedBlock :
    HoldsLength 1 64 (ld 1 0 64 base) ∧ (∀ q ∈ Config.candidate.ip.toList, q < 64) ∧
      ¬ HoldsLength 1 64 (ld 1 0 63 base) ∧ (∃ q ∈ badIp.ip.toList, 64 ≤ q) := by decide +kernel

/-- Round 15 of 16 with well-formed tables; a round whose substitution answers under weights out of
range (the input of row U10), and one whose substitution fails; and both ways in which FROUND does
not fit. -/
theorem witness_FroundDoesOneRound :
    ({ base with fact := true, round := 15 } : State).round < 16 ∧ Config.candidate.Wf ∧
      WeightsInRange Config.candidate ∧ ¬ WeightsInRange badWeights ∧
      (roundFunction badWeights (toBits (0 : BitVec 32)) (toBits (0 : BitVec 48))).isOk = true ∧
      roundFunction badWeights (toBits (0xFFFFFFFF : BitVec 32)) (toBits (0 : BitVec 48)) =
        .error .sBoxRange ∧
      ¬ (base.fact = true ∧ base.round < 16) ∧
      ¬ (({ base with fact := true, round := 16 } : State).fact = true ∧ 16 < 16) := by
  decide +kernel

theorem witness_RoundFunctionIsItsFourSteps :
    Config.candidate.Wf ∧ ∃ x, roundFunction Config.candidate (toBits (0 : BitVec 32))
      (toBits (0 : BitVec 48)) = .ok x := ⟨by decide +kernel, _, rfl⟩

theorem witness_FfinalPermutesTheSwappedHalves :
    ({ base with fact := true, round := 16 } : State).fact = true ∧
      (∀ q ∈ Config.candidate.fp.toList, q < 64) ∧
      ¬ (({ base with fact := true, round := 15 } : State).round = 16) ∧
      (∃ q ∈ badFp.fp.toList, 64 ≤ q) := by decide +kernel

theorem witness_BlockFunctionIsTotal : Config.candidate.Wf ∧ WeightsInRange Config.candidate := by
  decide +kernel

/-- A block that succeeds (row F3, in the answer of the function), a block that fails, and a key of
63 elements. -/
theorem witness_FblockComputesTheBlockFunction :
    HoldsLength 0 64 (ld 0 0 64 (ld 1 0 64 base)) ∧ HoldsLength 1 64 (ld 0 0 64 (ld 1 0 64 base)) ∧
      feistel Config.candidate (toBits (0 : Word)) (toBits (0 : Word)) =
        .ok (toBits (0x8CA64DE9C1B123A7 : Word)) ∧
      feistel badIp (toBits (0 : Word)) (toBits (0 : Word)) = .error .invalidPermutationTable ∧
      ¬ HoldsLength 1 64 (ld 1 0 63 base) := by decide +kernel

/-- The tables of the witness of FBLOCK, in the hypotheses of the stepped block. -/
theorem witness_SteppedBlockEqualsFblock :
    base.err = 0 ∧ ∃ t, exec (.fblock 2 0 1) (ld 0 0 64 (ld 1 0 64 base)) = .next t ∧ t.err = 0 :=
  ⟨by decide, _, rfl, by decide +kernel⟩

theorem witness_KclrEmptiesTheKeyRing :
    base.dpn = 0 ∧ ({ base with dpn := 1 } : State).dpn ≠ 0 := by decide

/-- Each clause, at the ends of the character range, the pack count and the ring. -/
theorem witness_KputcPacksAKeyCharacter :
    (0xFFFF : BitVec 32).toNat ≤ 0xFFFF ∧ 0xFFFF < (0x10000 : BitVec 32).toNat ∧
      ({ base with kpn := 2 } : State).kpn < 3 ∧ 3 ≤ ({ base with kpn := 3, nkb := 63 } : State).kpn ∧
      ({ base with kpn := 3, nkb := 63 } : State).nkb < 64 ∧
      64 ≤ ({ base with kpn := 3, nkb := 64 } : State).nkb ∧
      ({ base with dpn := 1 } : State).dpn ≠ 0 := by decide

theorem witness_KendEndsAKeyString :
    base.dpn = 0 ∧ base.kpn = 0 ∧ 0 < ({ base with kpn := 1, nkb := 63 } : State).kpn ∧
      ({ base with kpn := 1, nkb := 63 } : State).nkb < 64 ∧
      64 ≤ ({ base with kpn := 1, nkb := 64 } : State).nkb ∧
      ({ base with dpn := 1 } : State).dpn ≠ 0 := by decide

/-- The hypotheses of a completed block: a block that the cascade answers (an empty ring), one on
which it fails, and no room. -/
theorem witness_DataBlockEncrypted :
    base.ocnt + 16 ≤ 2048 ∧
      cascadeFold Config.candidate (keyRing base) (toBits (5 : Word)) = .ok (toBits (5 : Word)) ∧
      cascadeFold badIp (keyRing { base with kbm := [(0, 0)], nkb := 1 }) (toBits (5 : Word)) =
        .error .invalidPermutationTable ∧
      2048 < ({ base with ocnt := 2048 } : State).ocnt + 16 := by decide +kernel

theorem witness_DputcPacksADataCharacter :
    base.kpn = 0 ∧ ({ base with dpn := 2 } : State).dpn < 3 ∧ 3 ≤ ({ base with dpn := 3 } : State).dpn ∧
      (0xFFFF : BitVec 32).toNat ≤ 0xFFFF ∧ 0xFFFF < (0x10000 : BitVec 32).toNat ∧
      ({ base with kpn := 1 } : State).kpn ≠ 0 := by decide

theorem witness_DendEndsThePlaintext :
    base.kpn = 0 ∧ base.dpn = 0 ∧ 0 < ({ base with dpn := 1 } : State).dpn ∧
      ({ base with kpn := 1 } : State).kpn ≠ 0 := by decide

theorem witness_CascEncryptsUnderTheKeyRing :
    base.kpn = 0 ∧ HoldsLength 0 64 (ld 0 5 64 base) ∧
      cascadeFold Config.candidate (keyRing (ld 0 5 64 base)) (toBits (5 : Word)) =
        .ok (toBits (5 : Word)) ∧
      ¬ HoldsLength 0 64 (ld 0 5 65 base) ∧ ({ base with kpn := 1 } : State).kpn ≠ 0 := by
  decide +kernel

/-- A ring of two strings: "abcd" and "1". -/
theorem witness_KeyLoadFillsKbmWithTheFlattenedRing :
    base.err = 0 ∧ base.dpn = 0 ∧ keyRingBlocks [[0x61, 0x62, 0x63, 0x64], [0x31]] =
      .ok [toBits (0x0061006200630064 : Word), toBits (0x0031000000000000 : Word)] := by
  decide +kernel

/-- An empty ring with one block of text (row K13), and a text with a character above 0xFFFF. -/
theorem witness_EncryptSequenceComputesEncrypt :
    encrypt Config.candidate [0x41] [] = .ok ([0x30, 0x30, 0x34, 0x31] ++ List.replicate 12 0x30) ∧
      16 * blockCount 1 ≤ 2048 ∧
      encrypt Config.candidate [0x10000] [] = .error .invalidCharacter ∧
      ¬ 16 * blockCount 513 ≤ 2048 := by decide +kernel

theorem witness_OnlyNamedCommandsWriteKeysAndMemories :
    ∃ t, exec (.kputc 0x78) midCall = .next t ∧
      (∃ u, exec .kend t = .next u ∧ u.kbm ≠ t.kbm) := ⟨_, rfl, _, rfl, by decide⟩

theorem witness_CommandsLeaveOtherRegistersAlone :
    ∃ t, exec (.b2i 2 1) (ld 1 5 3 base) = .next t ∧ t.reg 2 ≠ (ld 1 5 3 base).reg 2 :=
  ⟨_, rfl, by decide +kernel⟩

theorem witness_BusWhileBusy :
    ({ base with seq := .executing 0 5 } : State).busy = true ∧
      (0x007 : Offset) &&& 0xFF8 = 0x000 ∧ (0x017 : Offset) &&& 0xFF8 = 0x010 := by decide

theorem witness_HostAccessIsOneStep :
    ({ base with host := [.read 0x800] } : State).busy = false ∧
      ({ base with host := [.read 0x800] } : State).host = .read 0x800 :: [] ∧
      ({ base with host := [.write 0x100 7] } : State).host = .write 0x100 7 :: [] := by decide

theorem witness_CmdWriteLatchesTheCommand :
    base.busy = false ∧ (0x00F : Offset) &&& 0xFF8 = 0x008 := by decide

/-- A busy engine and an idle one, with the three W1C bits set. -/
theorem witness_StatusHoldsItsFields :
    busRead 0x010 { base with seq := .executing 0 5, wbusy := true } = 0x5 ∧
      busRead 0x010 { base with done := true, wbusy := true, rej := true } = 0xE := by decide

theorem witness_bus_of_an_idle_engine : base.busy = false := by decide

/-- The two ends of each gap, and offsets on both sides that are no gap. -/
theorem witness_UnmappedOffsetsReadZeroAndIgnoreWrites :
    [0x050, 0x0FF, 0x180, 0x1FF, 0x280, 0x3FF, 0x600, 0x7FF].all (fun o =>
      let a := o / 8 * 8
      decide (0x050 ≤ a ∧ a ≤ 0x0F8 ∨ 0x180 ≤ a ∧ a ≤ 0x1F8 ∨ 0x280 ≤ a ∧ a ≤ 0x3F8 ∨
        0x600 ≤ a ∧ a ≤ 0x7F8)) = true := by decide

theorem witness_ReadOnlyRegistersShowTheState :
    (0x007 : Offset) &&& 0xFF8 = 0x000 ∧ 0x020 ≤ (0x020 : Offset).toNat ∧
      (0x0FF : Offset).toNat < 0x100 ∧ 0x180 ≤ (0xFFF : Offset).toNat := by decide

theorem witness_ResetAbandonsTheCommandInFlight :
    ({ base with seq := .executing 0x46 1, host := [.rst] } : State).host = .rst :: [] ∧
      ∀ w, ({ base with seq := .executing 0x46 1, host := [.rst] } : State).seq ≠
        .executing w 0 := ⟨rfl, fun w => by simp⟩

end Sys2Proof.Machine.Slice0
end

section
/-! PROOFS. The host's registers (10_state.md): fields of register words, the register map, accesses
to an idle engine, and the statements about VPAY, VLEN, STATUS, STREAM and CTRL. -/

namespace Sys2Proof.Machine

/-! ### Fields of a register word (R11) -/

/-- A field reads back from the word it was placed in. -/
theorem extractLsb'_fieldAt_same {w lo : Nat} (x : BitVec w) (h : lo + w ≤ 64) :
    (fieldAt lo x).extractLsb' lo w = x := by
  ext i hi
  rw [BitVec.getElem_extractLsb', fieldAt_inside x (by omega) (by omega) (by omega),
    Nat.add_sub_cancel_left, BitVec.getLsbD_eq_getElem hi]

/-- A stretch of bits that the field does not meet is 0. -/
theorem extractLsb'_fieldAt_apart {w lo a n : Nat} (x : BitVec w) (h : a + n ≤ lo ∨ lo + w ≤ a) :
    (fieldAt lo x).extractLsb' a n = 0#n := by
  ext i hi
  rw [BitVec.getElem_extractLsb', fieldAt_outside x (by omega), BitVec.getElem_zero]

/-- A flag reads back at its bit. -/
theorem getLsbD_fieldAt_ofBool {lo : Nat} (b : Bool) (h : lo < 64) :
    (fieldAt lo (BitVec.ofBool b)).getLsbD lo = b := by
  rw [fieldAt_inside _ h le_rfl (by omega), Nat.sub_self, BitVec.getLsbD_ofBool]
  exact Bool.true_and b

/-- A mask that is 0 where the field stands takes the whole field away. -/
theorem fieldAt_and_eq_zero {w lo : Nat} (x : BitVec w) {m : Word}
    (hm : m.extractLsb' lo w = 0#w) : fieldAt lo x &&& m = 0#64 := by
  ext i hi
  rw [BitVec.getElem_and, BitVec.getElem_zero]
  by_cases hin : lo ≤ i ∧ i < lo + w
  · have hbit : (m.extractLsb' lo w).getLsbD (i - lo) = m[i] := by
      rw [BitVec.getLsbD_extractLsb', Nat.add_sub_cancel' hin.1, BitVec.getLsbD_eq_getElem hi,
        decide_eq_true (by omega), Bool.true_and]
    rw [← hbit, hm, BitVec.getLsbD_zero, Bool.and_false]
  · rw [← BitVec.getLsbD_eq_getElem hi, fieldAt_outside x (by omega), Bool.false_and]

/-- Cutting a word to its low 7 bits is masking it. -/
theorem setWidth_seven_eq_and (x : Word) : (x.setWidth 7).setWidth 64 = x &&& 0x7F := by
  apply BitVec.eq_of_toNat_eq
  calc ((x.setWidth 7).setWidth 64).toNat
      = x.toNat % 2 ^ 7 := by simp only [BitVec.toNat_setWidth]; omega
    _ = x.toNat &&& (2 ^ 7 - 1) := (Nat.and_two_pow_sub_one_eq_mod _ 7).symm
    _ = (x &&& 0x7F).toNat := (BitVec.toNat_and x 0x7F).symm

/-! ### The STATUS, CTRL and STREAM words (R37-R39) -/

section Words

variable (s : State)

theorem statusWord_flags :
    (statusWord s).getLsbD 0 = s.busy ∧ (statusWord s).getLsbD 1 = s.done ∧
      (statusWord s).getLsbD 2 = s.wbusy ∧ (statusWord s).getLsbD 3 = s.rej ∧
      (statusWord s).getLsbD 29 = s.fact := by
  simp (disch := omega) only [statusWord, BitVec.getLsbD_or, getLsbD_fieldAt_ofBool,
    fieldAt_outside, Bool.or_false, Bool.false_or, and_self]

theorem statusWord_fields :
    (statusWord s).extractLsb' 8 4 = s.err ∧ (statusWord s).extractLsb' 16 8 = s.errop ∧
      (statusWord s).extractLsb' 24 5 = BitVec.ofNat 5 s.round := by
  simp (disch := omega) only [statusWord, BitVec.extractLsb'_or, extractLsb'_fieldAt_same,
    extractLsb'_fieldAt_apart, BitVec.or_zero, BitVec.zero_or, and_self]

theorem statusWord_reserved : statusWord s &&& 0xFFFFFFFFC000F0F0 = 0#64 := by
  simp (disch := decide) only [statusWord, BitVec.and_or_distrib_right, fieldAt_and_eq_zero,
    BitVec.or_zero]

theorem ctrlWord_eq : ctrlWord s = if s.ie then 1 else 0 := by
  unfold ctrlWord
  cases s.ie <;> rfl

theorem ctrlWord_ie : (ctrlWord s).getLsbD 0 = s.ie := getLsbD_fieldAt_ofBool s.ie (by decide)

theorem streamWord_fields :
    (streamWord s).extractLsb' 0 8 = BitVec.ofNat 8 s.nkb ∧
      (streamWord s).extractLsb' 8 3 = BitVec.ofNat 3 s.kpn ∧
      (streamWord s).extractLsb' 12 3 = BitVec.ofNat 3 s.dpn ∧
      (streamWord s).extractLsb' 16 12 = BitVec.ofNat 12 s.ocnt := by
  simp (disch := omega) only [streamWord, BitVec.extractLsb'_or, extractLsb'_fieldAt_same,
    extractLsb'_fieldAt_apart, BitVec.or_zero, BitVec.zero_or, and_self]

theorem streamWord_reserved : streamWord s &&& 0xFFFFFFFFF0008800 = 0#64 := by
  simp (disch := decide) only [streamWord, BitVec.and_or_distrib_right, fieldAt_and_eq_zero,
    BitVec.or_zero]

end Words

/-! ### The register map (R21) and bus accesses

`busRead`, `readReg` and `writeReg` are opened by `delta` and `rfl`: `rw` would have Lean build their
equation lemmas, which waits for the kernel's check of the tests above in one more thread, and the
stacks of the waiting threads are what the check's memory limit counts. -/

theorem regAt_status : regAt 0x010 = .status := by decide

theorem regAt_ctrl : regAt 0x018 = .ctrl := by decide

theorem regAt_stream : regAt 0x020 = .stream := by decide

theorem regAt_vpay : ∀ n : VIndex, regAt (BitVec.ofNat 12 (0x100 + 16 * n.val)) = .vpay n := by
  decide

theorem regAt_vlen : ∀ n : VIndex, regAt (BitVec.ofNat 12 (0x108 + 16 * n.val)) = .vlen n := by
  decide

theorem busRead_of_idle {s : State} (h : s.busy = false) (o : Offset) :
    busRead o s = readReg (regAt o) s := by
  delta busRead
  rw [h]

theorem busWrite_of_idle {s : State} (h : s.busy = false) (o : Offset) (x : Word) :
    busWrite o x s = writeReg (regAt o) x s :=
  if_neg (Bool.eq_false_iff.mp h)

/-- STATUS reads as it is, busy or idle (R37, R282). -/
theorem busRead_status (s : State) : busRead 0x010 s = statusWord s := by
  delta busRead
  rw [regAt_status]
  cases s.busy <;> rfl

theorem busRead_ctrl {s : State} (h : s.busy = false) : busRead 0x018 s = ctrlWord s := by
  rw [busRead_of_idle h, regAt_ctrl]
  rfl

theorem busRead_stream {s : State} (h : s.busy = false) : busRead 0x020 s = streamWord s := by
  rw [busRead_of_idle h, regAt_stream]
  rfl

theorem busRead_vpay {s : State} (h : s.busy = false) (n : VIndex) :
    busRead (BitVec.ofNat 12 (0x100 + 16 * n.val)) s = (s.reg n).pay := by
  rw [busRead_of_idle h, regAt_vpay]
  rfl

theorem busRead_vlen {s : State} (h : s.busy = false) (n : VIndex) :
    busRead (BitVec.ofNat 12 (0x108 + 16 * n.val)) s = (s.reg n).len.setWidth 64 := by
  rw [busRead_of_idle h, regAt_vlen]
  rfl

theorem busWrite_status {s : State} (h : s.busy = false) (x : Word) :
    busWrite 0x010 x s = clearStatusBits x s := by
  rw [busWrite_of_idle h, regAt_status]
  rfl

theorem busWrite_ctrl {s : State} (h : s.busy = false) (x : Word) :
    busWrite 0x018 x s = { s with ie := x.getLsbD 0 } := by
  rw [busWrite_of_idle h, regAt_ctrl]
  rfl

theorem busWrite_stream {s : State} (h : s.busy = false) (x : Word) : busWrite 0x020 x s = s := by
  rw [busWrite_of_idle h, regAt_stream]
  rfl

theorem busWrite_vpay {s : State} (h : s.busy = false) (n : VIndex) (x : Word) :
    busWrite (BitVec.ofNat 12 (0x100 + 16 * n.val)) x s =
      s.setV n { pay := x, len := (s.reg n).len } := by
  rw [busWrite_of_idle h, regAt_vpay]
  rfl

theorem busWrite_vlen {s : State} (h : s.busy = false) (n : VIndex) (x : Word) :
    busWrite (BitVec.ofNat 12 (0x108 + 16 * n.val)) x s =
      s.setV n { pay := (s.reg n).pay, len := x.setWidth 7 } := by
  rw [busWrite_of_idle h, regAt_vlen]
  rfl

/-! ### The statements about the host's registers -/

/-- Settles O53: each write is one `setV`, which leaves the engine idle and is what the read sees. -/
theorem vectorRegistersReadBack : Obligations.VectorRegistersReadBack := by
  intro n x s hidle
  dsimp only
  have hstill (y : VReg) : (s.setV n y).busy = false := (s.setV_busy n y).trans hidle
  rw [busWrite_vpay hidle, busWrite_vlen hidle, busRead_vpay (hstill _), busRead_vlen (hstill _),
    setV_reg_same, setV_reg_same]
  exact ⟨rfl, rfl, rfl, setWidth_seven_eq_and x⟩

/-- Settles O54: STATUS reads as `statusWord`, field by field, and its write is `clearStatusBits`. -/
theorem statusHoldsItsFields : Obligations.StatusHoldsItsFields := by
  intro s
  rw [busRead_status]
  obtain ⟨hbusy, hdone, hwbusy, hrej, hfact⟩ := statusWord_flags s
  obtain ⟨herr, herrop, hround⟩ := statusWord_fields s
  exact ⟨⟨hbusy, hdone, hwbusy, hrej⟩, ⟨herr, herrop, hround, hfact⟩, statusWord_reserved s,
    fun x hidle => busWrite_status hidle x⟩

/-- Settles O55: STREAM and CTRL read as their words, and the interrupt line is their two bits. -/
theorem streamAndCtrlHoldTheirFields : Obligations.StreamAndCtrlHoldTheirFields := by
  intro s hidle
  rw [busRead_stream hidle, busRead_ctrl hidle, busRead_status]
  obtain ⟨hnkb, hkpn, hdpn, hocnt⟩ := streamWord_fields s
  obtain ⟨-, hdone, -⟩ := statusWord_flags s
  have hirq : irq s = ((ctrlWord s).getLsbD 0 && (statusWord s).getLsbD 1) := by
    rw [ctrlWord_ie, hdone]
    rfl
  exact ⟨⟨hnkb, hkpn, hdpn, hocnt, streamWord_reserved s⟩, ctrlWord_eq s,
    fun x => ⟨busWrite_ctrl hidle x, busWrite_stream hidle x⟩, hirq⟩

end Sys2Proof.Machine
end

section
/-! PROOFS. The bus map (20_memory.md): which word an offset reaches, the gaps of the map, and the
output window. -/

namespace Sys2Proof.Machine

/-! ### The word an offset reaches (R62) -/

/-- The mask `0xFF8` clears bits 2:0 and keeps the rest. -/
theorem and_FF8_eq_shift (o : Offset) : o &&& 0xFF8 = (o >>> 3) <<< 3 :=
  (BitVec.shiftLeft_ushiftRight (x := o) (n := 3)).symm

/-- A word address is the offset rounded down to a multiple of 8. -/
theorem wordAddress_eq (o : Offset) : wordAddress o = o.toNat / 8 * 8 := by
  have hlt : o.toNat < 4096 := o.isLt
  calc wordAddress o
      = ((o >>> 3) <<< 3).toNat := congrArg BitVec.toNat (and_FF8_eq_shift o)
    _ = o.toNat / 8 * 8 % 4096 := by
      rw [BitVec.toNat_shiftLeft, BitVec.toNat_ushiftRight, Nat.shiftRight_eq_div_pow,
        Nat.shiftLeft_eq]
    _ = o.toNat / 8 * 8 := Nat.mod_eq_of_lt (by omega)

/-- An aligned offset of the window is its own word address. -/
theorem wordAddress_ofNat {a : Nat} (hlt : a < 4096) (haligned : a % 8 = 0) :
    wordAddress (BitVec.ofNat 12 a) = a := by
  rw [wordAddress_eq, BitVec.toNat_ofNat, Nat.mod_eq_of_lt hlt]
  omega

theorem wordAddress_and_FF8 (o : Offset) : wordAddress (o &&& 0xFF8) = wordAddress o := by
  have hidem : o &&& 0xFF8 &&& 0xFF8 = o &&& 0xFF8 := by rw [BitVec.and_assoc, BitVec.and_self]
  exact congrArg BitVec.toNat hidem

/-- The register map reads an offset through its word address alone. -/
theorem regAt_congr {o p : Offset} (h : wordAddress o = wordAddress p) : regAt o = regAt p := by
  delta regAt
  rw [h]

theorem regAt_and_FF8 (o : Offset) : regAt (o &&& 0xFF8) = regAt o :=
  regAt_congr (wordAddress_and_FF8 o)

/-! ### Registers, gaps and the output window in the map (R21)

The two depths are opened by `delta`, which reaches the tests' `Decidable` instances as well; `simp`
would leave them there, and `if_neg` would not meet its pattern. -/

theorem regAt_cmd : regAt 0x008 = .cmd := by decide

/-- The words of the four gaps 0x050-0x0FF, 0x180-0x1FF, 0x280-0x3FF and 0x600-0x7FF (R21). -/
def InGap (a : Nat) : Prop :=
  0x050 ≤ a ∧ a ≤ 0x0F8 ∨ 0x180 ≤ a ∧ a ≤ 0x1F8 ∨ 0x280 ≤ a ∧ a ≤ 0x3F8 ∨ 0x600 ≤ a ∧ a ≤ 0x7F8

/-- No range of the register map meets a gap. -/
theorem regAt_of_gap {o : Offset} (h : InGap (wordAddress o)) : regAt o = .unmapped := by
  unfold InGap at h
  delta regAt Config.KB_DEPTH Config.OCM_SIZE
  simp (disch := omega) only [if_neg]

/-- The output window is the last range of the map, and word m is 8m bytes into it. -/
theorem regAt_ocmw {m : Nat} (hm : m < 256) :
    regAt (BitVec.ofNat 12 (0x800 + 8 * m)) = .ocmw m := by
  have haddr := wordAddress_ofNat (a := 0x800 + 8 * m) (by omega) (by omega)
  have hindex : (0x800 + 8 * m - 0x800) / 8 = m := by omega
  delta regAt Config.KB_DEPTH Config.OCM_SIZE
  simp (disch := omega) only [haddr, if_neg, if_pos, hindex]

theorem busRead_cmd {s : State} (h : s.busy = false) : busRead 0x008 s = 0 := by
  rw [busRead_of_idle h, regAt_cmd]
  rfl

theorem busRead_of_gap {o : Offset} {s : State} (h : s.busy = false)
    (hgap : InGap (wordAddress o)) : busRead o s = 0 := by
  rw [busRead_of_idle h, regAt_of_gap hgap]
  rfl

theorem busWrite_of_gap {o : Offset} {s : State} (h : s.busy = false)
    (hgap : InGap (wordAddress o)) (x : Word) : busWrite o x s = s := by
  rw [busWrite_of_idle h, regAt_of_gap hgap]
  rfl

theorem busRead_ocmw {s : State} {m : Nat} (h : s.busy = false) (hm : m < 256) :
    busRead (BitVec.ofNat 12 (0x800 + 8 * m)) s = ocmWord m s := by
  rw [busRead_of_idle h, regAt_ocmw hm]
  rfl

/-- Byte lane 7 - j of an output word is its byte j (R66): of the eight fields only the one placed
at bit 8 * (7 - j) meets the lane. -/
theorem ocmWord_lane (s : State) (m : Nat) {j : Nat} (hj : j < 8) :
    (ocmWord m s).extractLsb' (8 * (7 - j)) 8 = ocmRead (8 * m + j) s := by
  interval_cases j <;>
    simp (disch := omega) only [ocmWord, BitVec.extractLsb'_or, extractLsb'_fieldAt_same,
      extractLsb'_fieldAt_apart, BitVec.or_zero, BitVec.zero_or, Nat.add_zero]

/-! ### The statements about the bus map -/

/-- Settles O56: a gap is unmapped at every offset of its words, and CMD has no read value. -/
theorem unmappedOffsetsReadZeroAndIgnoreWrites :
    Obligations.UnmappedOffsetsReadZeroAndIgnoreWrites := by
  intro o x s hidle
  refine ⟨busRead_cmd hidle, fun hrange => ?_⟩
  have hgap : InGap (wordAddress o) := (wordAddress_eq o).symm ▸ hrange
  exact ⟨busRead_of_gap hidle hgap, busWrite_of_gap hidle hgap x⟩

/-- Settles O58: the window's offset reaches output word m, whose lanes are its bytes. -/
theorem outputWindowIsBigEndian : Obligations.OutputWindowIsBigEndian := by
  intro s m j hidle hm hj
  rw [busRead_ocmw hidle hm]
  exact ocmWord_lane s m hj

/-- Settles O49: an access depends on its offset through `regAt` only, and a write to a busy engine
not even on that. -/
theorem offsetBitsTwoToZeroAreIgnored : Obligations.OffsetBitsTwoToZeroAreIgnored := by
  intro o s
  constructor
  · intro hidle
    rw [busRead_of_idle hidle, busRead_of_idle hidle, regAt_and_FF8]
  · intro x
    delta busWrite
    rw [regAt_and_FF8]

end Sys2Proof.Machine
end

section
/-! PROOFS. The opcode table (30_encoding.md R83): a command word cut into the stretches of R81, what
each row's mask keeps of them, when the decoder answers, and the statement that joins the two. -/

namespace Sys2Proof

/-! ### A command word stretch by stretch (R81) -/

/-- Two words that agree on a stretch agree on each of its bits. -/
theorem getLsbD_eq_of_extractLsb'_eq {w x : Word} {lo n i : Nat}
    (h : w.extractLsb' lo n = x.extractLsb' lo n) (hlo : lo ≤ i := by omega)
    (hhi : i < lo + n := by omega) : w.getLsbD i = x.getLsbD i := by
  have hbit := congrArg (fun f => f.getLsbD (i - lo)) h
  simpa only [BitVec.getLsbD_extractLsb', Nat.add_sub_cancel' hlo,
    decide_eq_true (show i - lo < n by omega), Bool.true_and] using hbit

/-- The reserved bits 11, 15, 19 and 31:24 are 0. -/
theorem reservedClear_iff (w : Word) :
    reservedClear w = true ↔ w.extractLsb' 11 1 = 0#1 ∧ w.extractLsb' 15 1 = 0#1 ∧
      w.extractLsb' 19 1 = 0#1 ∧ w.extractLsb' 24 8 = 0#8 := by
  delta reservedClear
  simp only [Bool.and_eq_true, beq_iff_eq, and_assoc]
  rfl

theorem unusedClear_iff (u : UsedFields) (w : Word) :
    unusedClear u w = true ↔ (u.vd || vdField w == 0) = true ∧ (u.vs1 || vs1Field w == 0) = true ∧
      (u.vs2 || vs2Field w == 0) = true ∧ (u.tbl || tblField w == 0) = true ∧
      (u.imm || immField w == 0) = true := by
  delta unusedClear
  simp only [Bool.and_eq_true, and_assoc]

/-- The fields and the reserved stretches of R81 cover all 64 bits, so a word is assembled from the
fields it holds iff its reserved bits are 0. -/
theorem eq_commandWord_iff {w : Word} {op : Byte} {vd vs1 vs2 : BitVec 3} {tbl : BitVec 4}
    {imm : BitVec 32} :
    w = commandWord op vd vs1 vs2 tbl imm ↔
      opField w = op ∧ reservedClear w = true ∧ vdField w = vd ∧ vs1Field w = vs1 ∧
        vs2Field w = vs2 ∧ tblField w = tbl ∧ immField w = imm := by
  constructor
  · rintro rfl
    simp only [opField_commandWord, reservedClear_commandWord, vdField_commandWord,
      vs1Field_commandWord, vs2Field_commandWord, tblField_commandWord, immField_commandWord,
      and_self]
  · rintro ⟨hop, hreserved, hvd, hvs1, hvs2, htbl, himm⟩
    obtain ⟨h11, h15, h19, h24⟩ := (reservedClear_iff w).mp hreserved
    obtain ⟨g11, g15, g19, g24⟩ :=
      (reservedClear_iff _).mp (reservedClear_commandWord op vd vs1 vs2 tbl imm)
    apply BitVec.eq_of_getLsbD_eq
    intro i hi
    have hcover : i < 8 ∨ (8 ≤ i ∧ i < 11) ∨ i = 11 ∨ (12 ≤ i ∧ i < 15) ∨ i = 15 ∨
      (16 ≤ i ∧ i < 19) ∨ i = 19 ∨ (20 ≤ i ∧ i < 24) ∨ (24 ≤ i ∧ i < 32) ∨ 32 ≤ i := by omega
    rcases hcover with h | h | h | h | h | h | h | h | h | h
    · exact getLsbD_eq_of_extractLsb'_eq (hop.trans (opField_commandWord ..).symm)
    · exact getLsbD_eq_of_extractLsb'_eq (hvd.trans (vdField_commandWord ..).symm)
    · exact getLsbD_eq_of_extractLsb'_eq (h11.trans g11.symm)
    · exact getLsbD_eq_of_extractLsb'_eq (hvs1.trans (vs1Field_commandWord ..).symm)
    · exact getLsbD_eq_of_extractLsb'_eq (h15.trans g15.symm)
    · exact getLsbD_eq_of_extractLsb'_eq (hvs2.trans (vs2Field_commandWord ..).symm)
    · exact getLsbD_eq_of_extractLsb'_eq (h19.trans g19.symm)
    · exact getLsbD_eq_of_extractLsb'_eq (htbl.trans (tblField_commandWord ..).symm)
    · exact getLsbD_eq_of_extractLsb'_eq (h24.trans g24.symm)
    · exact getLsbD_eq_of_extractLsb'_eq (himm.trans (immField_commandWord ..).symm)

/-! ### The rows of the opcode table (R83) -/

/-- What a row's mask keeps of a field: nothing of a field that the command uses, all of another. -/
def fieldMask (n : Nat) (used : Bool) : BitVec n := if used then 0#n else BitVec.allOnes n

/-- A stretch of a word under a mask that keeps or drops it as a field: it is 0 iff the command uses
the field or the word has 0 there. -/
theorem extractLsb'_and_eq_zero_iff {w mask : Word} {lo n : Nat} {used : Bool}
    (h : mask.extractLsb' lo n = fieldMask n used) :
    (w &&& mask).extractLsb' lo n = 0#n ↔ (used || w.extractLsb' lo n == 0#n) = true := by
  rw [BitVec.extractLsb'_and, h]
  cases used
  · show _ &&& BitVec.allOnes n = 0#n ↔ _
    rw [BitVec.and_allOnes, Bool.false_or, beq_iff_eq]
  · show _ &&& 0#n = 0#n ↔ _
    simp only [BitVec.and_zero, Bool.true_or]

/-- A row's match is its opcode, every other bit 0. -/
theorem matchMask_match (m : Mnemonic) :
    m.matchMask.1 = commandWord m.code 0#3 0#3 0#3 0#4 0#32 := by
  cases m <;> decide

/-- A row's mask keeps the opcode and the fields that the command does not use. -/
theorem matchMask_mask_fields (m : Mnemonic) :
    opField m.matchMask.2 = BitVec.allOnes 8 ∧
      vdField m.matchMask.2 = fieldMask 3 m.uses.vd ∧
      vs1Field m.matchMask.2 = fieldMask 3 m.uses.vs1 ∧
      vs2Field m.matchMask.2 = fieldMask 3 m.uses.vs2 ∧
      tblField m.matchMask.2 = fieldMask 4 m.uses.tbl ∧
      immField m.matchMask.2 = fieldMask 32 m.uses.imm := by
  cases m <;> decide

/-- Every row's mask keeps the reserved bits. -/
theorem matchMask_mask_reserved (m : Mnemonic) :
    m.matchMask.2.extractLsb' 11 1 = BitVec.allOnes 1 ∧
      m.matchMask.2.extractLsb' 15 1 = BitVec.allOnes 1 ∧
      m.matchMask.2.extractLsb' 19 1 = BitVec.allOnes 1 ∧
      m.matchMask.2.extractLsb' 24 8 = BitVec.allOnes 8 := by
  cases m <;> decide

theorem opField_and_mask (w : Word) (m : Mnemonic) : opField (w &&& m.matchMask.2) = opField w := by
  obtain ⟨hop, -⟩ := matchMask_mask_fields m
  exact BitVec.extractLsb'_and.trans ((congrArg _ hop).trans BitVec.and_allOnes)

theorem reservedClear_and_mask (w : Word) (m : Mnemonic) :
    reservedClear (w &&& m.matchMask.2) = true ↔ reservedClear w = true := by
  obtain ⟨h11, h15, h19, h24⟩ := matchMask_mask_reserved m
  simp only [reservedClear_iff, BitVec.extractLsb'_and, h11, h15, h19, h24, BitVec.and_allOnes]

/-- Under a row's mask a word has 0 in every field iff the fields that the command does not use are
0 in the word itself. -/
theorem fields_and_mask_eq_zero_iff (w : Word) (m : Mnemonic) :
    (vdField (w &&& m.matchMask.2) = 0#3 ∧ vs1Field (w &&& m.matchMask.2) = 0#3 ∧
      vs2Field (w &&& m.matchMask.2) = 0#3 ∧ tblField (w &&& m.matchMask.2) = 0#4 ∧
      immField (w &&& m.matchMask.2) = 0#32) ↔ unusedClear m.uses w = true := by
  obtain ⟨-, hvd, hvs1, hvs2, htbl, himm⟩ := matchMask_mask_fields m
  rw [unusedClear_iff]
  exact and_congr (extractLsb'_and_eq_zero_iff hvd) <|
    and_congr (extractLsb'_and_eq_zero_iff hvs1) <|
    and_congr (extractLsb'_and_eq_zero_iff hvs2) <|
    and_congr (extractLsb'_and_eq_zero_iff htbl) (extractLsb'_and_eq_zero_iff himm)

/-- A word meets a row's match and mask iff it has the row's opcode, and its reserved bits and unused
fields are 0 (R83 against R85). -/
theorem and_mask_eq_match_iff (w : Word) (m : Mnemonic) :
    w &&& m.matchMask.2 = m.matchMask.1 ↔
      opField w = m.code ∧ reservedClear w = true ∧ unusedClear m.uses w = true := by
  rw [matchMask_match, eq_commandWord_iff, opField_and_mask, reservedClear_and_mask,
    fields_and_mask_eq_zero_iff]

/-! ### When the decoder answers (R85) -/

theorem mnemonic_operandsOf (m : Mnemonic) (w : Word) : (operandsOf m w).mnemonic = m := by
  cases m <;> rfl

/-- Of the commands read from a word only PERM can be ill-formed, by its table id. -/
theorem wellFormed_operandsOf_iff (m : Mnemonic) (w : Word) :
    (operandsOf m w).WellFormed ↔ (m = .perm → (tblField w).toNat ≤ 6) := by
  cases m with
  | perm =>
    have htbl : (operandsOf .perm w).WellFormed ↔ (tblField w).toNat ≤ 6 := decide_eq_true_iff
    exact htbl.trans ⟨fun h _ => h, fun h => h rfl⟩
  | _ => exact iff_of_true rfl nofun

/-- The decoder answers a command iff the word has its opcode, passes the three checks and holds its
operands. -/
theorem decode_eq_ok_iff (w : Word) (i : Instr) :
    decode w = .ok i ↔ opField w = i.mnemonic.code ∧ reservedClear w = true ∧
      unusedClear i.mnemonic.uses w = true ∧ i.WellFormed ∧ operandsOf i.mnemonic w = i := by
  delta decode
  constructor
  · intro h
    split at h
    · cases h
    · next m hm =>
      split_ifs at h with hreserved hunused hwf
      obtain rfl : operandsOf m w = i := Except.ok.inj h
      rw [mnemonic_operandsOf]
      exact ⟨(ofCode_some hm).symm, Bool.of_not_eq_false hreserved, Bool.of_not_eq_false hunused,
        Bool.of_not_eq_false hwf, rfl⟩
  · rintro ⟨hop, hreserved, hunused, hwf, hi⟩
    simp only [hop, ofCode_code, hreserved, hunused, hi, hwf, Bool.true_eq_false, if_false]

/-- A word decodes to a command of a mnemonic iff it has the mnemonic's opcode and passes the three
checks. -/
theorem decodes_to_mnemonic_iff (w : Word) (m : Mnemonic) :
    (∃ i, decode w = .ok i ∧ i.mnemonic = m) ↔
      (opField w = m.code ∧ reservedClear w = true ∧ unusedClear m.uses w = true) ∧
        (operandsOf m w).WellFormed := by
  constructor
  · rintro ⟨i, hdecode, rfl⟩
    obtain ⟨hop, hreserved, hunused, hwf, hi⟩ := (decode_eq_ok_iff w i).mp hdecode
    exact ⟨⟨hop, hreserved, hunused⟩, hi.symm ▸ hwf⟩
  · rintro ⟨⟨hop, hreserved, hunused⟩, hwf⟩
    have hm := mnemonic_operandsOf m w
    refine ⟨operandsOf m w, (decode_eq_ok_iff w _).mpr ?_, hm⟩
    rw [hm]
    exact ⟨hop, hreserved, hunused, hwf, rfl⟩

/-! ### The statement about the opcode table -/

/-- Settles O12: a row's match and mask are the checks of opcode, reserved bits and unused fields,
and the limit on TBL is the well-formedness of the operands. -/
theorem decoderAgreesWithTheOpcodeTable : Obligations.DecoderAgreesWithTheOpcodeTable := by
  intro w m
  rw [decodes_to_mnemonic_iff, and_mask_eq_match_iff, wellFormed_operandsOf_iff]
  rfl

end Sys2Proof
end

section
/-! PROOFS. The bit codec (40_codec.md): the natural length of an integer, the integer of a stretch of
a vector, the sixteen characters of a block, and the statements about I2B, B2I and HEX. -/

namespace Sys2Proof.Machine

/-! ### Integers as vectors (R105, R106) -/

theorem naturalLength_eq_size (x : Nat) : naturalLength x = Nat.size x := by
  unfold naturalLength
  split_ifs with hx
  · rw [hx, Nat.size_zero]
  · apply le_antisymm
    · exact Nat.lt_size.mpr (Nat.log2_self_le hx)
    · exact Nat.size_le.mpr Nat.lt_log2_self

/-- The register image of an n-element vector of an integer that fits (R10, R26). -/
theorem regOfBits_bitsN {n x : Nat} (h : x < 2 ^ n) :
    regOfBits (bitsN n x) = { pay := BitVec.ofNat 64 x, len := BitVec.ofNat 7 n } := by
  unfold regOfBits ofBits
  rw [val_bitsN h, bitsN_length]

/-- The register image of the vector that I2B makes of an integer (R105, R111). -/
theorem regOfBits_intToBits (x m : Nat) :
    regOfBits (intToBits x m) =
      { pay := BitVec.ofNat 64 x, len := BitVec.ofNat 7 (max (Nat.size x) m) } := by
  unfold intToBits
  rw [naturalLength_eq_size]
  exact regOfBits_bitsN (Nat.size_le.mp (le_max_left _ _))

theorem valueOf_lt (n : VIndex) (s : State) : valueOf n s < 2 ^ (s.reg n).len.toNat :=
  Nat.mod_lt _ (Nat.two_pow_pos _)

/-- A register that may be read denotes an integer of at most 64 bits. -/
theorem size_valueOf_le {n : VIndex} {s : State} (h : Readable n s) :
    Nat.size (valueOf n s) ≤ 64 :=
  (Nat.size_le.mpr (valueOf_lt n s)).trans h

/-- A length of at most 64 fits its field (R24). -/
theorem toNat_ofNat_seven {l : Nat} (h : l ≤ 64) : (BitVec.ofNat 7 l).toNat = l :=
  Nat.mod_eq_of_lt (by omega)

/-- A register that was given an integer at a length it fits denotes that integer. -/
theorem valueOf_complete_setV {n : VIndex} {s : State} {x l : Nat} (hx : x < 2 ^ l)
    (hl : l ≤ 64) :
    valueOf n (complete (s.setV n { pay := BitVec.ofNat 64 x, len := BitVec.ofNat 7 l })) = x := by
  have hfits : x < 2 ^ 64 := hx.trans_le (Nat.pow_le_pow_right (by decide) hl)
  rw [valueOf, complete_reg, setV_reg_same, toNat_ofNat_seven hl, BitVec.toNat_ofNat,
    Nat.mod_eq_of_lt hfits, Nat.mod_eq_of_lt hx]

/-! ### The rules of I2B and B2I (R111, R114) -/

theorem i2bRule_of_fits (vd : VIndex) {vs1 : VIndex} {imm : BitVec 32} {s : State}
    (hread : Readable vs1 s) (himm : imm.toNat ≤ 64) :
    i2bRule vd vs1 imm s = .ok (s.setV vd
      { pay := BitVec.ofNat 64 (valueOf vs1 s)
        len := BitVec.ofNat 7 (max (Nat.size (valueOf vs1 s)) imm.toNat) }) := by
  unfold i2bRule immValue setv
  rw [vec_ok hread, ok_bind, if_neg (not_lt.mpr himm), val_denotes, regOfBits_intToBits]
  rfl

/-- Both checks of I2B raise the same error (R111). -/
theorem i2bRule_of_not_fits (vd : VIndex) {vs1 : VIndex} {imm : BitVec 32} {s : State}
    (h : ¬ (Readable vs1 s ∧ imm.toNat ≤ 64)) : i2bRule vd vs1 imm s = .error .invalidLength := by
  unfold i2bRule immValue
  rcases vec_cases vs1 s with ⟨hread, hvec⟩ | ⟨-, hvec⟩
  · have himm : 64 < imm.toNat := not_le.mp fun himm => h ⟨hread, himm⟩
    rw [hvec, ok_bind, if_pos himm]
  · rw [hvec, error_bind]

theorem b2iRule_of_readable (vd : VIndex) {vs1 : VIndex} {s : State} (hread : Readable vs1 s) :
    b2iRule vd vs1 s =
      .ok (s.setV vd { pay := BitVec.ofNat 64 (valueOf vs1 s), len := 64 }) := by
  have hfits : valueOf vs1 s < 2 ^ 64 :=
    (valueOf_lt vs1 s).trans_le (Nat.pow_le_pow_right (by decide) hread)
  unfold b2iRule bitsToInt setv
  rw [vec_ok hread, ok_bind, val_denotes, regOfBits_bitsN hfits]
  rfl

theorem b2iRule_of_not_readable (vd : VIndex) {vs1 : VIndex} {s : State} (h : ¬ Readable vs1 s) :
    b2iRule vd vs1 s = .error .invalidLength := by
  unfold b2iRule
  rw [vec_error (not_le.mp h), error_bind]

/-! ### The integer of a stretch of a vector (R9, R10) -/

theorem val_append (u v : Bits) : val (u ++ v) = val u * 2 ^ v.length + val v := by
  induction v using List.reverseRecOn with
  | nil => simp
  | append_singleton v b ih =>
    rw [← List.append_assoc, val_append_single, val_append_single, ih, List.length_append,
      List.length_singleton, Nat.pow_succ]
    ring

/-- A vector cut at element k: its integer has the first part above the rest, which fits below. -/
theorem val_cut (v : Bits) (k : Nat) :
    val v = 2 ^ (v.length - k) * val (v.take k) + val (v.drop k) ∧
      val (v.drop k) < 2 ^ (v.length - k) := by
  have hjoin := val_append (v.take k) (v.drop k)
  have hlow := val_lt (v.drop k)
  rw [List.take_append_drop, Nat.mul_comm] at hjoin
  rw [List.length_drop] at hjoin hlow
  exact ⟨hjoin, hlow⟩

theorem val_take (v : Bits) (k : Nat) : val (v.take k) = val v / 2 ^ (v.length - k) := by
  obtain ⟨hcut, hlow⟩ := val_cut v k
  rw [hcut, Nat.mul_add_div (Nat.two_pow_pos _), Nat.div_eq_of_lt hlow, Nat.add_zero]

theorem val_drop (v : Bits) (k : Nat) : val (v.drop k) = val v % 2 ^ (v.length - k) := by
  obtain ⟨hcut, hlow⟩ := val_cut v k
  rw [hcut, Nat.mul_add_mod, Nat.mod_eq_of_lt hlow]

/-- The integer of n elements from element i on. -/
theorem val_slice {v : Bits} {i n : Nat} (h : i + n ≤ v.length) :
    val (slice v i n) = val v / 2 ^ (v.length - i - n) % 2 ^ n := by
  have hsplit : 2 ^ (v.length - i) = 2 ^ (v.length - i - n) * 2 ^ n := by
    rw [← Nat.pow_add, Nat.sub_add_cancel (by omega)]
  rw [slice, val_take, val_drop, List.length_drop, hsplit, Nat.mod_mul_right_div_self]

/-! ### The sixteen characters of a block (R108, R109) -/

/-- The characters of a block are hex digits of its integer (R109). -/
theorem hexCharacter_eq_hexdigit (x j : Nat) :
    hexCharacter x j = hexdigit (x / 16 ^ (15 - j) % 16) :=
  apply_ite (BitVec.ofNat 8) _ _ _

theorem hex4_eq_map (y : Nat) :
    hex4 y = (List.range 4).map fun k => hexdigit (y / 16 ^ (3 - k) % 16) := by
  simp [hex4, List.range_succ]

/-- Digit b of the 16-bit group a of an integer is its digit 4a + b, both counted from the least
significant one. -/
theorem digit_of_group (x a : Nat) {b : Nat} (hb : b < 4) :
    x / 2 ^ (16 * a) % 2 ^ 16 / 16 ^ b % 16 = x / 16 ^ (4 * a + b) % 16 := by
  have hgroup : 2 ^ (16 * a) = 16 ^ (4 * a) := by
    rw [show 16 * a = 4 * (4 * a) by omega, Nat.pow_mul 2 4]
  have hsplit : 2 ^ 16 = 16 ^ b * 16 ^ (4 - b) :=
    (Nat.pow_mul 2 4 4).trans (pow_mul_pow_sub 16 hb.le).symm
  have hdvd : 16 ∣ 16 ^ (4 - b) := dvd_pow_self 16 (by omega)
  rw [hgroup, hsplit, Nat.mod_mul_right_div_self, Nat.mod_mod_of_dvd _ hdvd, Nat.div_div_eq_div_mul,
    Nat.pow_add]

/-- Character k of group g of a block is the block's character 4g + k (R108). -/
theorem hex4_slice {b : Bits} {g : Nat} (h : b.length = 64) (hg : g < 4) :
    hex4 (val (slice b (16 * g) 16)) =
      (List.range 4).map fun k => hexCharacter (val b) (4 * g + k) := by
  rw [val_slice (by omega), h, hex4_eq_map]
  apply List.map_congr_left
  intro k hk
  have hk : k < 4 := List.mem_range.mp hk
  rw [show 64 - 16 * g - 16 = 16 * (3 - g) by omega, digit_of_group _ _ (by omega),
    show 4 * (3 - g) + (3 - k) = 15 - (4 * g + k) by omega, hexCharacter_eq_hexdigit]

/-- `blocksToHex` of a block gives its hex characters, most significant first (R108). -/
theorem blocksToHex_of_length {b : Bits} (h : b.length = 64) :
    blocksToHex b = .ok ((List.range 16).map (hexCharacter (val b))) := by
  have hgroups : ((List.range 4).flatMap fun g => hex4 (val (slice b (16 * g) 16))) =
      (List.range 4).flatMap fun g =>
        (List.range 4).map fun k => hexCharacter (val b) (4 * g + k) :=
    List.flatMap_congr fun g hg => hex4_slice h (List.mem_range.mp hg)
  unfold blocksToHex
  rw [if_neg (not_not.mpr h)]
  exact congrArg Except.ok hgroups

/-- Writing the characters of a block from address `a` on appends its hex text there. -/
theorem appendsHex_memWriteAll (m : Mem Byte) (a x : Nat) :
    AppendsHex m (memWriteAll m a ((List.range 16).map (hexCharacter x))) a x := by
  intro b
  rw [memRead_memWriteAll, List.length_map, List.length_range]
  split_ifs with hb
  · have hlt : b - a < 16 := by omega
    rw [List.getElem?_map, List.getElem?_range hlt]
    rfl
  · rfl

/-! ### The rule of HEX (R115) -/

theorem vecOfLength_of_holds {len : Nat} {n : VIndex} {s : State} (h : HoldsLength n len s)
    (hl : len ≤ 64 := by decide) : vecOfLength len n s = .ok (denotes n s) := by
  rcases vecOfLength_cases hl n s with ⟨-, hok⟩ | ⟨hne, -⟩
  · exact hok
  · exact absurd h hne

theorem vecOfLength_of_not_holds {len : Nat} {n : VIndex} {s : State} (h : ¬ HoldsLength n len s)
    (hl : len ≤ 64 := by decide) : vecOfLength len n s = .error .invalidLength := by
  rcases vecOfLength_cases hl n s with ⟨heq, -⟩ | ⟨-, herror⟩
  · exact absurd heq h
  · exact herror

theorem checkOutputRoom_of_fits {s : State} (h : s.ocnt + 16 ≤ 2048) :
    checkOutputRoom s = .ok () :=
  if_neg (not_lt.mpr h)

theorem checkOutputRoom_of_full {s : State} (h : 2048 < s.ocnt + 16) :
    checkOutputRoom s = .error .outputFull :=
  if_pos h

theorem hexRule_of_fits {vs1 : VIndex} {s : State} (hlen : HoldsLength vs1 64 s)
    (hroom : s.ocnt + 16 ≤ 2048) :
    hexRule vs1 s =
      .ok (appendOutput ((List.range 16).map (hexCharacter (s.reg vs1).pay.toNat)) s) := by
  have hval : val (denotes vs1 s) = (s.reg vs1).pay.toNat := by
    rw [val_denotes, hlen, Nat.mod_eq_of_lt (s.reg vs1).pay.isLt]
  unfold hexRule
  rw [vecOfLength_of_holds hlen, ok_bind, checkOutputRoom_of_fits hroom, ok_bind,
    blocksToHex_of_length ((denotes_length vs1 s).trans hlen), hval]
  rfl

theorem hexRule_of_wrong_length {vs1 : VIndex} {s : State} (hlen : ¬ HoldsLength vs1 64 s) :
    hexRule vs1 s = .error .invalidLength := by
  unfold hexRule
  rw [vecOfLength_of_not_holds hlen, error_bind]

theorem hexRule_of_full {vs1 : VIndex} {s : State} (hlen : HoldsLength vs1 64 s)
    (hfull : 2048 < s.ocnt + 16) : hexRule vs1 s = .error .outputFull := by
  unfold hexRule
  rw [vecOfLength_of_holds hlen, ok_bind, checkOutputRoom_of_full hfull, error_bind]

/-! ### The statements about the bit codec -/

/-- Settles O20: I2B's rule, run as a command while no error is recorded. -/
theorem i2bConvertsAnInteger : Obligations.I2bConvertsAnInteger := by
  intro vd vs1 imm s herr
  exact ⟨fun ⟨hread, himm⟩ => runCommand_ok herr (i2bRule_of_fits vd hread himm),
    fun h => runCommand_error herr (i2bRule_of_not_fits vd h)⟩

/-- Settles O21: B2I's rule, run as a command while no error is recorded. -/
theorem b2iReadsAnInteger : Obligations.B2iReadsAnInteger := by
  intro vd vs1 s herr
  exact ⟨fun hread => runCommand_ok herr (b2iRule_of_readable vd hread),
    fun h => runCommand_error herr (b2iRule_of_not_readable vd h)⟩

/-- Settles O22: the length that I2B writes is at most 64 and enough for the integer, so B2I reads
the integer back. -/
theorem b2iAfterI2bReturnsTheInteger : Obligations.B2iAfterI2bReturnsTheInteger := by
  intro vd vs1 vr imm s herr hread himm
  have hlen : max (Nat.size (valueOf vs1 s)) imm.toNat ≤ 64 := max_le (size_valueOf_le hread) himm
  have hfits : valueOf vs1 s < 2 ^ max (Nat.size (valueOf vs1 s)) imm.toNat :=
    Nat.size_le.mp (le_max_left _ _)
  have hi2b := (i2bConvertsAnInteger vd vs1 imm s herr).1 ⟨hread, himm⟩
  generalize ht : complete (s.setV vd _) = t at hi2b
  have htlen : (t.reg vd).len.toNat = max (Nat.size (valueOf vs1 s)) imm.toNat := by
    rw [← ht, complete_reg, setV_reg_same, toNat_ofNat_seven hlen]
  have htval : valueOf vd t = valueOf vs1 s := ht ▸ valueOf_complete_setV hfits hlen
  have hterr : t.err = 0 := ht ▸ herr
  have hb2i := (b2iReadsAnInteger vr vd t hterr).1 (htlen.trans_le hlen)
  refine ⟨t, _, hi2b, hb2i, hterr, ?_, htlen.symm ▸ le_max_right _ _⟩
  rw [htval]
  exact valueOf_complete_setV (l := 64)
    (hfits.trans_le (Nat.pow_le_pow_right (by decide) hlen)) le_rfl

/-- Settles O23: HEX's rule appends the characters of the block as output, or fails one of its two
checks. -/
theorem hexAppendsSixteenCharacters : Obligations.HexAppendsSixteenCharacters := by
  intro vs1 s herr
  exact ⟨fun ⟨hlen, hroom⟩ => ⟨_, runCommand_ok herr (hexRule_of_fits hlen hroom),
      appendsHex_memWriteAll s.ocm s.ocnt _⟩,
    fun hlen => runCommand_error herr (hexRule_of_wrong_length hlen),
    fun ⟨hlen, hfull⟩ => runCommand_error herr (hexRule_of_full hlen hfull)⟩

end Sys2Proof.Machine
end

section
/-! PROOFS. The permutation engine (41_permutation.md): the register image of a vector element by
element, the table that a table id names, and the statements about PERM and XOR. -/

namespace Sys2Proof.Machine

/-! ### The register image of a vector (R26) -/

/-- Element i of a vector of n elements is payload bit n-1-i of its register image. -/
theorem ofBits_getLsbD_of_lt {w : Nat} {v : Bits} {i : Nat} (hv : v.length ≤ w)
    (hi : i < v.length) : (ofBits w v).getLsbD (v.length - 1 - i) = v.getD i false := by
  rw [BitVec.getLsbD, ofBits_toNat hv, val_testBit hi]

/-- The payload bits of a register image at and above the length are 0. -/
theorem ofBits_getLsbD_of_le {w : Nat} {v : Bits} {k : Nat} (hv : v.length ≤ w)
    (hk : v.length ≤ k) : (ofBits w v).getLsbD k = false := by
  rw [BitVec.getLsbD, ofBits_toNat hv]
  exact Nat.testBit_lt_two_pow ((val_lt v).trans_le (Nat.pow_le_pow_right (by decide) hk))

/-- The register image of the vector that a register denotes: its payload cut at its length. -/
theorem regOfBits_denotes (n : VIndex) (s : State) :
    regOfBits (denotes n s) =
      { pay := BitVec.ofNat 64 (valueOf n s), len := (s.reg n).len } := by
  rw [denotes, regOfBits_bitsN (valueOf_lt n s), BitVec.ofNat_toNat, BitVec.setWidth_eq]

/-! ### The table that a table id names (R84, R133) -/

theorem eq_of_toNat_le_six :
    ∀ tbl : BitVec 4, tbl.toNat ≤ 6 →
      tbl = 0 ∨ tbl = 1 ∨ tbl = 2 ∨ tbl = 3 ∨ tbl = 4 ∨ tbl = 5 ∨ tbl = 6 := by
  decide

/-- Each id up to 6 names the table that the rule of PERM takes, and no other id names one. -/
theorem tableOfId_iff {t : Config.Params} {len : Nat} {tbl : BitVec 4} {table : List Nat} :
    TableOfId t len tbl table ↔ tbl.toNat ≤ 6 ∧ table = tableOf t tbl len := by
  constructor
  · rintro (⟨rfl, h⟩ | ⟨rfl, h⟩ | ⟨rfl, h⟩ | ⟨rfl, h⟩ | ⟨rfl, h⟩ | ⟨rfl, h⟩ | ⟨rfl, h⟩) <;>
      exact ⟨by decide, h⟩
  · rintro ⟨hid, htable⟩
    rcases eq_of_toNat_le_six tbl hid with rfl | rfl | rfl | rfl | rfl | rfl | rfl
    · exact .inl ⟨rfl, htable⟩
    · exact .inr (.inl ⟨rfl, htable⟩)
    · exact .inr (.inr (.inl ⟨rfl, htable⟩))
    · exact .inr (.inr (.inr (.inl ⟨rfl, htable⟩)))
    · exact .inr (.inr (.inr (.inr (.inl ⟨rfl, htable⟩))))
    · exact .inr (.inr (.inr (.inr (.inr (.inl ⟨rfl, htable⟩)))))
    · exact .inr (.inr (.inr (.inr (.inr (.inr ⟨rfl, htable⟩)))))

/-- Every table of the map fits a register, IDENT because its input does (R133). -/
theorem tableOfId_length_le {t : Config.Params} {len : Nat} {tbl : BitVec 4} {table : List Nat}
    (h : TableOfId t len tbl table) (hlen : len ≤ 64) : table.length ≤ 64 := by
  rcases h with ⟨-, rfl⟩ | ⟨-, rfl⟩ | ⟨-, rfl⟩ | ⟨-, rfl⟩ | ⟨-, rfl⟩ | ⟨-, rfl⟩ | ⟨-, rfl⟩ <;>
    simp [hlen]

/-! ### The permute primitive (R130) -/

/-- Element i of a permuted vector is element T[i] of the input. -/
theorem permute_getD {table : List Nat} {v w : Bits} {i : Nat} (h : permute table v = .ok w)
    (hi : i < table.length) : w.getD i false = v.getD (table.getD i 0) false := by
  obtain ⟨-, rfl⟩ := permute_ok_iff.mp h
  rw [List.getD_eq_getElem _ _ (by rwa [List.length_map]), List.getElem_map,
    List.getD_eq_getElem _ _ hi]

/-- Element i of a permuted register image is element T[i] of the source register (R25, R26). -/
theorem permute_denotes_getLsbD {table : List Nat} {n : VIndex} {s : State} {w : Bits} {i : Nat}
    (h : permute table (denotes n s) = .ok w) (hfits : table.length ≤ 64)
    (hi : i < table.length) :
    (ofBits 64 w).getLsbD (table.length - 1 - i) =
      (s.reg n).pay.getLsbD ((s.reg n).len.toNat - 1 - table.getD i 0) := by
  obtain ⟨hbelow, -⟩ := permute_ok_iff.mp h
  have hentry : table.getD i 0 < (s.reg n).len.toNat := by
    rw [List.getD_eq_getElem _ _ hi, ← denotes_length]
    exact hbelow _ (List.getElem_mem hi)
  have hwlen := permute_length h
  rw [← denotes_getD hentry, ← permute_getD h hi, ← hwlen]
  exact ofBits_getLsbD_of_lt (hwlen.trans_le hfits) (hwlen.symm ▸ hi)

/-- IDENT gives the input back (R134). -/
theorem permute_range (v : Bits) : permute (List.range v.length) v = .ok v := by
  refine permute_ok_iff.mpr ⟨fun _ => List.mem_range.mp, List.ext_getElem (by simp) ?_⟩
  intro i hi _
  rw [List.getElem_map, List.getElem_range, List.getD_eq_getElem _ _ hi]

/-! ### The rule of PERM (R133) -/

/-- A source that may be read goes through `permute`, and what that answers is the rule's answer. -/
theorem permRule_of_readable (vd : VIndex) {vs1 : VIndex} {tbl : BitVec 4} {s : State}
    (hid : tbl.toNat ≤ 6) (hread : Readable vs1 s) :
    permRule vd vs1 tbl s =
      permute (tableOf s.params tbl (s.reg vs1).len.toNat) (denotes vs1 s) >>=
        fun w => .ok (setv vd w s) := by
  unfold permRule
  rw [if_neg (not_lt.mpr hid), vec_ok hread, ok_bind, denotes_length]
  rfl

theorem permRule_of_not_readable (vd : VIndex) {vs1 : VIndex} {tbl : BitVec 4} {s : State}
    (hid : tbl.toNat ≤ 6) (hlen : 64 < (s.reg vs1).len.toNat) :
    permRule vd vs1 tbl s = .error .invalidLength := by
  unfold permRule
  rw [if_neg (not_lt.mpr hid), vec_error hlen, error_bind]

/-! ### The rule of XOR (R136) -/

/-- The exclusive or of two vectors of one length is the vector of the integers' exclusive or. -/
theorem xorBits_bitsN (n x y : Nat) : xorBits (bitsN n x) (bitsN n y) = bitsN n (x ^^^ y) := by
  unfold xorBits bitsN
  rw [List.zipWith_map, List.zipWith_self]
  exact List.map_congr_left fun i _ => (Nat.testBit_xor x y _).symm

theorem xorBits_denotes {vs1 vs2 : VIndex} {s : State}
    (hlen : (s.reg vs2).len = (s.reg vs1).len) :
    xorBits (denotes vs1 s) (denotes vs2 s) = bitsN (s.reg vs1).len.toNat
      (((s.reg vs1).pay ^^^ (s.reg vs2).pay).toNat % 2 ^ (s.reg vs1).len.toNat) := by
  rw [denotes, denotes, hlen, xorBits_bitsN, BitVec.toNat_xor, Nat.xor_mod_two_pow]

theorem xorRule_of_fits (vd : VIndex) {vs1 vs2 : VIndex} {s : State} (hread : Readable vs1 s)
    (hlen : (s.reg vs2).len = (s.reg vs1).len) :
    xorRule vd vs1 vs2 s = .ok (s.setV vd
      { pay := BitVec.ofNat 64
          (((s.reg vs1).pay ^^^ (s.reg vs2).pay).toNat % 2 ^ (s.reg vs1).len.toNat)
        len := (s.reg vs1).len }) := by
  have hread2 : Readable vs2 s := (congrArg BitVec.toNat hlen).trans_le hread
  have hsame : (denotes vs1 s).length = (denotes vs2 s).length := by
    rw [denotes_length, denotes_length, hlen]
  unfold xorRule setv
  rw [vec_ok hread, ok_bind, vec_ok hread2, ok_bind, if_neg (not_not.mpr hsame), pure_eq_ok,
    xorBits_denotes hlen, regOfBits_bitsN (Nat.mod_lt _ (Nat.two_pow_pos _)), BitVec.ofNat_toNat,
    BitVec.setWidth_eq]

/-- All three checks of XOR raise the same error (R136). -/
theorem xorRule_of_not_fits (vd : VIndex) {vs1 vs2 : VIndex} {s : State}
    (h : ¬ (Readable vs1 s ∧ (s.reg vs2).len = (s.reg vs1).len)) :
    xorRule vd vs1 vs2 s = .error .invalidLength := by
  unfold xorRule
  rcases vec_cases vs1 s with ⟨hread, hvec⟩ | ⟨-, hvec⟩
  · rcases vec_cases vs2 s with ⟨-, hvec2⟩ | ⟨-, hvec2⟩
    · have hdiffer : (denotes vs1 s).length ≠ (denotes vs2 s).length := by
        rw [denotes_length, denotes_length]
        exact fun heq => h ⟨hread, BitVec.eq_of_toNat_eq heq.symm⟩
      rw [hvec, ok_bind, hvec2, ok_bind, if_pos hdiffer]
    · rw [hvec, ok_bind, hvec2, error_bind]
  · rw [hvec, error_bind]

/-! ### The statements about the permutation engine -/

/-- Settles O24: the table of the statement is the one that PERM's rule takes, and what the rule
answers is what `permute` answers on it. -/
theorem permRearrangesByTheTable : Obligations.PermRearrangesByTheTable := by
  intro vd vs1 tbl s herr
  dsimp only
  refine ⟨fun table htable => ?_, fun hwf => ?_, fun hread => ?_⟩
  · obtain ⟨hid, htableOf⟩ := tableOfId_iff.mp htable
    refine ⟨fun ⟨hread, hbelow⟩ => ?_,
      fun hlong => runCommand_error herr (permRule_of_not_readable vd hid hlong),
      fun ⟨hread, habove⟩ => ?_⟩
    · obtain ⟨w, hw⟩ : ∃ w, permute table (denotes vs1 s) = .ok w :=
        ⟨_, permute_ok_iff.mpr ⟨fun x hx => (denotes_length vs1 s).symm ▸ hbelow x hx, rfl⟩⟩
      have hrule : permRule vd vs1 tbl s = .ok (setv vd w s) := by
        rw [permRule_of_readable vd hid hread, ← htableOf, hw, ok_bind]
      have hfits : table.length ≤ 64 := tableOfId_length_le htable hread
      have hwlen : w.length = table.length := permute_length hw
      refine ⟨ofBits 64 w, ?_, hfits, fun i hi => permute_denotes_getLsbD hw hfits hi,
        fun k hk => ofBits_getLsbD_of_le (hwlen.trans_le hfits) (hwlen.trans_le hk)⟩
      rw [← hwlen]
      exact runCommand_ok herr hrule
    · have hfail : permute table (denotes vs1 s) = .error .invalidPermutationTable :=
        permute_error_iff.mpr ⟨rfl, (denotes_length vs1 s).symm ▸ habove⟩
      have hrule : permRule vd vs1 tbl s = .error .invalidPermutationTable := by
        rw [permRule_of_readable vd hid hread, ← htableOf, hfail, error_bind]
      exact runCommand_error herr hrule
  · exact ⟨_, tableOfId_iff.mpr ⟨of_decide_eq_true hwf, rfl⟩⟩
  · have hident : permute (tableOf s.params 6 (s.reg vs1).len.toNat) (denotes vs1 s) =
        .ok (denotes vs1 s) := denotes_length vs1 s ▸ permute_range (denotes vs1 s)
    have hrule : permRule vd vs1 6 s = .ok (setv vd (denotes vs1 s) s) := by
      rw [permRule_of_readable vd (by decide) hread, hident, ok_bind]
    rw [← regOfBits_denotes]
    exact runCommand_ok herr hrule

/-- Settles O26: XOR's rule, run as a command while no error is recorded. -/
theorem xorIsElementwise : Obligations.XorIsElementwise := by
  intro vd vs1 vs2 s herr
  exact ⟨fun ⟨hread, hlen⟩ => runCommand_ok herr (xorRule_of_fits vd hread hlen),
    fun h => runCommand_error herr (xorRule_of_not_fits vd h)⟩

end Sys2Proof.Machine
end

section
/-! PROOFS. The substitution engine (42_substitution.md): the elements of a group, what the
substitution of a list of groups answers, and the statement about SUBST.

As in the file about the host's registers, definitions are opened by `rfl`, `change` or `delta`, and
side conditions are given where a default would elaborate them: both keep the number of waiting
threads, and so the memory of the check, where it is. -/

namespace Sys2Proof.Machine

/-! ### The groups of a 48-element register (R150, R152, R153) -/

section Groups

variable {n : VIndex} {s : State} (hlen : HoldsLength n 48 s) (g : Fin 8)

include hlen

/-- Element k of group g of a 48-element register is the register's element 6g + k (R150). -/
theorem bitAt_slice_denotes {k : Nat} (hk : k < 6) :
    bitAt (slice (denotes n s) (6 * g.val) 6) k = element48 (s.reg n).pay (6 * g.val + k) := by
  have hin : 6 * g.val + k < (s.reg n).len.toNat := by omega
  change ((slice (denotes n s) (6 * g.val) 6).getD k false).toNat = _
  rw [slice_getD hk, denotes_getD hin, hlen]

theorem sboxRow_slice_denotes (t : Config.Params) :
    sboxRow t.weight (slice (denotes n s) (6 * g.val) 6) = rowOfGroup t (s.reg n).pay g.val := by
  delta sboxRow
  simp (disch := decide) only [bitAt_slice_denotes hlen, Nat.add_zero]

theorem sboxColumn_slice_denotes (t : Config.Params) :
    sboxColumn t.weight (slice (denotes n s) (6 * g.val) 6) =
      columnOfGroup t (s.reg n).pay g.val := by
  delta sboxColumn
  simp (disch := decide) only [bitAt_slice_denotes hlen]

end Groups

/-- A stretch of the second of two joined vectors. -/
theorem slice_append_right {u : Bits} {l : Nat} (hu : u.length = l) (v : Bits) (i n : Nat) :
    slice (u ++ v) (l + i) n = slice v i n :=
  hu ▸ congrArg (List.take n) (List.drop_length_add_append i)

/-! ### The substitution of a list of groups (R154, R155) -/

/-- The cell that group g of a vector is looked up in, or SBoxRange (R151-R154). -/
def groupCell (t : Config.Params) (m : Bits) (g : Fin 8) : Except Err (BitVec 4) :=
  sboxCell t.sbox[g] (sboxRow t.weight (slice m (6 * g.val) 6))
    (sboxColumn t.weight (slice m (6 * g.val) 6))

section Substitution

variable {t : Config.Params} {m w : Bits} {gs : List (Fin 8)}

theorem substGroups_cons (t : Config.Params) (m : Bits) (g : Fin 8) (gs : List (Fin 8)) :
    substGroups t m (g :: gs) =
      groupCell t m g >>= fun cell =>
        substGroups t m gs >>= fun rest => .ok (toBits cell ++ rest) :=
  rfl

/-- Substitution answers when every group has a cell. -/
theorem substGroups_of_cells (h : ∀ g ∈ gs, ∃ cell, groupCell t m g = .ok cell) :
    ∃ w, substGroups t m gs = .ok w := by
  induction gs with
  | nil => exact ⟨[], rfl⟩
  | cons g gs ih =>
    obtain ⟨cell, hcell⟩ := h g List.mem_cons_self
    obtain ⟨rest, hrest⟩ := ih fun g' hg' => h g' (List.mem_cons_of_mem g hg')
    exact ⟨toBits cell ++ rest, by rw [substGroups_cons, hcell, ok_bind, hrest, ok_bind]⟩

/-- The four elements at place i of a substitution are the cell of the list's group i (R155). -/
theorem substGroups_slice (h : substGroups t m gs = .ok w) {i : Nat} (hi : i < gs.length) :
    ∃ cell, groupCell t m gs[i] = .ok cell ∧ slice w (4 * i) 4 = toBits cell := by
  induction gs generalizing w i with
  | nil => exact absurd hi (Nat.not_lt_zero i)
  | cons g gs ih =>
    rw [substGroups_cons] at h
    obtain ⟨cell, hcell, h⟩ := bind_ok_iff.mp h
    obtain ⟨rest, hrest, hw⟩ := bind_ok_iff.mp h
    obtain rfl := Except.ok.inj hw
    have hfour : (toBits cell).length = 4 := toBits_length cell
    cases i with
    | zero => exact ⟨cell, hcell, List.take_left' hfour⟩
    | succ i =>
      obtain ⟨cell', hcell', hslice⟩ := ih hrest (Nat.lt_of_succ_lt_succ hi)
      refine ⟨cell', hcell', ?_⟩
      rw [← hslice, Nat.mul_succ, Nat.add_comm]
      exact slice_append_right hfour rest (4 * i) 4

/-- One group without a cell fails the substitution (R154). -/
theorem substGroups_of_error {g : Fin 8} {e : Err} (hg : g ∈ gs) (h : groupCell t m g = .error e) :
    substGroups t m gs = .error .sBoxRange := by
  cases hsubst : substGroups t m gs with
  | error e' => rw [substGroups_error hsubst]
  | ok w =>
    obtain ⟨i, hi, rfl⟩ := List.getElem_of_mem hg
    obtain ⟨cell, hcell, -⟩ := substGroups_slice hsubst hi
    rw [h] at hcell
    cases hcell

theorem subst_of_cells (h : ∀ g, ∃ cell, groupCell t m g = .ok cell) :
    ∃ w, subst t m = .ok w :=
  substGroups_of_cells fun g _ => h g

theorem subst_of_error {g : Fin 8} {e : Err} (h : groupCell t m g = .error e) :
    subst t m = .error .sBoxRange :=
  substGroups_of_error ((by decide : ∀ g : Fin 8, g ∈ [0, 1, 2, 3, 4, 5, 6, 7]) g) h

/-- Elements 4g to 4g + 3 of a substitution are the cell of group g (R155). -/
theorem subst_slice (h : subst t m = .ok w) (g : Fin 8) :
    ∃ cell, groupCell t m g = .ok cell ∧ slice w (4 * g.val) 4 = toBits cell := by
  have hplace : ([0, 1, 2, 3, 4, 5, 6, 7] : List (Fin 8))[g.val] = g := by
    revert g
    decide
  have hcell := substGroups_slice h g.isLt
  rwa [hplace] at hcell

end Substitution

/-! ### The cells of a 48-element register (R151) -/

section Cells

variable {vs1 : VIndex} {s : State} {g : Fin 8} (hlen : HoldsLength vs1 48 s)

include hlen

theorem groupCell_denotes :
    groupCell s.params (denotes vs1 s) g =
      sboxCell s.params.sbox[g] (rowOfGroup s.params (s.reg vs1).pay g.val)
        (columnOfGroup s.params (s.reg vs1).pay g.val) :=
  congrArg₂ (sboxCell s.params.sbox[g]) (sboxRow_slice_denotes hlen g s.params)
    (sboxColumn_slice_denotes hlen g s.params)

theorem groupCell_denotes_of_inRange
    (h : rowOfGroup s.params (s.reg vs1).pay g.val < 4 ∧
      columnOfGroup s.params (s.reg vs1).pay g.val < 16) :
    groupCell s.params (denotes vs1 s) g =
      .ok ((s.params.sbox[g].get ⟨rowOfGroup s.params (s.reg vs1).pay g.val, h.1⟩).get
        ⟨columnOfGroup s.params (s.reg vs1).pay g.val, h.2⟩) :=
  (groupCell_denotes hlen).trans (dif_pos h)

theorem groupCell_denotes_of_not_inRange
    (h : ¬ (rowOfGroup s.params (s.reg vs1).pay g.val < 4 ∧
      columnOfGroup s.params (s.reg vs1).pay g.val < 16)) :
    groupCell s.params (denotes vs1 s) g = .error .sBoxRange :=
  (groupCell_denotes hlen).trans (dif_neg h)

end Cells

/-! ### The register image of a stretch (R26) -/

/-- The n elements from element i on of a vector, read off its register image. -/
theorem ofBits_extractLsb' {k i n : Nat} {v : Bits} (hv : v.length ≤ k) (h : i + n ≤ v.length) :
    (ofBits k v).extractLsb' (v.length - i - n) n = ofBits n (slice v i n) := by
  have hslice : (slice v i n).length ≤ n := by
    rw [slice_length]
    exact min_le_left _ _
  apply BitVec.eq_of_toNat_eq
  rw [BitVec.extractLsb'_toNat, ofBits_toNat hv, ofBits_toNat hslice, val_slice h,
    Nat.shiftRight_eq_div_pow]

/-! ### The rule of SUBST (R151) -/

section Rule

variable (vd : VIndex) {vs1 : VIndex} {s : State}

/-- A source of 48 elements goes through `subst`, and what that answers is the rule's answer. -/
theorem substRule_of_holds (hlen : HoldsLength vs1 48 s) :
    substRule vd vs1 s = subst s.params (denotes vs1 s) >>= fun w => .ok (setv vd w s) := by
  delta substRule
  rw [vecOfLength_of_holds hlen (by decide), ok_bind]
  rfl

theorem substRule_of_wrong_length (hlen : ¬ HoldsLength vs1 48 s) :
    substRule vd vs1 s = .error .invalidLength := by
  delta substRule
  rw [vecOfLength_of_not_holds hlen (by decide), error_bind]

end Rule

/-! ### The statement about the substitution engine -/

/-- Settles O27: each group of the source has the cell of the statement or none, and the cells stand
in the register image in group order. -/
theorem substLooksUpEveryGroup : Obligations.SubstLooksUpEveryGroup := by
  intro vd vs1 s herr
  dsimp only
  refine ⟨fun ⟨hlen, hrange⟩ => ?_,
    fun hlen => runCommand_error herr (substRule_of_wrong_length vd hlen),
    fun ⟨hlen, g, hg, hout⟩ => ?_⟩
  · obtain ⟨w, hw⟩ := subst_of_cells fun g =>
      ⟨_, groupCell_denotes_of_inRange hlen (hrange g.val g.isLt)⟩
    have hwlen : w.length = 32 := subst_length hw
    have hfits : w.length ≤ 64 := by omega
    have hrule : substRule vd vs1 s = .ok (setv vd w s) := by
      rw [substRule_of_holds vd hlen, hw, ok_bind]
    have hfield : BitVec.ofNat 7 w.length = 32 := congrArg (BitVec.ofNat 7) hwlen
    refine ⟨ofBits 64 w, ?_, ?_, fun g h => ?_⟩
    · rw [← hfield]
      exact runCommand_ok herr hrule
    · rw [ofBits_toNat hfits, ← hwlen]
      exact val_lt w
    · obtain ⟨cell, hcell, hslice⟩ := subst_slice hw g
      rw [groupCell_denotes_of_inRange hlen h] at hcell
      rw [Except.ok.inj hcell, ← ofBits_toBits cell, ← hslice,
        ← ofBits_extractLsb' hfits (by omega)]
      congr 1
      omega
  · have hfail := subst_of_error (groupCell_denotes_of_not_inRange (g := ⟨g, hg⟩) hlen hout)
    have hrule : substRule vd vs1 s = .error .sBoxRange := by
      rw [substRule_of_holds vd hlen, hfail, error_bind]
    exact runCommand_error herr hrule

end Sys2Proof.Machine
end

section
/-! PROOFS. The key scheduler (43_key_scheduler.md): the reduced key of a key block, the key state
after a number of rotations, what the sixteen rounds answer, and the statements about PERM with KRED
and about KSCHED. -/

namespace Sys2Proof.Machine

/-! ### The key reduction (R165) -/

/-- Element d = i*8 + j of KRED is 8*(7-j) + i (R165). -/
theorem kred_getD {d : Nat} (hd : d < 56) : kred.getD d 0 = 8 * (7 - d % 8) + d / 8 := by
  rw [kred, List.getD_eq_getElem _ _ (by simpa using hd), List.getElem_map, List.getElem_range]

/-- The 56-element derived key of a key block. -/
def reducedKey (kb : Bits) : Bits := kred.map fun q => kb.getD q false

/-- The reduction of a 64-element key block answers its derived key. -/
theorem permute_kred {kb : Bits} (hkb : kb.length = 64) : permute kred kb = .ok (reducedKey kb) :=
  permute_ok_iff.mpr ⟨fun _ hq => hkb.symm ▸ kred_lt hq, rfl⟩

@[simp] theorem reducedKey_length (kb : Bits) : (reducedKey kb).length = 56 := by
  rw [reducedKey, List.length_map, kred_length]

theorem reducedKey_getD {kb : Bits} {d : Nat} (hkb : kb.length = 64) (hd : d < 56) :
    (reducedKey kb).getD d false = kb.getD (8 * (7 - d % 8) + d / 8) false := by
  rw [permute_getD (permute_kred hkb) (kred_length.symm ▸ hd), kred_getD hd]

/-! ### The key state (R167, R168, R171) -/

/-- The key state of a key block after rotations by n in all: both halves of its derived key rotated
left by n. -/
def keyStateAfter (kb : Bits) (n : Nat) : Bits :=
  rotl (slice (reducedKey kb) 0 28) n ++ rotl (slice (reducedKey kb) 28 28) n

@[simp] theorem keyStateAfter_length (kb : Bits) (n : Nat) : (keyStateAfter kb n).length = 56 := by
  rw [keyStateAfter, List.length_append, rotl_length, rotl_length]

/-- Element q of the key state is the derived element n places on in its half, around the end. -/
theorem keyStateAfter_getD (kb : Bits) (n : Nat) {q : Nat} (hq : q < 56) :
    (keyStateAfter kb n).getD q false =
      (reducedKey kb).getD (if q < 28 then (q + n) % 28 else 28 + (q - 28 + n) % 28) false := by
  unfold keyStateAfter
  split_ifs with hleft
  · rw [List.getD_append _ _ _ _ (by rwa [rotl_length]), rotl_getD hleft,
      slice_getD (Nat.mod_lt _ (by decide)), Nat.zero_add]
  · rw [List.getD_append_right _ _ _ _ (by rw [rotl_length]; omega), rotl_length,
      rotl_getD (by omega), slice_getD (Nat.mod_lt _ (by decide))]

/-- The key state of the key block in a register, element by element of the register. -/
theorem keyStateAfter_denotes_getD {vs1 : VIndex} {s : State} (hlen : HoldsLength vs1 64 s)
    (n : Nat) {q : Nat} (hq : q < 56) :
    (keyStateAfter (denotes vs1 s) n).getD q false = keyStateElement (s.reg vs1).pay n q := by
  have hderived : (if q < 28 then (q + n) % 28 else 28 + (q - 28 + n) % 28) < 56 := by
    split_ifs <;> omega
  rw [keyStateAfter_getD _ n hq, reducedKey_getD ((denotes_length vs1 s).trans hlen) hderived,
    denotes_getD (by omega), hlen]

/-! ### The sixteen rounds (R166, R169) -/

/-- The rounds answer whenever every entry of PC2 is below 56: each round compresses 56 elements. -/
theorem scheduleRounds_of_pc2_lt {pc2 : List Nat} (hpc2 : ∀ q ∈ pc2, q < 56) (ns : List Nat)
    (c d : Bits) : ∃ x, scheduleRounds pc2 ns c d = .ok x := by
  induction ns generalizing c d with
  | nil => exact ⟨_, rfl⟩
  | cons n ns ih =>
    have hkey : permute pc2 (rotl c n ++ rotl d n) = .ok _ :=
      permute_ok_iff.mpr ⟨by simpa using hpc2, rfl⟩
    obtain ⟨rest, hrest⟩ := ih (rotl c n) (rotl d n)
    rw [scheduleRounds, hkey, ok_bind, hrest]
    exact ⟨_, rfl⟩

/-- An entry of PC2 out of range fails the first round (R131). -/
theorem scheduleRounds_of_le_pc2 {pc2 : List Nat} (hpc2 : ∃ q ∈ pc2, 56 ≤ q) {ns : List Nat}
    (hns : ns ≠ []) (c d : Bits) :
    scheduleRounds pc2 ns c d = .error .invalidPermutationTable := by
  cases ns with
  | nil => exact absurd rfl hns
  | cons n ns =>
    have hkey : permute pc2 (rotl c n ++ rotl d n) = .error .invalidPermutationTable :=
      permute_error_iff.mpr ⟨rfl, by simpa using hpc2⟩
    rw [scheduleRounds, hkey, error_bind]

theorem rotationSum_fifteen (t : Config.Params) : rotationSum t 15 = t.rot.toList.sum := by
  rw [rotationSum, List.take_of_length_le (by simp)]

section Schedule

variable {t : Config.Params} {kb : Bits} (hkb : kb.length = 64)

include hkb

/-- The schedule of a 64-element key block is its rounds on the halves of its derived key. -/
theorem keySchedule_of_length :
    keySchedule t kb = scheduleRounds t.pc2.toList t.rot.toList (slice (reducedKey kb) 0 28)
      (slice (reducedKey kb) 28 28) := by
  rw [keySchedule, permute_kred hkb, ok_bind]

/-- The schedule's answer in closed form: subkey r is the compression of the key state after
S_r, and the final key state is the one after S_15. -/
theorem keySchedule_of_pc2_lt (hpc2 : ∀ q ∈ t.pc2.toList, q < 56) :
    ∃ x, keySchedule t kb = .ok x ∧
      (∀ r, r < 16 →
        permute t.pc2.toList (keyStateAfter kb (rotationSum t r)) = .ok (x.1.getD r [])) ∧
      x.2 = keyStateAfter kb (rotationSum t 15) := by
  rw [keySchedule_of_length hkb]
  obtain ⟨x, hx⟩ := scheduleRounds_of_pc2_lt hpc2 t.rot.toList (slice (reducedKey kb) 0 28)
    (slice (reducedKey kb) 28 28)
  obtain ⟨-, hkeys, hstate⟩ :=
    scheduleRounds_ok (rotl_zero (by simp)) (rotl_zero (by simp)) hx
  refine ⟨x, hx, fun r hr => hkeys r (by simpa using hr), ?_⟩
  rw [rotationSum_fifteen]
  exact hstate

theorem keySchedule_of_le_pc2 (hpc2 : ∃ q ∈ t.pc2.toList, 56 ≤ q) :
    keySchedule t kb = .error .invalidPermutationTable := by
  have hrounds : t.rot.toList ≠ [] := List.ne_nil_of_length_pos (by simp)
  rw [keySchedule_of_length hkb, scheduleRounds_of_le_pc2 hpc2 hrounds]

end Schedule

/-! ### The round-key file (R170) -/

theorem rkFile_getElem (keys : List Bits) (r : Fin 16) :
    (rkFile keys)[r] = ofBits 48 (keys.getD r.val []) :=
  Vector.getElem_ofFn r.isLt

/-- Element n of a compressed key is the element of the key state that PC2 names there. -/
theorem ofBits_permute_getLsbD {w : Nat} {table : Vector Nat w} {v key : Bits}
    (h : permute table.toList v = .ok key) (n : Fin w) :
    (ofBits w key).getLsbD (w - 1 - n.val) = v.getD table[n] false := by
  have hn : n.val < table.toList.length := by simp
  rw [ofBits_getLsbD ((permute_length h).trans (by simp)) n.isLt, permute_getD h hn,
    List.getD_eq_getElem _ _ hn, Vector.getElem_toList]
  rfl

/-! ### The rule of KSCHED (R166) -/

section Rule

variable {vs1 : VIndex} {s : State}

/-- A source of 64 elements goes through the schedule, and what that answers is written whole. -/
theorem kschedRule_of_holds (hlen : HoldsLength vs1 64 s) :
    kschedRule vs1 s = keySchedule s.params (denotes vs1 s) >>=
      fun x => .ok { s with rk := rkFile x.1, kstate := ofBits 56 x.2 } := by
  rw [kschedRule, vecOfLength_of_holds hlen (by decide), ok_bind]
  rfl

theorem kschedRule_of_wrong_length (hlen : ¬ HoldsLength vs1 64 s) :
    kschedRule vs1 s = .error .invalidLength := by
  rw [kschedRule, vecOfLength_of_not_holds hlen (by decide), error_bind]

end Rule

/-! ### The statements about the key scheduler -/

/-- Settles O25: PERM rearranges by the table that id 5 names, and KRED's element i*8 + j is
8*(7-j) + i. -/
theorem permWithKredReducesAKey : Obligations.PermWithKredReducesAKey := by
  intro vd vs1 s herr hlen
  have hid : TableOfId s.params (s.reg vs1).len.toNat 5 kred := tableOfId_iff.mpr ⟨by decide, rfl⟩
  have hbelow : ∀ x ∈ kred, x < (s.reg vs1).len.toNat := fun x hx => hlen.symm ▸ kred_lt hx
  obtain ⟨p, hexec, -, helement, hupper⟩ :=
    ((permRearrangesByTheTable vd vs1 5 s herr).1 kred hid).1 ⟨hlen.le, hbelow⟩
  rw [kred_length] at hexec helement hupper
  refine ⟨p, hexec, fun i j hi hj => ?_, ?_⟩
  · have hplace : i * 8 + j < 56 := by omega
    have hentry : kred.getD (i * 8 + j) 0 = 8 * (7 - j) + i := by
      rw [kred_getD hplace]
      omega
    rw [helement _ hplace, hlen, hentry]
  · exact Nat.lt_pow_two_of_testBit _ hupper

/-- Settles O28: the closed form of the schedule, read off the registers that KSCHED's rule
writes. -/
theorem kschedDerivesTheRoundKeys : Obligations.KschedDerivesTheRoundKeys := by
  intro vs1 s herr
  dsimp only
  refine ⟨fun ⟨hlen, hpc2⟩ => ?_,
    fun hlen => runCommand_error herr (kschedRule_of_wrong_length hlen),
    fun ⟨hlen, hpc2⟩ => ?_⟩
  · obtain ⟨x, hx, hkeys, hstate⟩ :=
      keySchedule_of_pc2_lt ((denotes_length vs1 s).trans hlen) hpc2
    have hrule : kschedRule vs1 s = .ok { s with rk := rkFile x.1, kstate := ofBits 56 x.2 } := by
      rw [kschedRule_of_holds hlen, hx, ok_bind]
    refine ⟨rkFile x.1, ofBits 56 x.2, runCommand_ok herr hrule, fun r n => ?_, fun q hq => ?_⟩
    · have hentry : s.params.pc2[n] < 56 := hpc2 _ (by simp)
      rw [rkFile_getElem, ofBits_permute_getLsbD (hkeys r.val r.isLt) n,
        keyStateAfter_denotes_getD hlen _ hentry]
    · rw [hstate, ofBits_getLsbD (keyStateAfter_length _ _) hq,
        keyStateAfter_denotes_getD hlen _ hq]
  · have hrule : kschedRule vs1 s = .error .invalidPermutationTable := by
      rw [kschedRule_of_holds hlen,
        keySchedule_of_le_pc2 ((denotes_length vs1 s).trans hlen) hpc2, error_bind]
    exact runCommand_error herr hrule

end Sys2Proof.Machine
end

section
/-! PROOFS. The Feistel block cipher (44_feistel.md): joined and combined register images, the round
function, the rounds over the round-key file against the rounds over a list of subkeys, and the
statements about FINIT, FROUND, FFINAL and FBLOCK. -/

namespace Sys2Proof.Machine

/-! ### Register images of combined vectors (R9, R26) -/

/-- The vector of a concatenated register is the joined vectors, the upper part first. -/
theorem toBits_append {m n : Nat} (x : BitVec m) (y : BitVec n) :
    toBits (x ++ y) = toBits x ++ toBits y := by
  have hlen : (toBits x ++ toBits y).length = m + n := by simp
  have himage : ofBits (m + n) (toBits x ++ toBits y) = x ++ y := by
    apply BitVec.eq_of_toNat_eq
    rw [ofBits_toNat hlen.le, val_append, toBits_length, toBits, toBits, val_bitsN x.isLt,
      val_bitsN y.isLt, BitVec.toNat_append, ← Nat.shiftLeft_eq,
      Nat.shiftLeft_add_eq_or_of_lt y.isLt]
  rw [← himage, toBits_ofBits hlen]

theorem xorBits_toBits {w : Nat} (x y : BitVec w) :
    xorBits (toBits x) (toBits y) = toBits (x ^^^ y) := by
  rw [toBits, toBits, toBits, xorBits_bitsN, BitVec.toNat_xor]

/-- The register image of an exclusive or with a register (R183). -/
theorem ofBits_xorBits_toBits {w : Nat} {v : Bits} (hv : v.length = w) (x : BitVec w) :
    ofBits w (xorBits v (toBits x)) = ofBits w v ^^^ x := by
  rw [← toBits_ofBits hv, xorBits_toBits, ofBits_toBits, ofBits_toBits]

/-- A vector is its elements in order: IDENT rearranges nothing (R134). -/
theorem eq_map_range_getD {v : Bits} {n : Nat} (hv : v.length = n) :
    v = (List.range n).map fun i => v.getD i false :=
  hv ▸ (permute_ok_iff.mp (permute_range v)).2

/-- Element i of a stretch of a permuted vector, read off the register image of the stretch. -/
theorem ofBits_slice_permute_getLsbD {table : List Nat} {v p : Bits} {start n i : Nat}
    (h : permute table v = .ok p) (hfits : start + n ≤ table.length) (hi : i < n) :
    (ofBits n (slice p start n)).getLsbD (n - 1 - i) = v.getD (table.getD (start + i) 0) false := by
  have hlen : (slice p start n).length = n := by
    rw [slice_length, permute_length h]
    omega
  rw [ofBits_getLsbD hlen hi, slice_getD hi, permute_getD h (by omega)]

/-! ### Well-formed tables (R8) -/

theorem params_wf_iff {t : Config.Params} :
    t.Wf ↔ (∀ q ∈ t.ip.toList, q < 64) ∧ (∀ q ∈ t.fp.toList, q < 64) ∧
      (∀ q ∈ t.e.toList, q < 32) ∧ (∀ q ∈ t.p.toList, q < 32) ∧ (∀ q ∈ t.pc2.toList, q < 56) := by
  simp only [Config.Params.Wf, Config.Params.wf, Bool.and_eq_true, List.all_eq_true,
    decide_eq_true_eq, and_assoc]

/-- An entry of a table whose entries are all below a bound. -/
theorem getD_lt_of_forall_mem {table : List Nat} {b i : Nat} (h : ∀ q ∈ table, q < b)
    (hi : i < table.length) : table.getD i 0 < b := by
  rw [List.getD_eq_getElem _ _ hi]
  exact h _ (List.getElem_mem hi)

/-! ### The round function (R184) -/

theorem bitAt_le_one (g : Bits) (k : Nat) : bitAt g k ≤ 1 := Bool.toNat_le _

/-- With weights in range every group of every vector has a cell, so substitution answers (R154). -/
theorem subst_of_weightsInRange {t : Config.Params} (h : WeightsInRange t) (m : Bits) :
    ∃ w, subst t m = .ok w := by
  obtain ⟨hrow, hcol⟩ := h
  have hterm (a : Nat) (g : Bits) (k : Nat) : a * bitAt g k ≤ a :=
    mul_le_of_le_one_right (Nat.zero_le a) (bitAt_le_one g k)
  refine subst_of_cells fun g => ⟨_, dif_pos ⟨?_, ?_⟩⟩
  · exact (Nat.add_le_add (hterm _ _ _) (hterm _ _ _)).trans_lt hrow
  · exact (Nat.add_le_add (Nat.add_le_add (Nat.add_le_add (hterm _ _ _) (hterm _ _ _))
      (hterm _ _ _)) (hterm _ _ _)).trans_lt hcol

/-- The round function answers a 32-element half (R184). -/
theorem roundFunction_length {t : Config.Params} {x k y : Bits}
    (h : roundFunction t x k = .ok y) : y.length = 32 := by
  obtain ⟨_, -, h⟩ := bind_ok_iff.mp h
  obtain ⟨_, -, h⟩ := bind_ok_iff.mp h
  rw [permute_length h, Vector.length_toList]

/-- The 48 elements that a round substitutes: E(X) ^ K, element by element (R184). -/
theorem xorBits_expansion {table : List Nat} (hlen : table.length = 48)
    (htable : ∀ q ∈ table, q < 32) (x : BitVec 32) (k : BitVec 48) :
    xorBits (table.map fun q => (toBits x).getD q false) (toBits k) =
      (List.range 48).map fun j => (x.getLsbD (31 - table.getD j 0) ^^ k.getLsbD (47 - j)) := by
  have hexpand : permute table (toBits x) = .ok (table.map fun q => (toBits x).getD q false) :=
    permute_ok_iff.mpr ⟨(toBits_length x).symm ▸ htable, rfl⟩
  have hsame := (permute_length hexpand).trans hlen
  rw [eq_map_range_getD (v := xorBits _ _) (n := 48) (by simp [hlen])]
  refine List.map_congr_left fun j hj => ?_
  have hj : j < 48 := List.mem_range.mp hj
  have hentry : table.getD j 0 < 32 := getD_lt_of_forall_mem htable (hlen.symm ▸ hj)
  rw [xorBits_getD (hsame.trans (toBits_length k).symm), permute_getD hexpand (hlen.symm ▸ hj),
    toBits_getD x hentry, toBits_getD k hj]

/-! ### One round (R183) -/

theorem froundRule_of_ready {s : State} (hready : s.fact = true ∧ s.round < 16) :
    froundRule s = roundFunction s.params (toBits s.r) (roundKey s.round s) >>= fun y =>
      .ok { s with l := s.r, r := ofBits 32 (xorBits y (toBits s.l)), round := s.round + 1 } :=
  if_neg (by simp [hready])

/-- A round whose round function answers: the new R is the answer exclusive-or the old L (R183). -/
theorem froundRule_of_roundFunction_ok {s : State} {y : Bits}
    (hready : s.fact = true ∧ s.round < 16)
    (hy : roundFunction s.params (toBits s.r) (roundKey s.round s) = .ok y) :
    froundRule s = .ok { s with
      l := s.r, r := ofBits 32 y ^^^ s.l, round := s.round + 1 } := by
  rw [froundRule_of_ready hready, hy, ok_bind, ofBits_xorBits_toBits (roundFunction_length hy)]

theorem froundRule_of_not_ready {s : State} (h : ¬ (s.fact = true ∧ s.round < 16)) :
    froundRule s = .error .sequenceError :=
  if_pos (by rwa [not_and_or, Bool.not_eq_true, not_lt] at h)

/-! ### Setup and finish of a block (R181, R185) -/

section SetupAndFinish

variable {vd vs1 : VIndex} {s : State}

theorem finitRule_of_holds (hlen : HoldsLength vs1 64 s) :
    finitRule vs1 s = permute s.params.ip.toList (denotes vs1 s) >>= fun p =>
      .ok { s with
        l := ofBits 32 (slice p 0 32), r := ofBits 32 (slice p 32 32), round := 0,
        fact := true } := by
  rw [finitRule, vecOfLength_of_holds hlen (by decide), ok_bind]
  rfl

theorem finitRule_of_wrong_length (hlen : ¬ HoldsLength vs1 64 s) :
    finitRule vs1 s = .error .invalidLength := by
  rw [finitRule, vecOfLength_of_not_holds hlen (by decide), error_bind]

theorem ffinalRule_of_ready (hfact : s.fact = true) (hround : s.round = 16) :
    ffinalRule vd s = permute s.params.fp.toList (toBits (s.r ++ s.l)) >>= fun w =>
      .ok (setv vd w { s with fact := false }) := by
  rw [toBits_append, ffinalRule, if_neg (by simp [hfact, hround]), ffinalBody]
  cases permute s.params.fp.toList (toBits s.r ++ toBits s.l) <;> rfl

theorem ffinalRule_of_not_ready (h : ¬ (s.fact = true ∧ s.round = 16)) :
    ffinalRule vd s = .error .sequenceError :=
  if_pos (by rwa [not_and_or, Bool.not_eq_true] at h)

end SetupAndFinish

/-! ### The rounds of a block (R180, R186) -/

/-- The rounds keep halves of 32 elements. -/
theorem feistelRounds_length {t : Config.Params} {keys : List Bits} {l r : Bits}
    {x : Bits × Bits} (hl : l.length = 32) (hr : r.length = 32)
    (h : feistelRounds t keys l r = .ok x) : x.1.length = 32 ∧ x.2.length = 32 := by
  induction keys generalizing l r with
  | nil =>
    obtain rfl := Except.ok.inj h
    exact ⟨hl, hr⟩
  | cons k keys ih =>
    obtain ⟨y, hy, h⟩ := bind_ok_iff.mp h
    refine ih hr ?_ h
    rw [xorBits_length, roundFunction_length hy, hl, min_self]

/-- FROUND-body over the round-key file does the rounds over a list of subkeys that the file holds
from ROUND on. -/
theorem froundBodies_eq_feistelRounds {keys : List Bits} {s : State}
    (hkeys : ∀ i, i < keys.length → roundKey (s.round + i) s = keys.getD i []) :
    froundBodies keys.length s =
      feistelRounds s.params keys (toBits s.l) (toBits s.r) >>= fun x =>
        .ok { s with
          l := ofBits 32 x.1, r := ofBits 32 x.2, round := s.round + keys.length } := by
  induction keys generalizing s with
  | nil => rw [feistelRounds, ok_bind, ofBits_toBits, ofBits_toBits]; rfl
  | cons k keys ih =>
    have hkey : roundKey s.round s = k := hkeys 0 (Nat.succ_pos _)
    rw [List.length_cons, froundBodies, feistelRounds, froundBody, hkey]
    cases hy : roundFunction s.params (toBits s.r) k with
    | error e => rfl
    | ok y =>
      have hnew : (xorBits y (toBits s.l)).length = 32 := by
        rw [xorBits_length, roundFunction_length hy, toBits_length, min_self]
      rw [ok_bind, ok_bind, pure_eq_ok, ok_bind, ih fun i hi => ?_]
      · rw [toBits_ofBits hnew, Nat.add_assoc, Nat.add_comm 1]
      · rw [Nat.add_assoc, Nat.add_comm 1]
        exact hkeys (i + 1) (Nat.succ_lt_succ hi)

/-- The schedule of a key block answers sixteen subkeys of 48 elements (R166). -/
theorem keySchedule_lengths {t : Config.Params} {kb : Bits} {x : List Bits × Bits}
    (hkb : kb.length = 64) (h : keySchedule t kb = .ok x) :
    x.1.length = 16 ∧ ∀ r, r < 16 → (x.1.getD r []).length = 48 := by
  rw [keySchedule_of_length hkb] at h
  obtain ⟨hcount, hkeys, -⟩ := scheduleRounds_ok (rotl_zero (by simp)) (rotl_zero (by simp)) h
  rw [Vector.length_toList] at hcount hkeys
  exact ⟨hcount, fun r hr => (permute_length (hkeys r hr)).trans (Vector.length_toList ..)⟩

/-- The round-key file holds the subkeys of the schedule as they are (R170). -/
theorem roundKey_of_rkFile {keys : List Bits} {s : State} (hrk : s.rk = rkFile keys) {r : Nat}
    (hr : r < 16) (hlen : (keys.getD r []).length = 48) : roundKey r s = keys.getD r [] := by
  have hentry : (s.rk[r]?).getD 0 = ofBits 48 (keys.getD r []) := by
    rw [hrk, Vector.getElem?_eq_getElem hr]
    exact rkFile_getElem keys ⟨r, hr⟩
  rw [roundKey, hentry, toBits_ofBits hlen]

/-- The sixteen rounds and the finish of a block that was just set up, with the subkeys `keys` in
the round-key file (R180, R185). -/
theorem froundBodies_bind_ffinalBody {keys : List Bits} {s : State} (hrk : s.rk = rkFile keys)
    (hround : s.round = 0) (hcount : keys.length = 16)
    (hkeys : ∀ i, i < 16 → (keys.getD i []).length = 48) :
    (froundBodies 16 s >>= ffinalBody) =
      feistelRounds s.params keys (toBits s.l) (toBits s.r) >>= fun lr =>
      permute s.params.fp.toList (lr.2 ++ lr.1) >>= fun c =>
      .ok (c, { s with
        l := ofBits 32 lr.1, r := ofBits 32 lr.2, round := 16, fact := false }) := by
  have hrounds := froundBodies_eq_feistelRounds (keys := keys) (s := s) fun i hi => by
    have hi : i < 16 := hcount ▸ hi
    rw [hround, Nat.zero_add]
    exact roundKey_of_rkFile hrk hi (hkeys i hi)
  rw [hcount, hround] at hrounds
  rw [hrounds]
  cases hlr : feistelRounds s.params keys (toBits s.l) (toBits s.r) with
  | error e => rfl
  | ok lr =>
    obtain ⟨hl, hr⟩ := feistelRounds_length (toBits_length _) (toBits_length _) hlr
    rw [ok_bind, ok_bind, ok_bind, ffinalBody, toBits_ofBits hl, toBits_ofBits hr]
    rfl

/-! ### A whole block (R180, R186) -/

section Block

variable {s : State} {data key : Bits}

/-- The halves of a permuted block of 64 elements. -/
theorem halves_length {table : Vector Nat 64} {p : Bits} (h : permute table.toList data = .ok p) :
    (slice p 0 32).length = 32 ∧ (slice p 32 32).length = 32 := by
  have hp : p.length = 64 := (permute_length h).trans (Vector.length_toList ..)
  simp [hp]

/-- FBLOCK-body goes through the steps of the block function, in their order, and writes what they
answer. -/
theorem fblockBody_eq (hkey : key.length = 64) :
    fblockBody data key s =
      keySchedule s.params key >>= fun keys =>
      permute s.params.ip.toList data >>= fun p =>
      feistelRounds s.params keys.1 (slice p 0 32) (slice p 32 32) >>= fun lr =>
      permute s.params.fp.toList (lr.2 ++ lr.1) >>= fun c =>
      .ok (c, { s with
        rk := rkFile keys.1, kstate := ofBits 56 keys.2, l := ofBits 32 lr.1,
        r := ofBits 32 lr.2, round := 16, fact := false }) := by
  rw [fblockBody, kschedBody]
  cases hkeys : keySchedule s.params key with
  | error e => rfl
  | ok keys =>
    obtain ⟨hcount, hlens⟩ := keySchedule_lengths hkey hkeys
    rw [ok_bind, ok_bind, pure_eq_ok, ok_bind, finitBody]
    cases hp : permute s.params.ip.toList data with
    | error e => rfl
    | ok p =>
      obtain ⟨hleft, hright⟩ := halves_length hp
      rw [ok_bind, ok_bind, pure_eq_ok, ok_bind,
        froundBodies_bind_ffinalBody rfl rfl hcount hlens, toBits_ofBits hleft,
        toBits_ofBits hright]

/-- A block that the block function answers (R186). -/
theorem fblockBody_of_feistel_ok {c : Bits} (hkey : key.length = 64)
    (h : feistel s.params data key = .ok c) :
    ∃ rk kst l r, BlockStepLeaves s.params data key rk kst l r ∧
      fblockBody data key s = .ok (c, { s with
        rk := rk, kstate := kst, l := l, r := r, round := 16, fact := false }) := by
  obtain ⟨keys, hkeys, h⟩ := bind_ok_iff.mp h
  obtain ⟨p, hp, h⟩ := bind_ok_iff.mp h
  obtain ⟨lr, hlr, hc⟩ := bind_ok_iff.mp h
  obtain ⟨hleft, hright⟩ := halves_length hp
  obtain ⟨hl, hr⟩ := feistelRounds_length hleft hright hlr
  refine ⟨rkFile keys.1, ofBits 56 keys.2, ofBits 32 lr.1, ofBits 32 lr.2,
    ⟨keys, p, hkeys, hp, ?_, rfl, rfl⟩, ?_⟩
  · rw [toBits_ofBits hl, toBits_ofBits hr, hlr]
  · rw [fblockBody_eq hkey, hkeys, ok_bind, hp, ok_bind, hlr, ok_bind, hc, ok_bind]

/-- A block on which the block function fails (R186). -/
theorem fblockBody_of_feistel_error {e : Err} (hkey : key.length = 64)
    (h : feistel s.params data key = .error e) : fblockBody data key s = .error e := by
  simp only [feistel, bind_error_iff] at h
  simp only [fblockBody_eq hkey, bind_error_iff, reduceCtorEq, and_false, exists_false, or_false]
  exact h

end Block

/-! ### The rule of FBLOCK (R186) -/

section Rule

variable {vd vs1 vs2 : VIndex} {s : State}

theorem fblockRule_of_holds (h1 : HoldsLength vs1 64 s) (h2 : HoldsLength vs2 64 s) :
    fblockRule vd vs1 vs2 s =
      fblockBody (toBits (s.reg vs1).pay) (toBits (s.reg vs2).pay) s >>= fun x =>
        .ok (setv vd x.1 x.2) := by
  rw [fblockRule, vec_ok h1.le, ok_bind, vec_ok h2.le, ok_bind, denotes_full h1, denotes_full h2]
  rfl

/-- All four checks of FBLOCK raise the same error (R186). -/
theorem fblockRule_of_wrong_length (h : ¬ (HoldsLength vs1 64 s ∧ HoldsLength vs2 64 s)) :
    fblockRule vd vs1 vs2 s = .error .invalidLength := by
  unfold fblockRule
  rcases vec_cases vs1 s with ⟨-, hvec1⟩ | ⟨-, hvec1⟩
  · rcases vec_cases vs2 s with ⟨-, hvec2⟩ | ⟨-, hvec2⟩
    · rw [hvec1, ok_bind, hvec2, ok_bind, denotes_length, denotes_length]
      by_cases h1 : HoldsLength vs1 64 s
      · rw [if_neg (not_not.mpr h1), if_pos fun h2 => h ⟨h1, h2⟩]
      · rw [if_pos h1]
    · rw [hvec1, ok_bind, hvec2, error_bind]
  · rw [hvec1, error_bind]

end Rule

/-! ### The statements about the Feistel block cipher -/

/-- Settles O31: the halves are the two stretches of the block permuted by IP. -/
theorem finitSplitsThePermutedBlock : Obligations.FinitSplitsThePermutedBlock := by
  intro vs1 s herr
  have hdlen (hlen : HoldsLength vs1 64 s) : (denotes vs1 s).length = 64 :=
    (denotes_length vs1 s).trans hlen
  refine ⟨fun ⟨hlen, hip⟩ => ?_,
    fun hlen => runCommand_error herr (finitRule_of_wrong_length hlen),
    fun ⟨hlen, hip⟩ => ?_⟩
  · obtain ⟨p, hp⟩ : ∃ p, permute s.params.ip.toList (denotes vs1 s) = .ok p :=
      ⟨_, permute_ok_iff.mpr ⟨(hdlen hlen).symm ▸ hip, rfl⟩⟩
    have hrule : finitRule vs1 s = .ok { s with
        l := ofBits 32 (slice p 0 32), r := ofBits 32 (slice p 32 32), round := 0,
        fact := true } := by
      rw [finitRule_of_holds hlen, hp, ok_bind]
    have hhalf (start i : Nat) (hfits : start + 32 ≤ 64) (hi : i < 32) :
        (ofBits 32 (slice p start 32)).getLsbD (31 - i) =
          (s.reg vs1).pay.getLsbD (63 - s.params.ip.toList.getD (start + i) 0) := by
      have hentry : s.params.ip.toList.getD (start + i) 0 < 64 :=
        getD_lt_of_forall_mem hip (by rw [Vector.length_toList]; omega)
      rw [ofBits_slice_permute_getLsbD hp (by rwa [Vector.length_toList]) hi,
        denotes_getD (hlen.symm ▸ hentry), hlen]
    refine ⟨_, _, runCommand_ok herr hrule, fun i hi => ?_, fun i hi => ?_⟩
    · rw [hhalf 0 i (by decide) hi, Nat.zero_add]
    · exact hhalf 32 i le_rfl hi
  · have hfail : permute s.params.ip.toList (denotes vs1 s) = .error .invalidPermutationTable :=
      permute_error_iff.mpr ⟨rfl, (hdlen hlen).symm ▸ hip⟩
    have hrule : finitRule vs1 s = .error .invalidPermutationTable := by
      rw [finitRule_of_holds hlen, hfail, error_bind]
    exact runCommand_error herr hrule

/-- Settles O33: under well-formed tables neither permutation of the round function can fail, so it
answers what the substitution between them lets through. -/
theorem roundFunctionIsItsFourSteps : Obligations.RoundFunctionIsItsFourSteps := by
  intro t x k hwf
  obtain ⟨-, -, he, hp, -⟩ := params_wf_iff.mp hwf
  have hexpand : permute t.e.toList (toBits x) = .ok _ :=
    permute_ok_iff.mpr ⟨(toBits_length x).symm ▸ he, rfl⟩
  rw [roundFunction, hexpand, ok_bind, xorBits_expansion (Vector.length_toList ..) he]
  cases hsub : subst t _ with
  | error e => rfl
  | ok sub => exact permute_ok_iff.mpr ⟨(subst_length hsub).symm ▸ hp, rfl⟩

/-- Settles O32: FROUND's rule is one use of the round function, which well-formed tables and
weights in range let answer. -/
theorem froundDoesOneRound : Obligations.FroundDoesOneRound := by
  intro s herr
  refine ⟨fun hready hwf hweights => ?_,
    fun y hready hy =>
      ⟨roundFunction_length hy, runCommand_ok herr (froundRule_of_roundFunction_ok hready hy)⟩,
    fun e hready he => ?_,
    fun h => runCommand_error herr (froundRule_of_not_ready h)⟩
  · obtain ⟨sub, hsub⟩ := subst_of_weightsInRange hweights _
    have hy := roundFunctionIsItsFourSteps s.params s.r ((s.rk[s.round]?).getD 0) hwf
    rw [hsub] at hy
    exact ⟨_, hy, runCommand_ok herr (froundRule_of_roundFunction_ok hready hy)⟩
  · have hrule : froundRule s = .error e := by
      rw [froundRule_of_ready hready, roundKey, he, error_bind]
    exact runCommand_error herr hrule

/-- Settles O34: R ++ L is the vector of the concatenated registers, and FFINAL permutes it by
FP. -/
theorem ffinalPermutesTheSwappedHalves : Obligations.FfinalPermutesTheSwappedHalves := by
  intro vd s herr
  have hlen : (toBits (s.r ++ s.l)).length = 64 := toBits_length _
  refine ⟨fun ⟨hfact, hround, hfp⟩ => ?_,
    fun h => runCommand_error herr (ffinalRule_of_not_ready h),
    fun ⟨hfact, hround, hfp⟩ => ?_⟩
  · obtain ⟨w, hw⟩ : ∃ w, permute s.params.fp.toList (toBits (s.r ++ s.l)) = .ok w :=
      ⟨_, permute_ok_iff.mpr ⟨hlen.symm ▸ hfp, rfl⟩⟩
    have hrule : ffinalRule vd s = .ok (setv vd w { s with fact := false }) := by
      rw [ffinalRule_of_ready hfact hround, hw, ok_bind]
    have hwlen : w.length = 64 := (permute_length hw).trans (Vector.length_toList ..)
    have hfield : BitVec.ofNat 7 w.length = 64 := congrArg (BitVec.ofNat 7) hwlen
    refine ⟨ofBits 64 w, ?_, fun i hi => ?_⟩
    · rw [← hfield]
      exact runCommand_ok herr hrule
    · have hplace : i < s.params.fp.toList.length := by rwa [Vector.length_toList]
      rw [ofBits_getLsbD hwlen hi, permute_getD hw hplace,
        toBits_getD _ (getD_lt_of_forall_mem hfp hplace)]
  · have hfail : permute s.params.fp.toList (toBits (s.r ++ s.l)) =
        .error .invalidPermutationTable := permute_error_iff.mpr ⟨rfl, hlen.symm ▸ hfp⟩
    have hrule : ffinalRule vd s = .error .invalidPermutationTable := by
      rw [ffinalRule_of_ready hfact hround, hfail, error_bind]
    exact runCommand_error herr hrule

/-- Settles O36: FBLOCK-body answers or fails as the block function does, and FBLOCK's rule writes
the answer to the destination. -/
theorem fblockComputesTheBlockFunction : Obligations.FblockComputesTheBlockFunction := by
  intro vd vs1 vs2 s herr
  refine ⟨fun ⟨h1, h2⟩ => ⟨fun c hc => ?_, fun e he => ?_⟩,
    fun h => runCommand_error herr (fblockRule_of_wrong_length h)⟩
  · obtain ⟨rk, kst, l, r, hleaves, hbody⟩ := fblockBody_of_feistel_ok (toBits_length _) hc
    have hrule : fblockRule vd vs1 vs2 s = .ok (setv vd c { s with
        rk := rk, kstate := kst, l := l, r := r, round := 16, fact := false }) := by
      rw [fblockRule_of_holds h1 h2, hbody, ok_bind]
    have hfield : BitVec.ofNat 7 c.length = 64 :=
      congrArg (BitVec.ofNat 7) (fblockBody_ok hbody).2
    refine ⟨rk, kst, l, r, hleaves, ?_⟩
    rw [← hfield]
    exact runCommand_ok herr hrule
  · have hrule : fblockRule vd vs1 vs2 s = .error e := by
      rw [fblockRule_of_holds h1 h2, fblockBody_of_feistel_error (toBits_length _) he, error_bind]
    exact runCommand_error herr hrule

end Sys2Proof.Machine
end

section
/-! PROOFS. The commands of the cascade (45_cascade.md): their checks, the cascade over the key ring
against the fold of the block function, a completed data block, and the statements about KCLR, KPUTC,
KEND, DPUTC, DEND, CASC and OCLR. -/

namespace Sys2Proof.Machine

/-! ### The checks of the commands (R202-R206) -/

section Checks

variable {s : State} {imm : BitVec 32}

theorem checkNoData_of_eq_zero (h : s.dpn = 0) : checkNoData s = .ok () := if_neg (not_not.mpr h)

theorem checkNoData_of_ne_zero (h : s.dpn ≠ 0) : checkNoData s = .error .sequenceError := if_pos h

theorem checkNoKey_of_eq_zero (h : s.kpn = 0) : checkNoKey s = .ok () := if_neg (not_not.mpr h)

theorem checkNoKey_of_ne_zero (h : s.kpn ≠ 0) : checkNoKey s = .error .sequenceError := if_pos h

theorem charOf_of_le (h : imm.toNat ≤ 0xFFFF) : charOf imm = .ok imm.toNat := if_neg (not_lt.mpr h)

theorem charOf_of_lt (h : 0xFFFF < imm.toNat) : charOf imm = .error .invalidCharacter := if_pos h

/-- The pack buffer with one more character, the character given as the command's immediate. -/
theorem packChar_toNat (buf : Word) (n : Nat) (imm : BitVec 32) :
    packChar buf n imm.toNat = buf ||| (imm.setWidth 64 <<< (48 - 16 * n)) := by
  rw [packChar, BitVec.ofNat_toNat]

theorem appendKeyBlock_of_room {buf : Word} (h : s.nkb < 64) :
    appendKeyBlock buf s =
      .ok { s with kbm := memWrite s.kbm s.nkb buf, nkb := s.nkb + 1, kpbuf := 0, kpn := 0 } :=
  if_neg (not_le.mpr h)

theorem appendKeyBlock_of_full {buf : Word} (h : 64 ≤ s.nkb) :
    appendKeyBlock buf s = .error .keyRingFull :=
  if_pos h

end Checks

/-! ### The rules of the key-ring commands (R202, R203, R205) -/

section KeyRules

variable {s : State} {imm : BitVec 32}

theorem kclrRule_of_no_data (h : s.dpn = 0) :
    kclrRule s = .ok { s with nkb := 0, kpn := 0, kpbuf := 0 } := by
  rw [kclrRule, checkNoData_of_eq_zero h, ok_bind, pure_eq_ok]

theorem kclrRule_of_data (h : s.dpn ≠ 0) : kclrRule s = .error .sequenceError := by
  rw [kclrRule, checkNoData_of_ne_zero h, error_bind]

theorem kputcRule_of_no_data (hdata : s.dpn = 0) (hchar : imm.toNat ≤ 0xFFFF) :
    kputcRule imm s =
      if s.kpn < 3 then .ok { s with kpbuf := packChar s.kpbuf s.kpn imm.toNat, kpn := s.kpn + 1 }
      else appendKeyBlock (packChar s.kpbuf s.kpn imm.toNat) s := by
  rw [kputcRule, checkNoData_of_eq_zero hdata, ok_bind, charOf_of_le hchar, ok_bind, pure_eq_ok]

theorem kputcRule_of_data (h : s.dpn ≠ 0) : kputcRule imm s = .error .sequenceError := by
  rw [kputcRule, checkNoData_of_ne_zero h, error_bind]

theorem kputcRule_of_invalid (hdata : s.dpn = 0) (hchar : 0xFFFF < imm.toNat) :
    kputcRule imm s = .error .invalidCharacter := by
  rw [kputcRule, checkNoData_of_eq_zero hdata, ok_bind, charOf_of_lt hchar, error_bind]

theorem kendRule_of_no_data (h : s.dpn = 0) :
    kendRule s = if 0 < s.kpn then appendKeyBlock s.kpbuf s else .ok s := by
  rw [kendRule, checkNoData_of_eq_zero h, ok_bind, pure_eq_ok]

theorem kendRule_of_data (h : s.dpn ≠ 0) : kendRule s = .error .sequenceError := by
  rw [kendRule, checkNoData_of_ne_zero h, error_bind]

end KeyRules

/-! ### The cascade and the fold of the block function (R200) -/

section Cascade

variable {s : State} {data : Bits}

theorem cascadeFrom_cons (k : Nat) (ks : List Nat) (acc : Bits) (s : State) :
    cascadeFrom (k :: ks) acc s =
      fblockBody acc (toBits (kbmRead k s)) s >>= fun x => cascadeFrom ks x.1 x.2 :=
  rfl

theorem cascadeFrom_append_single (ks : List Nat) (k : Nat) (acc : Bits) (s : State) :
    cascadeFrom (ks ++ [k]) acc s =
      cascadeFrom ks acc s >>= fun x => fblockBody x.1 (toBits (kbmRead k x.2)) x.2 := by
  induction ks generalizing acc s with
  | nil => exact bind_pure (fblockBody acc (toBits (kbmRead k s)) s)
  | cons j ks ih =>
    rw [List.cons_append, cascadeFrom_cons, cascadeFrom_cons, bind_assoc]
    exact congrArg _ (funext fun x => ih x.1 x.2)

theorem cascadeFold_cons (t : Config.Params) (key : Bits) (ring : List Bits) (acc : Bits) :
    cascadeFold t (key :: ring) acc = feistel t acc key >>= cascadeFold t ring :=
  rfl

theorem cascadeFold_append_single (t : Config.Params) (ring : List Bits) (key acc : Bits) :
    cascadeFold t (ring ++ [key]) acc = cascadeFold t ring acc >>= fun x => feistel t x key := by
  induction ring generalizing acc with
  | nil => exact bind_pure (feistel t acc key)
  | cons k ring ih =>
    rw [List.cons_append, cascadeFold_cons, cascadeFold_cons, bind_assoc]
    exact congrArg _ (funext ih)

/-- What a cascade over the key blocks `ring` leaves in the cipher's registers, for any stretch of
the key ring (`CascadeLeaves` is the whole ring of the state). -/
def FoldLeaves (s : State) (ring : List Bits) (data : Bits) (rk : Vector (BitVec 48) 16)
    (kst : BitVec 56) (l r : BitVec 32) (round : Nat) (fact : Bool) : Prop :=
  (ring = [] → rk = s.rk ∧ kst = s.kstate ∧ l = s.l ∧ r = s.r ∧ round = s.round ∧
    fact = s.fact) ∧
  (ring ≠ [] → round = 16 ∧ fact = false ∧
    ∃ acc, cascadeFold s.params ring.dropLast data = .ok acc ∧
      BlockStepLeaves s.params acc (ring.getLastD []) rk kst l r)

theorem foldLeaves_nil (s : State) (data : Bits) :
    FoldLeaves s [] data s.rk s.kstate s.l s.r s.round s.fact :=
  ⟨fun _ => ⟨rfl, rfl, rfl, rfl, rfl, rfl⟩, fun h => absurd rfl h⟩

theorem foldLeaves_append_single {ring : List Bits} {acc key : Bits} {rk : Vector (BitVec 48) 16}
    {kst : BitVec 56} {l r : BitVec 32} (hfold : cascadeFold s.params ring data = .ok acc)
    (hstep : BlockStepLeaves s.params acc key rk kst l r) :
    FoldLeaves s (ring ++ [key]) data rk kst l r 16 false :=
  ⟨fun h => absurd h (by simp),
    fun _ => ⟨rfl, rfl, acc, by rwa [List.dropLast_concat], by rwa [List.getLastD_concat]⟩⟩

theorem foldLeaves_keyRing {rk : Vector (BitVec 48) 16} {kst : BitVec 56} {l r : BitVec 32}
    {round : Nat} {fact : Bool} (h : FoldLeaves s (keyRing s) data rk kst l r round fact) :
    CascadeLeaves s data rk kst l r round fact := by
  have hempty : keyRing s = [] ↔ s.nkb = 0 := by
    rw [List.map_eq_nil_iff, List.range_eq_nil]
  obtain ⟨hnil, hcons⟩ := h
  exact ⟨fun h0 => hnil (hempty.mpr h0), fun hpos => hcons (mt hempty.mp hpos.ne')⟩

/-- Where the fold of the block function answers, the cascade over the same key blocks answers the
same and leaves the registers as the last of them does. No step changes a key block. -/
theorem cascadeFrom_of_fold_ok {ks : List Nat} {c : Bits}
    (h : cascadeFold s.params (ks.map fun k => toBits (kbmRead k s)) data = .ok c) :
    ∃ rk kst l r round fact, cascadeFrom ks data s = .ok (c, { s with
        rk := rk, kstate := kst, l := l, r := r, round := round, fact := fact }) ∧
      FoldLeaves s (ks.map fun k => toBits (kbmRead k s)) data rk kst l r round fact := by
  induction ks using List.reverseRecOn generalizing c with
  | nil =>
    obtain rfl := Except.ok.inj h
    exact ⟨_, _, _, _, _, _, rfl, foldLeaves_nil s data⟩
  | append_singleton ks k ih =>
    rw [List.map_append, List.map_singleton, cascadeFold_append_single] at h
    obtain ⟨acc, hfold, hblock⟩ := bind_ok_iff.mp h
    obtain ⟨rk, kst, l, r, round, fact, hcascade, -⟩ := ih hfold
    obtain ⟨rk', kst', l', r', hstep, hbody⟩ := fblockBody_of_feistel_ok
      (s := { s with rk := rk, kstate := kst, l := l, r := r, round := round, fact := fact })
      (toBits_length _) hblock
    refine ⟨rk', kst', l', r', 16, false, ?_, ?_⟩
    · rw [cascadeFrom_append_single, hcascade, ok_bind]
      exact hbody
    · rw [List.map_append, List.map_singleton]
      exact foldLeaves_append_single hfold hstep

theorem cascadeFrom_of_fold_error {ks : List Nat} {e : Err}
    (h : cascadeFold s.params (ks.map fun k => toBits (kbmRead k s)) data = .error e) :
    cascadeFrom ks data s = .error e := by
  induction ks using List.reverseRecOn generalizing e with
  | nil => cases h
  | append_singleton ks k ih =>
    rw [List.map_append, List.map_singleton, cascadeFold_append_single] at h
    rw [cascadeFrom_append_single]
    rcases bind_error_iff.mp h with hfold | ⟨acc, hfold, hblock⟩
    · rw [ih hfold, error_bind]
    · obtain ⟨rk, kst, l, r, round, fact, hcascade, -⟩ := cascadeFrom_of_fold_ok hfold
      rw [hcascade, ok_bind]
      exact fblockBody_of_feistel_error (toBits_length _) hblock

theorem cascade_of_fold_ok {c : Bits} (h : cascadeFold s.params (keyRing s) data = .ok c) :
    ∃ rk kst l r round fact, cascade data s = .ok (c, { s with
        rk := rk, kstate := kst, l := l, r := r, round := round, fact := fact }) ∧
      CascadeLeaves s data rk kst l r round fact := by
  obtain ⟨rk, kst, l, r, round, fact, hcascade, hleaves⟩ := cascadeFrom_of_fold_ok h
  exact ⟨rk, kst, l, r, round, fact, hcascade, foldLeaves_keyRing hleaves⟩

theorem cascade_of_fold_error {e : Err} (h : cascadeFold s.params (keyRing s) data = .error e) :
    cascade data s = .error e :=
  cascadeFrom_of_fold_error h

/-- The block function answers a block (R180). -/
theorem feistel_length {t : Config.Params} {key c : Bits} (h : feistel t data key = .ok c) :
    c.length = 64 := by
  obtain ⟨_, -, h⟩ := bind_ok_iff.mp h
  obtain ⟨_, -, h⟩ := bind_ok_iff.mp h
  obtain ⟨_, -, h⟩ := bind_ok_iff.mp h
  exact (permute_length h).trans (Vector.length_toList ..)

/-- A block folded over key blocks is a block (R200). -/
theorem cascadeFold_length {t : Config.Params} {ring : List Bits} {c : Bits}
    (hdata : data.length = 64) (h : cascadeFold t ring data = .ok c) : c.length = 64 := by
  induction ring generalizing data with
  | nil =>
    obtain rfl := Except.ok.inj h
    exact hdata
  | cons key ring ih =>
    obtain ⟨x, hx, h⟩ := bind_ok_iff.mp h
    exact ih (feistel_length hx) h

end Cascade

/-! ### A completed data block (R208) -/

section DataBlock

variable {s : State} {buf : Word}

theorem dataBlockDone_of_full (h : 2048 < s.ocnt + 16) :
    dataBlockDone buf s = .error .outputFull := by
  rw [dataBlockDone, checkOutputRoom_of_full h, error_bind]

theorem dataBlockDone_of_fold_error {e : Err} (hroom : s.ocnt + 16 ≤ 2048)
    (h : cascadeFold s.params (keyRing s) (toBits buf) = .error e) :
    dataBlockDone buf s = .error e := by
  rw [dataBlockDone, checkOutputRoom_of_fits hroom, ok_bind, cascade_of_fold_error h, error_bind]

/-- A completed block that the fold answers: its hex text is appended, and the cipher's registers
are as the cascade leaves them. -/
theorem dataBlockDone_of_fold_ok {c : Bits} (hroom : s.ocnt + 16 ≤ 2048)
    (h : cascadeFold s.params (keyRing s) (toBits buf) = .ok c) :
    ∃ m rk kst l r round fact, dataBlockDone buf s = .ok { s with
        ocm := m, ocnt := s.ocnt + 16, dpbuf := 0, dpn := 0, rk := rk, kstate := kst, l := l,
        r := r, round := round, fact := fact } ∧
      AppendsHex s.ocm m s.ocnt (val c) ∧
      CascadeLeaves s (toBits buf) rk kst l r round fact := by
  obtain ⟨rk, kst, l, r, round, fact, hcascade, hleaves⟩ := cascade_of_fold_ok h
  have hlen : c.length = 64 := cascadeFold_length (toBits_length buf) h
  refine ⟨_, rk, kst, l, r, round, fact, ?_, appendsHex_memWriteAll s.ocm s.ocnt (val c), hleaves⟩
  rw [dataBlockDone, checkOutputRoom_of_fits hroom, ok_bind, hcascade, ok_bind,
    blocksToHex_of_length hlen]
  rfl

/-- A command whose rule is to complete the data block `buf`. -/
theorem dataBlockEncrypted_runCommand {m : Mnemonic} {rule : State → Except Err State}
    (herr : s.err = 0) (hrule : rule s = dataBlockDone buf s) :
    DataBlockEncrypted buf m.code s (runCommand m rule s) := by
  refine ⟨fun hroom => ⟨fun c hc => ?_, fun e he => ?_⟩, fun hfull => ?_⟩
  · obtain ⟨ocm, rk, kst, l, r, round, fact, hdone, hhex, hleaves⟩ :=
      dataBlockDone_of_fold_ok hroom hc
    exact ⟨ocm, rk, kst, l, r, round, fact, runCommand_ok herr (hrule.trans hdone), hhex, hleaves⟩
  · exact runCommand_error herr (hrule.trans (dataBlockDone_of_fold_error hroom he))
  · exact runCommand_error herr (hrule.trans (dataBlockDone_of_full hfull))

end DataBlock

/-! ### The rules of the data commands (R206, R207, R209) -/

section DataRules

variable {s : State} {imm : BitVec 32} {vd vs1 : VIndex}

theorem dputcRule_of_no_key (hkey : s.kpn = 0) (hchar : imm.toNat ≤ 0xFFFF) :
    dputcRule imm s =
      if s.dpn < 3 then .ok { s with dpbuf := packChar s.dpbuf s.dpn imm.toNat, dpn := s.dpn + 1 }
      else dataBlockDone (packChar s.dpbuf s.dpn imm.toNat) s := by
  rw [dputcRule, checkNoKey_of_eq_zero hkey, ok_bind, charOf_of_le hchar, ok_bind, pure_eq_ok]

theorem dputcRule_of_key (h : s.kpn ≠ 0) : dputcRule imm s = .error .sequenceError := by
  rw [dputcRule, checkNoKey_of_ne_zero h, error_bind]

theorem dputcRule_of_invalid (hkey : s.kpn = 0) (hchar : 0xFFFF < imm.toNat) :
    dputcRule imm s = .error .invalidCharacter := by
  rw [dputcRule, checkNoKey_of_eq_zero hkey, ok_bind, charOf_of_lt hchar, error_bind]

theorem dendRule_of_no_key (h : s.kpn = 0) :
    dendRule s = if 0 < s.dpn then dataBlockDone s.dpbuf s else .ok s := by
  rw [dendRule, checkNoKey_of_eq_zero h, ok_bind, pure_eq_ok]

theorem dendRule_of_key (h : s.kpn ≠ 0) : dendRule s = .error .sequenceError := by
  rw [dendRule, checkNoKey_of_ne_zero h, error_bind]

theorem cascRule_of_holds (hkey : s.kpn = 0) (hlen : HoldsLength vs1 64 s) :
    cascRule vd vs1 s =
      cascade (toBits (s.reg vs1).pay) s >>= fun x => .ok (setv vd x.1 x.2) := by
  rw [cascRule, checkNoKey_of_eq_zero hkey, ok_bind, vecOfLength_of_holds hlen le_rfl, ok_bind,
    denotes_full hlen]
  rfl

theorem cascRule_of_key (h : s.kpn ≠ 0) : cascRule vd vs1 s = .error .sequenceError := by
  rw [cascRule, checkNoKey_of_ne_zero h, error_bind]

theorem cascRule_of_wrong_length (hkey : s.kpn = 0) (hlen : ¬ HoldsLength vs1 64 s) :
    cascRule vd vs1 s = .error .invalidLength := by
  rw [cascRule, checkNoKey_of_eq_zero hkey, ok_bind, vecOfLength_of_not_holds hlen le_rfl,
    error_bind]

end DataRules

/-! ### The statements about the commands of the cascade -/

/-- Settles O38: KCLR's rule, run as a command while no error is recorded. -/
theorem kclrEmptiesTheKeyRing : Obligations.KclrEmptiesTheKeyRing := by
  intro s herr
  exact ⟨fun h => runCommand_ok herr (kclrRule_of_no_data h),
    fun h => runCommand_error herr (kclrRule_of_data h)⟩

/-- Settles O44: OCLR's rule has no check. -/
theorem oclrEmptiesTheOutput : Obligations.OclrEmptiesTheOutput := by
  intro s herr
  exact runCommand_ok (rule := fun t => .ok { t with ocnt := 0 }) herr rfl

/-- Settles O39: the character is packed, and with the fourth one the block is appended to the
ring. -/
theorem kputcPacksAKeyCharacter : Obligations.KputcPacksAKeyCharacter := by
  intro imm s herr buf
  have hbuf : packChar s.kpbuf s.kpn imm.toNat = buf := packChar_toNat _ _ _
  refine ⟨fun ⟨hdata, hchar, hfew⟩ => ?_, fun ⟨hdata, hchar, hfour, hroom⟩ => ?_,
    fun h => runCommand_error herr (kputcRule_of_data h),
    fun ⟨hdata, hchar⟩ => runCommand_error herr (kputcRule_of_invalid hdata hchar),
    fun ⟨hdata, hchar, hfour, hfull⟩ => ?_⟩
  · have hrule := kputcRule_of_no_data hdata hchar
    rw [if_pos hfew, hbuf] at hrule
    exact runCommand_ok herr hrule
  · have hrule := kputcRule_of_no_data hdata hchar
    rw [if_neg (not_lt.mpr hfour), hbuf, appendKeyBlock_of_room hroom] at hrule
    exact ⟨_, runCommand_ok herr hrule, fun k => memRead_memWrite s.kbm s.nkb k buf⟩
  · have hrule := kputcRule_of_no_data hdata hchar
    rw [if_neg (not_lt.mpr hfour), hbuf, appendKeyBlock_of_full hfull] at hrule
    exact runCommand_error herr hrule

/-- Settles O40: a partial block is appended to the ring as it stands in the pack buffer. -/
theorem kendEndsAKeyString : Obligations.KendEndsAKeyString := by
  intro s herr
  refine ⟨fun ⟨hdata, hempty⟩ => ?_, fun ⟨hdata, hpart, hroom⟩ => ?_,
    fun h => runCommand_error herr (kendRule_of_data h), fun ⟨hdata, hpart, hfull⟩ => ?_⟩
  · have hrule := kendRule_of_no_data hdata
    rw [if_neg (Nat.not_lt.mpr hempty.le)] at hrule
    exact runCommand_ok herr hrule
  · have hrule := kendRule_of_no_data hdata
    rw [if_pos hpart, appendKeyBlock_of_room hroom] at hrule
    exact ⟨_, runCommand_ok herr hrule, fun k => memRead_memWrite s.kbm s.nkb k s.kpbuf⟩
  · have hrule := kendRule_of_no_data hdata
    rw [if_pos hpart, appendKeyBlock_of_full hfull] at hrule
    exact runCommand_error herr hrule

/-- Settles O41: the character is packed, and with the fourth one the data block is completed. -/
theorem dputcPacksADataCharacter : Obligations.DputcPacksADataCharacter := by
  intro imm s herr buf
  have hbuf : packChar s.dpbuf s.dpn imm.toNat = buf := packChar_toNat _ _ _
  refine ⟨fun ⟨hkey, hchar, hfew⟩ => ?_, fun ⟨hkey, hchar, hfour⟩ => ?_,
    fun h => runCommand_error herr (dputcRule_of_key h),
    fun ⟨hkey, hchar⟩ => runCommand_error herr (dputcRule_of_invalid hkey hchar)⟩
  · have hrule := dputcRule_of_no_key hkey hchar
    rw [if_pos hfew, hbuf] at hrule
    exact runCommand_ok herr hrule
  · have hrule := dputcRule_of_no_key hkey hchar
    rw [if_neg (not_lt.mpr hfour), hbuf] at hrule
    exact dataBlockEncrypted_runCommand herr hrule

/-- Settles O42: a partial block is completed as it stands in the pack buffer. -/
theorem dendEndsThePlaintext : Obligations.DendEndsThePlaintext := by
  intro s herr
  refine ⟨fun ⟨hkey, hempty⟩ => ?_, fun ⟨hkey, hpart⟩ => ?_,
    fun h => runCommand_error herr (dendRule_of_key h)⟩
  · have hrule := dendRule_of_no_key hkey
    rw [if_neg (Nat.not_lt.mpr hempty.le)] at hrule
    exact runCommand_ok herr hrule
  · have hrule := dendRule_of_no_key hkey
    rw [if_pos hpart] at hrule
    exact dataBlockEncrypted_runCommand herr hrule

/-- Settles O43: the cascade answers or fails as the fold of the block function does, and CASC's rule
writes the answer to the destination. -/
theorem cascEncryptsUnderTheKeyRing : Obligations.CascEncryptsUnderTheKeyRing := by
  intro vd vs1 s herr
  refine ⟨fun ⟨hkey, hlen⟩ => ⟨fun c hc => ?_, fun e he => ?_⟩,
    fun h => runCommand_error herr (cascRule_of_key h),
    fun ⟨hkey, hlen⟩ => runCommand_error herr (cascRule_of_wrong_length hkey hlen)⟩
  · obtain ⟨rk, kst, l, r, round, fact, hcascade, hleaves⟩ := cascade_of_fold_ok hc
    have hrule : cascRule vd vs1 s = .ok (setv vd c { s with
        rk := rk, kstate := kst, l := l, r := r, round := round, fact := fact }) := by
      rw [cascRule_of_holds hkey hlen, hcascade, ok_bind]
    have hfield : BitVec.ofNat 7 c.length = 64 :=
      congrArg (BitVec.ofNat 7) (cascadeFold_length (toBits_length _) hc)
    refine ⟨rk, kst, l, r, round, fact, ?_, hleaves⟩
    rw [← hfield]
    exact runCommand_ok herr hrule
  · have hrule : cascRule vd vs1 s = .error e := by
      rw [cascRule_of_holds hkey hlen, cascade_of_fold_error he, error_bind]
    exact runCommand_error herr hrule

end Sys2Proof.Machine
end

section
/-! PROOFS. The command sequences of the cascade (45_cascade.md R201, R212): sequences of commands
that go on until an error is recorded, characters packed into blocks one by one, and the statements
about a key load and the ENCRYPT sequence. -/

namespace Sys2Proof.Machine

/-! ### Sequences of commands (R91, R244) -/

section Sequences

variable {is js : List Instr} {i : Instr} {s t : State} {ok ok' : Prop} {P Q : State → Prop}

theorem execAll_append (h : execAll is s = .next t) : execAll (is ++ js) s = execAll js t := by
  induction is generalizing s with
  | nil =>
    obtain rfl := Host.Outcome.next.inj h
    rfl
  | cons i is ih =>
    rw [execAll] at h
    rw [List.cons_append, execAll]
    cases hi : exec i s with
    | next u => rw [hi] at h; exact ih h
    | fault f => rw [hi] at h; cases h
    | refused r => rw [hi] at h; cases h

theorem execAll_cons (h : exec i s = .next t) : execAll (i :: is) s = execAll is t := by
  rw [execAll, h]

theorem execAll_singleton (i : Instr) (s : State) : execAll [i] s = exec i s := by
  rw [execAll]
  cases exec i s <;> rfl

/-- A command that is rejected while an error is recorded (R244). -/
theorem exec_of_err_ne_zero (hi : runsDespiteError i.mnemonic = false) (h : s.err ≠ 0) :
    exec i s = .next (complete (reject s)) := by
  obtain ⟨rule, hrule⟩ := exec_is_runCommand i
  rw [hrule, runCommand, if_pos ⟨h, hi⟩]

/-- An error stays recorded over commands that it rejects (R243). -/
theorem execAll_of_err_ne_zero (his : ∀ i ∈ is, runsDespiteError i.mnemonic = false)
    (h : s.err ≠ 0) : ∃ t, execAll is s = .next t ∧ t.err ≠ 0 := by
  induction is generalizing s with
  | nil => exact ⟨s, rfl, h⟩
  | cons i is ih =>
    obtain ⟨hi, his⟩ := List.forall_mem_cons.mp his
    rw [execAll_cons (exec_of_err_ne_zero hi h)]
    exact ih his h

/-- The outcome is a next state, one with `P` if `ok` holds and one with an error recorded
otherwise. -/
def Answers (out : Host.Outcome State Fault Refusal) (ok : Prop) (P : State → Prop) : Prop :=
  ∃ t, out = .next t ∧ (ok → P t) ∧ (¬ ok → t.err ≠ 0)

theorem Answers.of_ok {out : Host.Outcome State Fault Refusal} (hok : ok) (hout : out = .next t)
    (ht : P t) : Answers out ok P :=
  ⟨t, hout, fun _ => ht, fun h => absurd hok h⟩

theorem Answers.of_not_ok {out : Host.Outcome State Fault Refusal} (hok : ¬ ok)
    (hout : out = .next t) (ht : t.err ≠ 0) : Answers out ok P :=
  ⟨t, hout, fun h => absurd h hok, fun _ => ht⟩

theorem Answers.congr {out : Host.Outcome State Fault Refusal} (h : Answers out ok P)
    (hiff : ok ↔ ok') : Answers out ok' P := by
  rwa [propext hiff] at h

/-- A sequence after another: the second one runs from what the first one reaches, or is rejected
as a whole. -/
theorem Answers.append (his : Answers (execAll is s) ok P)
    (hstop : ∀ j ∈ js, runsDespiteError j.mnemonic = false)
    (hjs : ∀ t, P t → Answers (execAll js t) ok' Q) :
    Answers (execAll (is ++ js) s) (ok ∧ ok') Q := by
  obtain ⟨t, ht, hP, herr⟩ := his
  by_cases hok : ok
  · obtain ⟨u, hu, hQ, herr'⟩ := hjs t (hP hok)
    exact ⟨u, (execAll_append ht).trans hu, fun h => hQ h.2, fun h => herr' fun h' => h ⟨hok, h'⟩⟩
  · obtain ⟨u, hu, hne⟩ := execAll_of_err_ne_zero hstop (herr hok)
    exact .of_not_ok (fun h => hok h.1) ((execAll_append ht).trans hu) hne

theorem Answers.cons (hi : Answers (exec i s) ok P)
    (hstop : ∀ j ∈ js, runsDespiteError j.mnemonic = false)
    (hjs : ∀ t, P t → Answers (execAll js t) ok' Q) :
    Answers (execAll (i :: js) s) (ok ∧ ok') Q :=
  Answers.append (is := [i]) ((execAll_singleton i s).symm ▸ hi) hstop hjs

end Sequences

/-! ### Characters as blocks (R67, R101) -/

/-- Every character fits 16 bits (R104). -/
abbrev ValidText (cs : List Nat) : Prop := ∀ c ∈ cs, c ≤ 0xFFFF

/-- Up to four characters as a block, padded on the right with null characters (R101). -/
def padded (cs : List Nat) : Bits := (cs ++ List.replicate (4 - cs.length) 0).flatMap charbits

/-- The pack buffer that holds the characters `cs` (R35, R36). -/
def packWord (cs : List Nat) : Word := ofBits 64 (padded cs)

theorem flatMap_charbits_length (cs : List Nat) : (cs.flatMap charbits).length = 16 * cs.length := by
  induction cs with
  | nil => rfl
  | cons c cs ih =>
    rw [List.flatMap_cons, List.length_append, charbits_length, ih, List.length_cons]
    omega

theorem padded_length {cs : List Nat} (h : cs.length ≤ 4) : (padded cs).length = 64 := by
  rw [padded, flatMap_charbits_length, List.length_append, List.length_replicate]
  omega

theorem toBits_packWord {cs : List Nat} (h : cs.length ≤ 4) : toBits (packWord cs) = padded cs :=
  toBits_ofBits (padded_length h)

theorem val_charbits {c : Nat} (h : c ≤ 0xFFFF) : val (charbits c) = c :=
  val_bitsN (Nat.lt_succ_of_le h)

theorem val_flatMap_charbits_nulls (n : Nat) : val ((List.replicate n 0).flatMap charbits) = 0 := by
  induction n with
  | zero => rfl
  | succ n ih =>
    rw [List.replicate_succ, List.flatMap_cons, val_append, ih, val_charbits (Nat.zero_le _),
      Nat.zero_mul]

theorem val_padded (cs : List Nat) :
    val (padded cs) = val (cs.flatMap charbits) * 2 ^ (16 * (4 - cs.length)) := by
  rw [padded, List.flatMap_append, val_append, val_flatMap_charbits_nulls, flatMap_charbits_length,
    List.length_replicate, Nat.add_zero]

theorem packWord_toNat {cs : List Nat} (h : cs.length ≤ 4) :
    (packWord cs).toNat = val (cs.flatMap charbits) * 2 ^ (16 * (4 - cs.length)) := by
  rw [packWord, ofBits_toNat (padded_length h).le, val_padded]

theorem packWord_nil : packWord [] = 0 := by
  apply BitVec.eq_of_toNat_eq
  rw [packWord_toNat (Nat.zero_le _), List.flatMap_nil, val_nil, Nat.zero_mul]
  rfl

/-- Packing one more character (R203, R206): the places below it are still 0. -/
theorem packChar_packWord {cs : List Nat} {c : Nat} (hlen : cs.length < 4) (hc : c ≤ 0xFFFF) :
    packChar (packWord cs) cs.length c = packWord (cs ++ [c]) := by
  have hlen' : (cs ++ [c]).length ≤ 4 := by rw [List.length_append, List.length_singleton]; omega
  generalize hv : val (cs.flatMap charbits) = v
  have hold : (packWord cs).toNat = (v * 2 ^ 16) <<< (48 - 16 * cs.length) := by
    rw [packWord_toNat hlen.le, hv, Nat.shiftLeft_eq, Nat.mul_assoc, ← Nat.pow_add]
    congr 2
    omega
  have hnew : (packWord (cs ++ [c])).toNat = (v * 2 ^ 16 + c) <<< (48 - 16 * cs.length) := by
    rw [packWord_toNat hlen', List.flatMap_append, val_append, hv, List.flatMap_singleton,
      charbits_length, val_charbits hc, Nat.shiftLeft_eq, List.length_append, List.length_singleton]
    congr 2
    omega
  have hor : v * 2 ^ 16 + c = v * 2 ^ 16 ||| c := by
    rw [← Nat.shiftLeft_eq, Nat.shiftLeft_add_eq_or_of_lt (Nat.lt_succ_of_le hc)]
  have hplace : c <<< (48 - 16 * cs.length) < 2 ^ 64 := by
    rw [Nat.shiftLeft_eq]
    calc c * 2 ^ (48 - 16 * cs.length) < 2 ^ 16 * 2 ^ (48 - 16 * cs.length) :=
          Nat.mul_lt_mul_of_pos_right (Nat.lt_succ_of_le hc) (Nat.two_pow_pos _)
      _ ≤ 2 ^ 16 * 2 ^ 48 :=
          Nat.mul_le_mul_left _ (Nat.pow_le_pow_right Nat.two_pos (Nat.sub_le _ _))
  apply BitVec.eq_of_toNat_eq
  rw [packChar, BitVec.toNat_or, BitVec.toNat_shiftLeft, BitVec.toNat_ofNat,
    Nat.mod_eq_of_lt (a := c) (by omega), Nat.mod_eq_of_lt hplace, hold, hnew, hor,
    Nat.shiftLeft_or_distrib]

theorem charBlock_eq_padded (a b c d : Nat) : charBlock a b c d = padded [a, b, c, d] := by
  simp [charBlock, padded]

theorem packBlocks_of_partial {cs : List Nat} (hpos : 0 < cs.length) (hlen : cs.length ≤ 3) :
    packBlocks cs = [padded cs] := by
  match cs, hpos, hlen with
  | [a], _, _ => exact congrArg (fun b => [b]) (charBlock_eq_padded a 0 0 0)
  | [a, b], _, _ => exact congrArg (fun b => [b]) (charBlock_eq_padded a b 0 0)
  | [a, b, c], _, _ => exact congrArg (fun b => [b]) (charBlock_eq_padded a b c 0)

theorem packBlocks_append_of_four {cs : List Nat} (hlen : cs.length = 4) (rest : List Nat) :
    packBlocks (cs ++ rest) = padded cs :: packBlocks rest := by
  match cs, hlen with
  | [a, b, c, d], _ =>
    rw [← charBlock_eq_padded]
    rfl

theorem packBlocks_length (cs : List Nat) : (packBlocks cs).length = blockCount cs.length := by
  induction cs using packBlocks.induct with
  | case1 | case2 | case3 | case4 => simp [packBlocks, blockCount]
  | case5 a b c d rest ih =>
    rw [packBlocks, List.length_cons, ih]
    simp only [blockCount, List.length_cons]
    omega

/-- Every block of a text has 64 elements (R101). -/
theorem length_of_mem_packBlocks {cs : List Nat} {b : Bits} (h : b ∈ packBlocks cs) :
    b.length = 64 := by
  induction cs using packBlocks.induct with
  | case1 => cases h
  | case2 | case3 | case4 =>
    obtain rfl := List.mem_singleton.mp h
    rfl
  | case5 a b c d rest ih =>
    rcases List.mem_cons.mp h with rfl | h
    · rfl
    · exact ih h

theorem textToBlocks_ok_iff {cs : List Nat} {bs : List Bits} :
    textToBlocks cs = .ok bs ↔ ValidText cs ∧ packBlocks cs = bs := by
  unfold textToBlocks
  split_ifs with h
  · simp only [false_iff, not_and]
    intro hvalid
    obtain ⟨c, hc, hlt⟩ := List.any_eq_true.mp h
    exact absurd (hvalid c hc) (not_le.mpr (of_decide_eq_true hlt))
  · have hvalid : ValidText cs := fun c hc => not_lt.mp fun hlt =>
      h (List.any_eq_true.mpr ⟨c, hc, decide_eq_true hlt⟩)
    rw [Except.ok.injEq, and_iff_right hvalid]

/-- The flattened key ring (R201). -/
def ringBlocks (keys : List (List Nat)) : List Bits := keys.flatMap packBlocks

theorem ringBlocks_cons (k : List Nat) (keys : List (List Nat)) :
    ringBlocks (k :: keys) = packBlocks k ++ ringBlocks keys :=
  List.flatMap_cons

theorem keyRingBlocks_ok_iff {keys : List (List Nat)} {ring : List Bits} :
    keyRingBlocks keys = .ok ring ↔ (∀ k ∈ keys, ValidText k) ∧ ringBlocks keys = ring := by
  induction keys generalizing ring with
  | nil => simp [keyRingBlocks, ringBlocks]
  | cons k keys ih =>
    simp only [keyRingBlocks, bind_ok_iff, textToBlocks_ok_iff, ih, pure_eq_ok, Except.ok.injEq,
      List.forall_mem_cons, ringBlocks_cons]
    constructor
    · rintro ⟨_, ⟨hk, rfl⟩, _, ⟨hkeys, rfl⟩, rfl⟩
      exact ⟨⟨hk, hkeys⟩, rfl⟩
    · rintro ⟨⟨hk, hkeys⟩, rfl⟩
      exact ⟨_, ⟨hk, rfl⟩, _, ⟨hkeys, rfl⟩, rfl⟩

theorem ringBlocks_length (keys : List (List Nat)) :
    (ringBlocks keys).length = (keys.map fun k => blockCount k.length).sum := by
  rw [ringBlocks, List.length_flatMap]
  simp only [packBlocks_length]

theorem ringBlocks_map_toNat_length (keys : List (List (BitVec 32))) :
    (ringBlocks (keys.map fun k => k.map BitVec.toNat)).length =
      (keys.map fun k => blockCount k.length).sum := by
  rw [ringBlocks_length, List.map_map]
  exact congrArg List.sum (List.map_congr_left fun k _ => by rw [Function.comp, List.length_map])

theorem length_of_mem_ringBlocks {keys : List (List Nat)} {b : Bits} (h : b ∈ ringBlocks keys) :
    b.length = 64 := by
  obtain ⟨k, -, hb⟩ := List.mem_flatMap.mp h
  exact length_of_mem_packBlocks hb

/-- The pack buffer `buf` with its count `n` holds the characters `cs` (R35, R36). -/
def BufferHolds (buf : Word) (n : Nat) (cs : List Nat) : Prop :=
  n = cs.length ∧ buf = packWord cs ∧ ValidText cs

theorem bufferHolds_nil : BufferHolds 0 0 [] :=
  ⟨rfl, packWord_nil.symm, List.forall_mem_nil _⟩

/-- One more character in the pack buffer, given as the command's immediate (R203, R206). -/
theorem BufferHolds.push {buf : Word} {n : Nat} {cs : List Nat} {imm : BitVec 32}
    (h : BufferHolds buf n cs) (hfew : cs.length < 4) (hchar : imm.toNat ≤ 0xFFFF) :
    BufferHolds (buf ||| (imm.setWidth 64 <<< (48 - 16 * n))) (n + 1) (cs ++ [imm.toNat]) := by
  obtain ⟨rfl, rfl, hvalid⟩ := h
  refine ⟨by rw [List.length_append, List.length_singleton], ?_, ?_⟩
  · rw [← packChar_toNat, packChar_packWord hfew hchar]
  · exact List.forall_mem_append.mpr ⟨hvalid, List.forall_mem_singleton.mpr hchar⟩

/-! ### Commands that pack characters into blocks

The commands `put` (of a character) and `fin` (of the end of a string) pack characters into blocks
for a taker that can take, in order, exactly the lists of blocks with `Accepts`. `Holds bs cs` are the
states after the blocks `bs`, with the characters `cs` in the pack buffer. Both halves of the cascade
work like this: KPUTC and KEND for the key ring, DPUTC and DEND for the output. -/

section Packing

variable (put : BitVec 32 → Instr) (fin : Instr) (Accepts : List Bits → Prop)
  (Holds : List Bits → List Nat → State → Prop)

/-- The commands are rejected while an error is recorded (R244). -/
def StopOnError : Prop :=
  (∀ imm, runsDespiteError (put imm).mnemonic = false) ∧ runsDespiteError fin.mnemonic = false

/-- The blocks taken so far are accepted, and so is every first part of an accepted list. -/
def AcceptsInitialParts : Prop :=
  (∀ bs bs', Accepts (bs ++ bs') → Accepts bs) ∧ (∀ bs cs s, Holds bs cs s → Accepts bs)

/-- A character goes into the pack buffer, and the fourth one completes a block. -/
def PutPacks : Prop :=
  (∀ bs cs s (imm : BitVec 32), Holds bs cs s → cs.length < 3 →
    Answers (exec (put imm) s) (imm.toNat ≤ 0xFFFF) (Holds bs (cs ++ [imm.toNat]))) ∧
  (∀ bs cs s (imm : BitVec 32), Holds bs cs s → cs.length = 3 →
    Answers (exec (put imm) s)
      (imm.toNat ≤ 0xFFFF ∧ Accepts (bs ++ [padded (cs ++ [imm.toNat])]))
      (Holds (bs ++ [padded (cs ++ [imm.toNat])]) []))

/-- The end of a string does nothing for an empty pack buffer, and completes a partial block. -/
def FinPacks : Prop :=
  (∀ bs s, Holds bs [] s → Answers (exec fin s) True (Holds bs [])) ∧
  (∀ bs cs s, Holds bs cs s → 0 < cs.length → cs.length ≤ 3 →
    Answers (exec fin s) (Accepts (bs ++ [padded cs])) (Holds (bs ++ [padded cs]) []))

/-- The commands pack characters into blocks for the taker. -/
def PacksBlocks : Prop :=
  StopOnError put fin ∧ AcceptsInitialParts Accepts Holds ∧ PutPacks put Accepts Holds ∧
    FinPacks fin Accepts Holds

end Packing

section Strings

variable {put : BitVec 32 → Instr} {fin : Instr} {Accepts : List Bits → Prop}
  {Holds : List Bits → List Nat → State → Prop} {bs : List Bits} {cs : List Nat} {s : State}

/-- The commands of a string, its characters and its end, are all rejected after an error. -/
theorem StopOnError.string (h : StopOnError put fin) (imms : List (BitVec 32)) :
    ∀ i ∈ imms.map put ++ [fin], runsDespiteError i.mnemonic = false := by
  obtain ⟨hput, hfin⟩ := h
  intro i hi
  rcases List.mem_append.mp hi with hi | hi
  · obtain ⟨imm, -, rfl⟩ := List.mem_map.mp hi
    exact hput imm
  · obtain rfl := List.mem_singleton.mp hi
    exact hfin

theorem StopOnError.strings (h : StopOnError put fin) (keys : List (List (BitVec 32))) :
    ∀ i ∈ keys.flatMap fun k => k.map put ++ [fin], runsDespiteError i.mnemonic = false := by
  intro i hi
  obtain ⟨k, -, hi⟩ := List.mem_flatMap.mp hi
  exact h.string k i hi

/-- The end of a string with the characters `cs` in the pack buffer. -/
theorem PacksBlocks.answers_fin (h : PacksBlocks put fin Accepts Holds) (hs : Holds bs cs s)
    (hlen : cs.length ≤ 3) :
    Answers (exec fin s) (Accepts (bs ++ packBlocks cs)) (Holds (bs ++ packBlocks cs) []) := by
  obtain ⟨-, ⟨-, haccepts⟩, -, hempty, hpartial⟩ := h
  rcases Nat.eq_zero_or_pos cs.length with hzero | hpos
  · obtain rfl := List.length_eq_zero_iff.mp hzero
    rw [packBlocks, List.append_nil]
    exact (hempty bs s hs).congr (iff_of_true trivial (haccepts bs [] s hs))
  · rw [packBlocks_of_partial hpos hlen]
    exact hpartial bs cs s hs hpos hlen

/-- The rest of a string, with the characters `cs` already in the pack buffer: the blocks of all its
characters are taken in order, or an error is recorded. -/
theorem PacksBlocks.answers_string (h : PacksBlocks put fin Accepts Holds)
    (imms : List (BitVec 32)) (hs : Holds bs cs s) (hlen : cs.length ≤ 3) :
    Answers (execAll (imms.map put ++ [fin]) s)
      (ValidText (imms.map BitVec.toNat) ∧
        Accepts (bs ++ packBlocks (cs ++ imms.map BitVec.toNat)))
      (Holds (bs ++ packBlocks (cs ++ imms.map BitVec.toNat)) []) := by
  have ⟨hstop, ⟨hinitial, _⟩, ⟨hchar, hfourth⟩, _⟩ := h
  induction imms generalizing bs cs s with
  | nil =>
    rw [List.map_nil, List.map_nil, List.append_nil, List.nil_append, execAll_singleton]
    exact (h.answers_fin hs hlen).congr (and_iff_right (List.forall_mem_nil _)).symm
  | cons imm imms ih =>
    rw [List.map_cons, List.map_cons, List.cons_append, ValidText, List.forall_mem_cons, and_assoc]
    have hcut : cs ++ imm.toNat :: imms.map BitVec.toNat =
        (cs ++ [imm.toNat]) ++ imms.map BitVec.toNat := List.append_cons ..
    have hone : (cs ++ [imm.toNat]).length = cs.length + 1 := List.length_append
    rcases Nat.lt_or_eq_of_le hlen with hfew | hthree
    · rw [hcut]
      exact (hchar bs cs s imm hs hfew).cons (hstop.string imms)
        fun t ht => ih ht (hone.trans_le hfew)
    · have hblocks : bs ++ packBlocks (cs ++ imm.toNat :: imms.map BitVec.toNat) =
          (bs ++ [padded (cs ++ [imm.toNat])]) ++ packBlocks ([] ++ imms.map BitVec.toNat) := by
        rw [hcut, packBlocks_append_of_four (by rw [hone, hthree]), List.append_cons,
          List.nil_append]
      rw [hblocks]
      refine ((hfourth bs cs s imm hs hthree).cons (hstop.string imms)
        fun t ht => ih ht (Nat.zero_le _)).congr ?_
      rw [and_assoc]
      refine and_congr_right' ⟨fun ⟨_, hvalid, hall⟩ => ⟨hvalid, hall⟩, fun ⟨hvalid, hall⟩ => ?_⟩
      exact ⟨hinitial _ _ hall, hvalid, hall⟩

/-- Several strings in order. -/
theorem PacksBlocks.answers_strings (h : PacksBlocks put fin Accepts Holds)
    (keys : List (List (BitVec 32))) (hs : Holds bs [] s) :
    Answers (execAll (keys.flatMap fun k => k.map put ++ [fin]) s)
      ((∀ k ∈ keys, ValidText (k.map BitVec.toNat)) ∧
        Accepts (bs ++ ringBlocks (keys.map fun k => k.map BitVec.toNat)))
      (Holds (bs ++ ringBlocks (keys.map fun k => k.map BitVec.toNat)) []) := by
  have ⟨hstop, ⟨hinitial, haccepts⟩, _, _⟩ := h
  induction keys generalizing bs s with
  | nil =>
    have hnil : bs ++ ringBlocks [] = bs := List.append_nil bs
    rw [List.map_nil, hnil]
    exact .of_ok ⟨List.forall_mem_nil _, haccepts bs [] s hs⟩ rfl hs
  | cons k keys ih =>
    rw [List.flatMap_cons, List.map_cons, ringBlocks_cons, List.forall_mem_cons,
      ← List.append_assoc]
    refine ((h.answers_string k hs (Nat.zero_le _)).append (hstop.strings keys)
      fun t ht => ih ht).congr ?_
    rw [List.nil_append, and_assoc, and_assoc]
    refine and_congr_right' ⟨fun ⟨_, hvalid, hall⟩ => ⟨hvalid, hall⟩, fun ⟨hvalid, hall⟩ => ?_⟩
    exact ⟨hinitial _ _ hall, hvalid, hall⟩

end Strings

end Sys2Proof.Machine
end

section
/-! PROOFS. The key load and the ENCRYPT sequence (45_cascade.md R201, R212): what the key commands
hold of the key ring, what the data commands hold of the output, and that both pack characters into
blocks. -/

namespace Sys2Proof.Machine

theorem Err.code_ne_zero (e : Err) : e.code ≠ 0 := by
  cases e <;> exact ne_of_beq_false rfl

/-! ### The key ring in KBM (R200, R201) -/

/-- KBM holds exactly the key blocks `ring`, in order. -/
def HoldsRing (ring : List Bits) (s : State) : Prop :=
  s.nkb = ring.length ∧ ring.length ≤ 64 ∧
    ∀ k (h : k < ring.length), memRead s.kbm k = some (ofBits 64 ring[k])

theorem holdsRing_nil {s : State} (hnkb : s.nkb = 0) : HoldsRing [] s :=
  ⟨hnkb, Nat.zero_le _, fun _ hk => absurd hk (Nat.not_lt_zero _)⟩

theorem HoldsRing.append_single {ring : List Bits} {block : Bits} {s t : State}
    (h : HoldsRing ring s) (hroom : s.nkb < 64) (hnkb : t.nkb = s.nkb + 1)
    (hkbm : ∀ k, memRead t.kbm k =
      if k = s.nkb then some (ofBits 64 block) else memRead s.kbm k) :
    HoldsRing (ring ++ [block]) t := by
  obtain ⟨hcount, -, hblocks⟩ := h
  have hlen : (ring ++ [block]).length = ring.length + 1 := List.length_append
  refine ⟨by rw [hnkb, hcount, hlen], by rw [hlen, ← hcount]; exact hroom, fun k hk => ?_⟩
  rw [hkbm, hcount]
  split_ifs with hlast
  · rw [List.getElem_concat_length hlast]
  · have hk : k < ring.length := by omega
    rw [List.getElem_append_left hk, hblocks k hk]

/-- A ring of blocks that KBM holds is the ring that the cascade reads. -/
theorem HoldsRing.keyRing_eq {ring : List Bits} {s : State} (h : HoldsRing ring s)
    (hlen : ∀ b ∈ ring, b.length = 64) : keyRing s = ring := by
  obtain ⟨hcount, -, hblocks⟩ := h
  apply List.ext_getElem
  · rw [List.length_map, List.length_range, hcount]
  · intro k _ hk
    rw [List.getElem_map, List.getElem_range, kbmRead, hblocks k hk, Option.getD_some,
      toBits_ofBits (hlen _ (List.getElem_mem hk))]

/-! ### Loading the key ring (R203, R205) -/

/-- The tables, the data pack buffer and the output count are those of `s0`: what a plaintext after a
key load relies on. -/
def DataSideOf (s0 s : State) : Prop :=
  s.params = s0.params ∧ s.dpbuf = s0.dpbuf ∧ s.ocnt = s0.ocnt

/-- After a part of a key load from `s0`: the blocks `bs` are in KBM, the characters `cs` of the
next one in the key pack buffer, and no error is recorded. -/
def KeysHeld (s0 : State) (bs : List Bits) (cs : List Nat) (s : State) : Prop :=
  s.err = 0 ∧ s.dpn = 0 ∧ HoldsRing bs s ∧ BufferHolds s.kpbuf s.kpn cs ∧ DataSideOf s0 s

section KeyLoad

variable {s0 s : State} {bs : List Bits} {cs : List Nat} {imm : BitVec 32}

/-- A completed key block: it is appended to the ring, or the ring is full. -/
theorem KeysHeld.answers_block {cs' : List Nat} {out : Host.Outcome State Fault Refusal} {op : Byte}
    (h : KeysHeld s0 bs cs s)
    (happend : s.nkb < 64 → ∃ m,
      out = .next (complete { s with kbm := m, nkb := s.nkb + 1, kpbuf := 0, kpn := 0 }) ∧
      ∀ k, memRead m k = if k = s.nkb then some (packWord cs') else memRead s.kbm k)
    (hfull : 64 ≤ s.nkb → out = failed 6 op s) :
    Answers out ((bs ++ [padded cs']).length ≤ 64) (KeysHeld s0 (bs ++ [padded cs']) []) := by
  obtain ⟨herr, hdpn, hring, -, hside⟩ := h
  have ⟨hcount, _⟩ := hring
  have hlen : (bs ++ [padded cs']).length = s.nkb + 1 := by
    rw [List.length_append, hcount, List.length_singleton]
  rcases Nat.lt_or_ge s.nkb 64 with hroom | hroom
  · obtain ⟨m, hout, hm⟩ := happend hroom
    exact .of_ok (hlen.trans_le hroom) hout
      ⟨herr, hdpn, hring.append_single hroom rfl hm, bufferHolds_nil, hside⟩
  · exact .of_not_ok (by omega) (hfull hroom) (Err.code_ne_zero .keyRingFull)

/-- KPUTC packs a key character (R203). -/
theorem putPacks_kputc (s0 : State) :
    PutPacks .kputc (fun bs => bs.length ≤ 64) (KeysHeld s0) := by
  refine ⟨fun bs cs s imm h hfew => ?_, fun bs cs s imm h hthree => ?_⟩
  all_goals
    have ⟨herr, hdpn, hring, hbuf, hside⟩ := h
    obtain ⟨hpack, happend, -, hinvalid, hfull⟩ := kputcPacksAKeyCharacter imm s herr
    have ⟨hkpn, _⟩ := hbuf
  · rcases Nat.lt_or_ge 0xFFFF imm.toNat with hchar | hchar
    · exact .of_not_ok (not_le.mpr hchar) (hinvalid ⟨hdpn, hchar⟩)
        (Err.code_ne_zero .invalidCharacter)
    · exact .of_ok hchar (hpack ⟨hdpn, hchar, hkpn.trans_lt hfew⟩)
        ⟨herr, hdpn, hring, hbuf.push (hfew.trans (Nat.lt_succ_self 3)) hchar, hside⟩
  · rcases Nat.lt_or_ge 0xFFFF imm.toNat with hchar | hchar
    · exact .of_not_ok (fun hok => absurd hok.1 (not_le.mpr hchar)) (hinvalid ⟨hdpn, hchar⟩)
        (Err.code_ne_zero .invalidCharacter)
    · have hfour : 3 ≤ s.kpn := (hkpn.trans hthree).ge
      obtain ⟨-, hword, -⟩ := hbuf.push (hthree.trans_lt (Nat.lt_succ_self 3)) hchar
      rw [hword] at happend
      refine Answers.congr ?_ (and_iff_right hchar).symm
      exact h.answers_block (fun hroom => happend ⟨hdpn, hchar, hfour, hroom⟩)
        fun hroom => hfull ⟨hdpn, hchar, hfour, hroom⟩

/-- KEND ends a key string (R205). -/
theorem finPacks_kend (s0 : State) :
    FinPacks .kend (fun bs => bs.length ≤ 64) (KeysHeld s0) := by
  refine ⟨fun bs s h => ?_, fun bs cs s h hpos _ => ?_⟩
  all_goals
    have ⟨herr, hdpn, hring, ⟨hkpn, hkpbuf, _⟩, hside⟩ := h
    obtain ⟨hempty, happend, -, hfull⟩ := kendEndsAKeyString s herr
  · exact .of_ok trivial (hempty ⟨hdpn, hkpn⟩) h
  · have hpart : 0 < s.kpn := hpos.trans_eq hkpn.symm
    rw [hkpbuf] at happend
    exact h.answers_block (fun hroom => happend ⟨hdpn, hpart, hroom⟩)
      fun hroom => hfull ⟨hdpn, hpart, hroom⟩

/-- KPUTC and KEND pack characters into at most 64 key blocks (R203-R205). -/
theorem packsBlocks_keys (s0 : State) :
    PacksBlocks .kputc .kend (fun bs => bs.length ≤ 64) (KeysHeld s0) := by
  refine ⟨⟨fun _ => rfl, rfl⟩, ⟨fun bs bs' hall => ?_, fun bs cs s h => ?_⟩, putPacks_kputc s0,
    finPacks_kend s0⟩
  · exact (List.length_append ▸ Nat.le_add_right _ _).trans hall
  · obtain ⟨-, -, ⟨-, hroom, -⟩, -⟩ := h
    exact hroom

/-- An empty key ring is a key load just begun. -/
theorem keysHeld_of_empty (herr : s.err = 0) (hdpn : s.dpn = 0) (hnkb : s.nkb = 0)
    (hkpn : s.kpn = 0) (hkpbuf : s.kpbuf = 0) : KeysHeld s [] [] s := by
  refine ⟨herr, hdpn, holdsRing_nil hnkb, ?_, rfl, rfl, rfl⟩
  rw [hkpn, hkpbuf]
  exact bufferHolds_nil

/-- The key strings of a ring, from a key ring just emptied. -/
theorem answers_keys (keys : List (List (BitVec 32))) (hs : KeysHeld s0 [] [] s) :
    Answers (execAll (keys.flatMap kstr) s)
      ((∀ k ∈ keys, ValidText (k.map BitVec.toNat)) ∧
        (ringBlocks (keys.map fun k => k.map BitVec.toNat)).length ≤ 64)
      (KeysHeld s0 (ringBlocks (keys.map fun k => k.map BitVec.toNat)) []) :=
  (packsBlocks_keys s0).answers_strings keys hs

end KeyLoad

/-! ### Encrypting the plaintext (R206-R208) -/

section Output

variable {t : Config.Params} {ring bs : List Bits} {text : List Byte}

theorem encryptBlocks_nil (t : Config.Params) (ring : List Bits) :
    encryptBlocks t ring [] = .ok [] :=
  rfl

theorem encryptBlocks_cons (t : Config.Params) (ring : List Bits) (b : Bits) (bs : List Bits) :
    encryptBlocks t ring (b :: bs) =
      cascadeFold t ring b >>= fun x => blocksToHex x >>= fun hex =>
      encryptBlocks t ring bs >>= fun rest => .ok (hex ++ rest) :=
  rfl

theorem encryptBlocks_append (t : Config.Params) (ring bs bs' : List Bits) :
    encryptBlocks t ring (bs ++ bs') =
      encryptBlocks t ring bs >>= fun text =>
      encryptBlocks t ring bs' >>= fun text' => .ok (text ++ text') := by
  induction bs with
  | nil =>
    rw [List.nil_append, encryptBlocks_nil, ok_bind]
    exact (bind_pure _).symm
  | cons b bs ih =>
    simp only [List.cons_append, encryptBlocks_cons, ih, bind_assoc, ok_bind, List.append_assoc]

theorem encryptBlocks_singleton (t : Config.Params) (ring : List Bits) (b : Bits) :
    encryptBlocks t ring [b] = cascadeFold t ring b >>= blocksToHex := by
  simp only [encryptBlocks_cons, encryptBlocks_nil, ok_bind, List.append_nil]
  exact congrArg (cascadeFold t ring b >>= ·) (funext fun x => bind_pure _)

/-- Every block makes sixteen characters (R108). -/
theorem encryptBlocks_length (h : encryptBlocks t ring bs = .ok text) :
    text.length = 16 * bs.length := by
  induction bs generalizing text with
  | nil =>
    obtain rfl := Except.ok.inj h
    rfl
  | cons b bs ih =>
    simp only [encryptBlocks_cons, bind_ok_iff, Except.ok.injEq] at h
    obtain ⟨x, -, hex, hhex, rest, hrest, rfl⟩ := h
    rw [List.length_append, (blocksToHex_ok hhex).2, ih hrest, List.length_cons]
    omega

/-- The data blocks `bs` can be encrypted under `ring`, and their text fits OCM (R208, R212). -/
def Encryptable (t : Config.Params) (ring bs : List Bits) : Prop :=
  16 * bs.length ≤ 2048 ∧ ∃ text, encryptBlocks t ring bs = .ok text

theorem Encryptable.of_append {bs' : List Bits} (h : Encryptable t ring (bs ++ bs')) :
    Encryptable t ring bs := by
  obtain ⟨hroom, text, htext⟩ := h
  rw [encryptBlocks_append] at htext
  obtain ⟨text, htext, -⟩ := bind_ok_iff.mp htext
  rw [List.length_append] at hroom
  exact ⟨by omega, text, htext⟩

/-- The output after one more block, whose hex text was appended. -/
theorem encryptBlocks_append_single_of_fold {b c : Bits} (hblock : b.length = 64)
    (htext : encryptBlocks t ring bs = .ok text) (hc : cascadeFold t ring b = .ok c) :
    encryptBlocks t ring (bs ++ [b]) =
      .ok (text ++ (List.range 16).map (hexCharacter (val c))) := by
  rw [encryptBlocks_append, htext, ok_bind, encryptBlocks_singleton, hc, ok_bind,
    blocksToHex_of_length (cascadeFold_length hblock hc), ok_bind]

/-- OCM holds the text of the blocks before, so with the hex text of one more block appended it holds
the text of them all. -/
theorem memRead_of_appendsHex {m0 m : Mem Byte} {x : Nat}
    (hm0 : ∀ a, a < text.length → memRead m0 a = text[a]?)
    (hm : AppendsHex m0 m text.length x) {a : Nat} (ha : a < text.length + 16) :
    memRead m a = (text ++ (List.range 16).map (hexCharacter x))[a]? := by
  rw [hm a]
  rcases Nat.lt_or_ge a text.length with hold | hnew
  · rw [if_neg (by omega), hm0 a hold, List.getElem?_append_left hold]
  · rw [if_pos ⟨hnew, ha⟩, List.getElem?_append_right hnew, List.getElem?_map,
      List.getElem?_range (by omega), Option.map_some]

end Output

/-- The text of the data blocks `bs`, encrypted under `ring`, is in OCM (R208). -/
def OutputHolds (t : Config.Params) (ring bs : List Bits) (s : State) : Prop :=
  s.ocnt = 16 * bs.length ∧ 16 * bs.length ≤ 2048 ∧
    ∃ text, encryptBlocks t ring bs = .ok text ∧
      ∀ a, a < text.length → memRead s.ocm a = text[a]?

/-- After a part of a plaintext, under the tables `t` and the key ring `ring`: the text of the data
blocks `bs` is in OCM, the characters `cs` of the next one are in the data pack buffer, and no error
is recorded. -/
def DataHeld (t : Config.Params) (ring bs : List Bits) (cs : List Nat) (s : State) : Prop :=
  s.err = 0 ∧ s.kpn = 0 ∧ s.params = t ∧ HoldsRing ring s ∧ BufferHolds s.dpbuf s.dpn cs ∧
    OutputHolds t ring bs s

section Plaintext

variable {t : Config.Params} {s s0 : State} {ring bs : List Bits} {cs : List Nat}
  {imm : BitVec 32}

/-- A loaded key ring with no output yet is a plaintext just begun. -/
theorem KeysHeld.dataHeld (h : KeysHeld s0 ring [] s) (hocnt0 : s0.ocnt = 0)
    (hdpbuf0 : s0.dpbuf = 0) : DataHeld s0.params ring [] [] s := by
  obtain ⟨herr, hdpn, hring, ⟨hkpn, -⟩, hparams, hdpbuf, hocnt⟩ := h
  refine ⟨herr, hkpn, hparams, hring, ?_, hocnt.trans hocnt0, Nat.zero_le _, [], rfl,
    fun _ ha => absurd ha (Nat.not_lt_zero _)⟩
  rw [hdpbuf, hdpbuf0, hdpn]
  exact bufferHolds_nil

theorem DataHeld.encryptable (h : DataHeld t ring bs cs s) : Encryptable t ring bs := by
  obtain ⟨-, -, -, -, -, -, hroom, text, htext, -⟩ := h
  exact ⟨hroom, text, htext⟩

/-- A completed data block: its text is appended to the output, or an error is recorded. -/
theorem DataHeld.answers_block {cs' : List Nat} {out : Host.Outcome State Fault Refusal} {op : Byte}
    (h : DataHeld t ring bs cs s) (hring : ∀ b ∈ ring, b.length = 64) (hlen : cs'.length ≤ 4)
    (hout : DataBlockEncrypted (packWord cs') op s out) :
    Answers out (Encryptable t ring (bs ++ [padded cs']))
      (DataHeld t ring (bs ++ [padded cs']) []) := by
  obtain ⟨herr, hkpn, rfl, hloaded, -, hcount, -, text, htext, hocm⟩ := h
  obtain ⟨hfits, hfull⟩ := hout
  rw [hloaded.keyRing_eq hring, toBits_packWord hlen] at hfits
  have hnewcount : s.ocnt + 16 = 16 * (bs ++ [padded cs']).length := by
    rw [List.length_append, List.length_singleton, hcount]
    omega
  have hocnt : s.ocnt = text.length := hcount.trans (encryptBlocks_length htext).symm
  rcases Nat.lt_or_ge 2048 (s.ocnt + 16) with hroom | hroom
  · refine .of_not_ok (fun ⟨hle, _⟩ => ?_) (hfull hroom) (Err.code_ne_zero .outputFull)
    exact absurd (hnewcount.trans_le hle) (not_le.mpr hroom)
  · obtain ⟨hanswer, herror⟩ := hfits hroom
    cases hc : cascadeFold s.params ring (padded cs') with
    | error e =>
      refine .of_not_ok (fun ⟨_, text', htext'⟩ => ?_) (herror e hc) (Err.code_ne_zero e)
      rw [encryptBlocks_append, htext, ok_bind, encryptBlocks_singleton, hc, error_bind,
        error_bind] at htext'
      cases htext'
    | ok c =>
      obtain ⟨m, _, _, _, _, _, _, hnext, hhex, -⟩ := hanswer c hc
      have hnew := encryptBlocks_append_single_of_fold (padded_length hlen) htext hc
      have hnewlen := (encryptBlocks_length hnew).trans (hnewcount.symm.trans (congrArg (· + 16) hocnt))
      have hnewroom := hnewcount.symm.trans_le hroom
      rw [hocnt] at hhex
      exact .of_ok ⟨hnewroom, _, hnew⟩ hnext ⟨herr, hkpn, rfl, hloaded, bufferHolds_nil, hnewcount,
        hnewroom, _, hnew, fun a ha => memRead_of_appendsHex hocm hhex (hnewlen ▸ ha)⟩

/-- DPUTC packs a data character (R206). -/
theorem putPacks_dputc (t : Config.Params) (hring : ∀ b ∈ ring, b.length = 64) :
    PutPacks .dputc (Encryptable t ring) (DataHeld t ring) := by
  refine ⟨fun bs cs s imm h hfew => ?_, fun bs cs s imm h hthree => ?_⟩
  all_goals
    have ⟨herr, hkpn, hparams, hloaded, hbuf, houtput⟩ := h
    obtain ⟨hpack, hblock, -, hinvalid⟩ := dputcPacksADataCharacter imm s herr
    have ⟨hdpn, _⟩ := hbuf
  · rcases Nat.lt_or_ge 0xFFFF imm.toNat with hchar | hchar
    · exact .of_not_ok (not_le.mpr hchar) (hinvalid ⟨hkpn, hchar⟩)
        (Err.code_ne_zero .invalidCharacter)
    · exact .of_ok hchar (hpack ⟨hkpn, hchar, hdpn.trans_lt hfew⟩)
        ⟨herr, hkpn, hparams, hloaded, hbuf.push (hfew.trans (Nat.lt_succ_self 3)) hchar, houtput⟩
  · rcases Nat.lt_or_ge 0xFFFF imm.toNat with hchar | hchar
    · exact .of_not_ok (fun hok => absurd hok.1 (not_le.mpr hchar)) (hinvalid ⟨hkpn, hchar⟩)
        (Err.code_ne_zero .invalidCharacter)
    · have hlen : (cs ++ [imm.toNat]).length ≤ 4 := by
        rw [List.length_append, List.length_singleton, hthree]
      obtain ⟨-, hword, -⟩ := hbuf.push (hthree.trans_lt (Nat.lt_succ_self 3)) hchar
      rw [hword] at hblock
      refine Answers.congr ?_ (and_iff_right hchar).symm
      exact h.answers_block hring hlen (hblock ⟨hkpn, hchar, (hdpn.trans hthree).ge⟩)

/-- DEND ends the plaintext (R207). -/
theorem finPacks_dend (t : Config.Params) (hring : ∀ b ∈ ring, b.length = 64) :
    FinPacks .dend (Encryptable t ring) (DataHeld t ring) := by
  refine ⟨fun bs s h => ?_, fun bs cs s h hpos hlen => ?_⟩
  all_goals
    have ⟨herr, hkpn, hparams, hloaded, ⟨hdpn, hdpbuf, _⟩, houtput⟩ := h
    obtain ⟨hempty, hblock, -⟩ := dendEndsThePlaintext s herr
  · exact .of_ok trivial (hempty ⟨hkpn, hdpn⟩) h
  · rw [hdpbuf] at hblock
    exact h.answers_block hring (hlen.trans (Nat.le_succ 3))
      (hblock ⟨hkpn, hpos.trans_eq hdpn.symm⟩)

/-- DPUTC and DEND pack characters into data blocks that can be encrypted (R206-R208). -/
theorem packsBlocks_data (t : Config.Params) (hring : ∀ b ∈ ring, b.length = 64) :
    PacksBlocks .dputc .dend (Encryptable t ring) (DataHeld t ring) :=
  ⟨⟨fun _ => rfl, rfl⟩, ⟨fun _ _ => Encryptable.of_append, fun _ _ _ => DataHeld.encryptable⟩,
    putPacks_dputc t hring, finPacks_dend t hring⟩

end Plaintext

/-! ### The whole sequence (R212) -/

/-- ABORT runs whatever ERR is (R231, R244). -/
theorem exec_abort (s : State) : exec .abort s = .next (complete (abortRule s)) := by
  have hruns : ¬ (s.err ≠ 0 ∧ runsDespiteError .abort = false) := fun h => Bool.noConfusion h.2
  rw [exec, execAbort, runCommand, if_neg hruns]
  rfl

theorem keysHeld_complete_abortRule (s : State) :
    KeysHeld (complete (abortRule s)) [] [] (complete (abortRule s)) :=
  keysHeld_of_empty rfl rfl rfl rfl rfl

/-- `encrypt` answers where all characters are valid and every block can be encrypted (R212). -/
theorem encrypt_ok_iff {t : Config.Params} {p : List Nat} {keys : List (List Nat)}
    {text : List Byte} :
    encrypt t p keys = .ok text ↔
      (∀ k ∈ keys, ValidText k) ∧ ValidText p ∧
        encryptBlocks t (ringBlocks keys) (packBlocks p) = .ok text := by
  simp only [encrypt, bind_ok_iff, keyRingBlocks_ok_iff, textToBlocks_ok_iff]
  constructor
  · rintro ⟨_, ⟨hkeys, rfl⟩, _, ⟨hp, rfl⟩, htext⟩
    exact ⟨hkeys, hp, htext⟩
  · rintro ⟨hkeys, hp, htext⟩
    exact ⟨_, ⟨hkeys, rfl⟩, _, ⟨hp, rfl⟩, htext⟩

/-- What the ENCRYPT sequence needs to take every block: valid characters, a ring that fits, and a
plaintext that can be encrypted. It says that `encrypt` answers and everything fits (R212). -/
theorem encryptable_iff (t : Config.Params) (p : List (BitVec 32))
    (keys : List (List (BitVec 32))) :
    ((∀ k ∈ keys, ValidText (k.map BitVec.toNat)) ∧
          (ringBlocks (keys.map fun k => k.map BitVec.toNat)).length ≤ 64) ∧
        ValidText (p.map BitVec.toNat) ∧
          Encryptable t (ringBlocks (keys.map fun k => k.map BitVec.toNat))
            (packBlocks (p.map BitVec.toNat)) ↔
      (∃ text, encrypt t (p.map BitVec.toNat) (keys.map fun k => k.map BitVec.toNat) = .ok text) ∧
        (keys.map fun k => blockCount k.length).sum ≤ 64 ∧ 16 * blockCount p.length ≤ 2048 := by
  simp only [encrypt_ok_iff, Encryptable, ringBlocks_map_toNat_length, packBlocks_length,
    List.length_map, List.forall_mem_map]
  constructor
  · rintro ⟨⟨hkeys, hring⟩, hp, hout, text, htext⟩
    exact ⟨⟨text, hkeys, hp, htext⟩, hring, hout⟩
  · rintro ⟨⟨text, hkeys, hp, htext⟩, hring, hout⟩
    exact ⟨⟨hkeys, hring⟩, hp, hout, text, htext⟩

/-- The ENCRYPT sequence takes every key block and every data block, or records an error. -/
theorem answers_encryptCommands (p : List (BitVec 32)) (keys : List (List (BitVec 32)))
    (s : State) :
    Answers (execAll (encryptCommands p keys) s)
      ((∃ text,
          encrypt s.params (p.map BitVec.toNat) (keys.map fun k => k.map BitVec.toNat) = .ok text) ∧
        (keys.map fun k => blockCount k.length).sum ≤ 64 ∧ 16 * blockCount p.length ≤ 2048)
      (DataHeld s.params (ringBlocks (keys.map fun k => k.map BitVec.toNat))
        (packBlocks (p.map BitVec.toNat)) []) := by
  have hdata := packsBlocks_data s.params
    (ring := ringBlocks (keys.map fun k => k.map BitVec.toNat)) fun _ => length_of_mem_ringBlocks
  have ⟨hstop, _⟩ := hdata
  rw [← encryptable_iff, encryptCommands, execAll_cons (exec_abort s)]
  exact (answers_keys keys (keysHeld_complete_abortRule s)).append (hstop.string p)
    fun t ht => hdata.answers_string p (ht.dataHeld rfl rfl) (Nat.zero_le _)

/-! ### The statements about the sequences -/

/-- Settles O45: both starts leave an empty key ring, and KPUTC and KEND pack the key strings into
it. -/
theorem keyLoadFillsKbmWithTheFlattenedRing : Obligations.KeyLoadFillsKbmWithTheFlattenedRing := by
  intro start keys ring s hstart hring hroom
  obtain ⟨s0, hs0, hempty⟩ : ∃ s0, exec start s = .next s0 ∧ KeysHeld s0 [] [] s0 := by
    rcases hstart with ⟨rfl, herr, hdata⟩ | rfl
    · exact ⟨_, (kclrEmptiesTheKeyRing s herr).1 hdata, keysHeld_of_empty herr hdata rfl rfl rfl⟩
    · exact ⟨_, exec_abort s, keysHeld_complete_abortRule s⟩
  obtain ⟨hvalid, rfl⟩ := keyRingBlocks_ok_iff.mp hring
  obtain ⟨t, hrun, hheld, -⟩ := answers_keys keys hempty
  obtain ⟨hterr, -, ⟨hcount, -, hblocks⟩, ⟨hkpn, -⟩, -⟩ :=
    hheld ⟨List.forall_mem_map.mp hvalid, hroom⟩
  exact ⟨t, (execAll_cons hs0).trans hrun, hterr, hkpn, hcount, ringBlocks_map_toNat_length keys,
    hblocks⟩

/-- Settles O46: the sequence takes every block exactly where `encrypt` answers a text that fits, and
then OCM holds the text of the data blocks. -/
theorem encryptSequenceComputesEncrypt : Obligations.EncryptSequenceComputesEncrypt := by
  intro p keys s answer fits
  obtain ⟨t, hrun, hheld, hfail⟩ := answers_encryptCommands p keys s
  refine ⟨t, hrun, fun text hanswer hfits => ?_, fun hnot => hfail ?_⟩
  · obtain ⟨herr, -, -, -, -, hcount, -, text', htext', hocm⟩ := hheld ⟨⟨text, hanswer⟩, hfits⟩
    obtain rfl : text' = text :=
      Except.ok.inj (htext'.symm.trans (encrypt_ok_iff.mp hanswer).2.2)
    have hocnt : t.ocnt = text'.length := hcount.trans (encryptBlocks_length htext').symm
    refine ⟨herr, ?_, hocnt.symm, fun a ha => hocm a (hocnt ▸ ha)⟩
    rw [hcount, packBlocks_length, List.length_map]
  · rintro ⟨⟨text, hanswer⟩, hfits⟩
    rcases hnot with ⟨e, herror⟩ | hnot
    · cases herror.symm.trans hanswer
    · exact hnot hfits

end Sys2Proof.Machine
end

section
/-! PROOFS. The control commands (46_system.md): they raise no error and run while one is recorded,
so each answers its own writes and completion in every state. -/

namespace Sys2Proof.Machine

/-- NOP, ABORT and CLRERR are never rejected: where the rule succeeds its writes are done, whatever
ERR is (R244). -/
theorem runCommand_ok_of_runsDespiteError {m : Mnemonic} {rule : State → Except Err State}
    {s t : State} (hm : runsDespiteError m = true) (h : rule s = .ok t) :
    runCommand m rule s = .next (complete t) := by
  have hruns : ¬ (s.err ≠ 0 ∧ runsDespiteError m = false) := fun ⟨_, hrejects⟩ =>
    Bool.noConfusion (hm.symm.trans hrejects)
  rw [runCommand, if_neg hruns, h, settle]

theorem exec_nop (s : State) : exec .nop s = .next (complete s) :=
  runCommand_ok_of_runsDespiteError (rule := fun t => .ok t) rfl rfl

theorem exec_clrerr (s : State) : exec .clrerr s = .next (complete (clearError s)) :=
  runCommand_ok_of_runsDespiteError (rule := fun t => .ok (clearError t)) rfl rfl

/-! ### The statements about the control commands -/

/-- Settles O17: NOP runs in every state and writes nothing, so completion is its whole effect. -/
theorem nopOnlyCompletes : Obligations.NopOnlyCompletes := by
  intro s
  rw [exec_nop, complete]

/-- Settles O18: ABORT runs in every state, and its writes are those of its rule. -/
theorem abortReturnsToTheStartOfACall : Obligations.AbortReturnsToTheStartOfACall := by
  intro s
  rw [exec_abort, abortRule, clearError]

/-- Settles O19: CLRERR runs in every state, and its writes are the return from an error. -/
theorem clrerrClearsTheError : Obligations.ClrerrClearsTheError := by
  intro s
  rw [exec_clrerr, clearError]

end Sys2Proof.Machine
end

section
/-! PROOFS. Errors and completion (60_exceptions.md): the rule of each command and what no rule
writes, what the host's cycle can do to DONE, ERR and ERROP, and the statements about rejection,
failure, illegal words and completion. -/

namespace Sys2Proof.Machine

/-! ### The rule of a command (R245) -/

/-- What a command does when it is not rejected: its writes, or the error it raises. -/
def ruleOf : Instr → State → Except Err State
  | .nop => .ok
  | .abort => fun s => .ok (abortRule s)
  | .clrerr => fun s => .ok (clearError s)
  | .perm vd vs1 tbl => permRule vd vs1 tbl
  | .xor vd vs1 vs2 => xorRule vd vs1 vs2
  | .subst vd vs1 => substRule vd vs1
  | .i2b vd vs1 imm => i2bRule vd vs1 imm
  | .b2i vd vs1 => b2iRule vd vs1
  | .hex vs1 => hexRule vs1
  | .ksched vs1 => kschedRule vs1
  | .finit vs1 => finitRule vs1
  | .fround => froundRule
  | .ffinal vd => ffinalRule vd
  | .fblock vd vs1 vs2 => fblockRule vd vs1 vs2
  | .kclr => kclrRule
  | .kputc imm => kputcRule imm
  | .kend => kendRule
  | .dputc imm => dputcRule imm
  | .dend => dendRule
  | .casc vd vs1 => cascRule vd vs1
  | .oclr => fun s => .ok { s with ocnt := 0 }

/-- Every arm of `exec` is the command step of its mnemonic on its rule. -/
theorem exec_eq_runCommand (i : Instr) (s : State) :
    exec i s = runCommand i.mnemonic (ruleOf i) s := by
  cases i <;> rfl

theorem opField_encode (i : Instr) : opField (encode i) = i.mnemonic.code := by
  cases i <;> exact opField_commandWord ..

theorem runsDespiteError_mnemonic_iff (i : Instr) :
    runsDespiteError i.mnemonic = true ↔ i = .nop ∨ i = .abort ∨ i = .clrerr := by
  constructor
  · intro h
    cases i with
    | nop => exact .inl rfl
    | abort => exact .inr (.inl rfl)
    | clrerr => exact .inr (.inr rfl)
    | _ => cases h
  · rintro (rfl | rfl | rfl) <;> rfl

/-! ### What no rule writes (R242, R243) -/

section Frame

variable {s t : State} {buf : Word}

/-- `t` is `s` but for the data of a call: the vector and cipher registers, the memories, and the
counts and buffers of the key ring and the output. -/
def ChangesDataOnly (s t : State) : Prop :=
  t = { t with
    params := s.params, seq := s.seq, done := s.done, wbusy := s.wbusy, rej := s.rej, err := s.err,
    errop := s.errop, ie := s.ie, tick := s.tick, host := s.host, readData := s.readData }

theorem ChangesDataOnly.err_eq (h : ChangesDataOnly s t) : t.err = s.err := by rw [h]

theorem appendKeyBlock_changesDataOnly (h : appendKeyBlock buf s = .ok t) :
    ChangesDataOnly s t := by
  obtain ⟨-, rfl⟩ := appendKeyBlock_ok h
  rfl

theorem cascade_changesDataOnly {data : Bits} {x : Bits × State} (hlen : data.length = 64)
    (h : cascade data s = .ok x) : ChangesDataOnly s x.2 := by
  obtain ⟨⟨rk, kst, l, r, round, fact, hx, -⟩, -⟩ := cascadeFrom_ok hlen h
  rw [hx]
  rfl

theorem dataBlockDone_changesDataOnly (h : dataBlockDone buf s = .ok t) :
    ChangesDataOnly s t := by
  obtain ⟨x, hex, -, hx, -, rfl⟩ := dataBlockDone_ok h
  have hcascade : ChangesDataOnly s x.2 := cascade_changesDataOnly (toBits_length buf) hx
  rw [hcascade]
  rfl

/-- A rule that succeeds leaves the flags, the error report, the host and the tables alone; of the
three commands that run despite an error only NOP would too. -/
theorem ruleOf_changesDataOnly {i : Instr} (hi : runsDespiteError i.mnemonic = false)
    (h : ruleOf i s = .ok t) : ChangesDataOnly s t := by
  cases i with
  | nop | abort | clrerr => cases hi
  | perm => obtain ⟨-, -, w, -, rfl⟩ := permRule_ok h; rfl
  | xor => obtain ⟨-, -, rfl⟩ := xorRule_ok h; rfl
  | subst => obtain ⟨-, w, -, rfl⟩ := substRule_ok h; rfl
  | i2b => obtain ⟨-, -, rfl⟩ := i2bRule_ok h; rfl
  | b2i => obtain ⟨-, rfl⟩ := b2iRule_ok h; rfl
  | hex => obtain ⟨-, -, x, -, rfl⟩ := hexRule_ok h; rfl
  | ksched => obtain ⟨-, x, -, rfl⟩ := kschedRule_ok h; rfl
  | finit => obtain ⟨-, p, -, rfl⟩ := finitRule_ok h; rfl
  | fround =>
    obtain ⟨-, -, hbody⟩ := froundRule_ok h
    obtain ⟨y, -, rfl⟩ := froundBody_ok hbody
    rfl
  | ffinal => obtain ⟨-, -, w, -, rfl⟩ := ffinalRule_ok h; rfl
  | fblock =>
    obtain ⟨-, -, x, hbody, rfl⟩ := fblockRule_ok h
    obtain ⟨⟨rk, kst, l, r, hx⟩, -⟩ := fblockBody_ok hbody
    rw [hx]
    rfl
  | kclr => obtain ⟨-, rfl⟩ := kclrRule_ok h; rfl
  | kputc =>
    obtain ⟨-, -, ⟨-, rfl⟩ | ⟨-, happend⟩⟩ := kputcRule_ok h
    · rfl
    · exact appendKeyBlock_changesDataOnly happend
  | kend =>
    obtain ⟨-, ⟨-, rfl⟩ | ⟨-, happend⟩⟩ := kendRule_ok h
    · rfl
    · exact appendKeyBlock_changesDataOnly happend
  | dputc =>
    obtain ⟨-, -, ⟨-, rfl⟩ | ⟨-, hdone⟩⟩ := dputcRule_ok h
    · rfl
    · exact dataBlockDone_changesDataOnly hdone
  | dend =>
    obtain ⟨-, ⟨-, rfl⟩ | ⟨-, hdone⟩⟩ := dendRule_ok h
    · rfl
    · exact dataBlockDone_changesDataOnly hdone
  | casc vd vs1 =>
    obtain ⟨-, hlen, x, hx, rfl⟩ := cascRule_ok h
    have hcascade : ChangesDataOnly s x.2 :=
      cascade_changesDataOnly ((denotes_length vs1 s).trans hlen) hx
    rw [hcascade]
    rfl
  | oclr => obtain rfl := Except.ok.inj h; rfl

/-- No command succeeds with an error recorded that was not there before. -/
theorem err_eq_zero_of_ruleOf_ok {i : Instr} (herr : s.err = 0) (h : ruleOf i s = .ok t) :
    t.err = 0 := by
  cases hi : runsDespiteError i.mnemonic with
  | true =>
    obtain rfl | rfl | rfl := (runsDespiteError_mnemonic_iff i).mp hi
    · exact Except.ok.inj h ▸ herr
    · exact Except.ok.inj h ▸ abortRule_err s
    · exact Except.ok.inj h ▸ clearError_err s
  | false => exact (ruleOf_changesDataOnly hi h).err_eq.trans herr

end Frame

/-! ### Completion and illegal words (R245, R246) -/

theorem exec_completes (i : Instr) (s : State) : ∃ u, exec i s = .next (complete u) := by
  rw [exec_eq_runCommand]
  exact ⟨_, rfl⟩

theorem runIllegal_completes (w : Word) (s : State) : ∃ u, runIllegal w s = .next (complete u) :=
  ⟨_, rfl⟩

theorem step_of_illegal {s : State} {w : Word} {x : Illegal} (hseq : s.seq = .executing w 0)
    (hdecode : decode w = .error x) : step s = runIllegal w s := by
  obtain ⟨w', i, hseq', hdecode', -⟩ | ⟨w', x', hseq', -, hstep⟩ | ⟨hwaits, -⟩ := step_cases s
  · obtain ⟨rfl, -⟩ := Sequencer.executing.inj (hseq.symm.trans hseq')
    cases hdecode.symm.trans hdecode'
  · obtain ⟨rfl, -⟩ := Sequencer.executing.inj (hseq.symm.trans hseq')
    exact hstep
  · exact absurd hseq (hwaits w)

/-! ### The host's cycle (R37, R248) -/

/-- The cycle of the host is its action at the state with the count of cycles left gone down, which
leaves BUSY as it is. -/
theorem hostCycle_eq_hostAct (s : State) :
    ∃ seq, ({ s with seq := seq } : State).busy = s.busy ∧ hostCycle s =
      { hostAct { s with seq := seq } with tick := (hostAct { s with seq := seq }).tick + 1 } := by
  delta hostCycle State.busy
  cases hseq : s.seq with
  | idle =>
    have hsame : ({ s with seq := .idle } : State) = s := by rw [← hseq]
    exact ⟨.idle, rfl, by rw [hsame]⟩
  | executing w left => exact ⟨.executing w (left - 1), rfl, rfl⟩

theorem and_FF8_of_regAt_eq_status {o : Offset} (h : regAt o = .status) : o &&& 0xFF8 = 0x010 := by
  delta regAt at h
  simp only [ite_eq_iff, reduceCtorEq, and_false, and_true, false_or, or_false] at h
  obtain ⟨-, -, haddr⟩ := h
  exact BitVec.eq_of_toNat_eq haddr

/-- A write to a busy engine is dropped (R281). -/
theorem busWrite_of_busy {s : State} (h : s.busy = true) (o : Offset) (x : Word) :
    busWrite o x s = { s with wbusy := true } :=
  if_pos h

/-- Of the host's writes only that of 1 to STATUS bit 1, to an idle engine, clears DONE. -/
theorem busWrite_clears_done {o : Offset} {x : Word} {s : State} (hdone : s.done = true)
    (h : (busWrite o x s).done = false) :
    s.busy = false ∧ o &&& 0xFF8 = 0x010 ∧ x.getLsbD 1 = true := by
  have hkept : s.done ≠ false := ne_false_of_eq_true hdone
  cases hbusy : s.busy with
  | true =>
    rw [busWrite_of_busy hbusy] at h
    exact absurd h hkept
  | false =>
    rw [busWrite_of_idle hbusy] at h
    cases hreg : regAt o with
    | status =>
      rw [hreg] at h
      have hbit : (s.done && !x.getLsbD 1) = false := h
      exact ⟨rfl, and_FF8_of_regAt_eq_status hreg, by simpa [hdone] using hbit⟩
    | _ =>
      rw [hreg] at h
      exact absurd h hkept

theorem hostAct_clears_done {s : State} (hdone : s.done = true) (h : (hostAct s).done = false) :
    (∃ rest, s.host = .rst :: rest) ∨
      (∃ o x rest, s.host = .write o x :: rest ∧ o &&& 0xFF8 = 0x010 ∧ x.getLsbD 1 = true ∧
        s.busy = false) := by
  have hkept : s.done ≠ false := ne_false_of_eq_true hdone
  delta hostAct at h
  split at h
  · exact absurd h hkept
  · exact absurd h hkept
  · next o x rest hhost =>
    obtain ⟨hbusy, haddr, hbit⟩ := busWrite_clears_done (s := { s with host := rest }) hdone h
    exact .inr ⟨o, x, rest, hhost, haddr, hbit, hbusy⟩
  · exact absurd h hkept
  · exact absurd h hkept
  · next rest hhost => exact .inl ⟨rest, hhost⟩

/-- The host changes the error report by the reset input only. -/
theorem hostCycle_error (s : State) :
    ((hostCycle s).err = s.err ∧ (hostCycle s).errop = s.errop) ∨
      ((hostCycle s).err = 0 ∧ (hostCycle s).errop = 0 ∧ ∃ rest, s.host = .rst :: rest) := by
  obtain ⟨seq, -, hcycle⟩ := hostCycle_eq_hostAct s
  rw [hcycle]
  obtain ⟨rest, hhost, hact⟩ | ⟨_, _, _, _, _, _, _, _, hact⟩ := hostAct_cases { s with seq := seq }
  · rw [hact]
    exact .inr ⟨rfl, rfl, rest, hhost⟩
  · rw [hact]
    exact .inl ⟨rfl, rfl⟩

/-! ### The statements about errors and completion -/

/-- Settles O5: the step of such a word is `runIllegal`, whose two branches are the two clauses. -/
theorem illegalWordIsReported : Obligations.IllegalWordIsReported := by
  intro s w x hseq hdecode
  rw [step_of_illegal hseq hdecode]
  obtain ⟨herr, hrun⟩ | ⟨herr, hrun⟩ := runIllegal_cases w s
  · exact ⟨fun _ => hrun, fun h => absurd herr h⟩
  · exact ⟨fun h => absurd h herr, fun _ => hrun⟩

/-- Settles O6: the engine's steps end in `complete`, which sets DONE, so a step that clears it is a
cycle of the host. -/
theorem doneIsSetByCompletionAndClearedByTheHost :
    Obligations.DoneIsSetByCompletionAndClearedByTheHost := by
  refine ⟨fun i s => ?_, fun w s => ?_, fun s t hdone hstep hcleared => ?_⟩
  · obtain ⟨u, hu⟩ := exec_completes i s
    exact ⟨_, hu, rfl, rfl⟩
  · obtain ⟨u, hu⟩ := runIllegal_completes w s
    exact ⟨_, hu, rfl, rfl⟩
  · have hnot {u : State} (hu : step s = .next (complete u)) : False := by
      obtain rfl := Host.Outcome.next.inj (hstep.symm.trans hu)
      cases hcleared
    obtain ⟨w, i, -, -, hexec⟩ | ⟨w, x, -, -, hillegal⟩ | ⟨-, hcycle⟩ := step_cases s
    · obtain ⟨u, hu⟩ := exec_completes i s
      exact (hnot (hexec.trans hu)).elim
    · obtain ⟨u, hu⟩ := runIllegal_completes w s
      exact (hnot (hillegal.trans hu)).elim
    · obtain rfl := Host.Outcome.next.inj (hstep.symm.trans hcycle)
      obtain ⟨seq, hbusy, hact⟩ := hostCycle_eq_hostAct s
      rw [hact] at hcleared
      rw [← hbusy]
      exact hostAct_clears_done (s := { s with seq := seq }) hdone hcleared

/-- Settles O13: a rule that succeeds leaves ERR = 0, so the command took an error, which is all that
is left of it. -/
theorem failedCommandHasNoEffect : Obligations.FailedCommandHasNoEffect := by
  intro i s t herr hexec hfailed
  rw [exec_eq_runCommand] at hexec
  cases hrule : ruleOf i s with
  | ok u =>
    obtain rfl := Host.Outcome.next.inj (hexec.symm.trans (runCommand_ok herr hrule))
    exact absurd (err_eq_zero_of_ruleOf_ok herr hrule) hfailed
  | error e =>
    obtain rfl := Host.Outcome.next.inj (hexec.symm.trans (runCommand_error herr hrule))
    rw [← opField_encode]
    rfl

/-- Settles O14: every command but the three that run despite an error is rejected. -/
theorem commandsAreRejectedWhileAnErrorIsRecorded :
    Obligations.CommandsAreRejectedWhileAnErrorIsRecorded := by
  intro i s herr hnop habort hclrerr
  have hi : runsDespiteError i.mnemonic = false := Bool.eq_false_iff.mpr fun hruns => by
    obtain h | h | h := (runsDespiteError_mnemonic_iff i).mp hruns
    exacts [hnop h, habort h, hclrerr h]
  exact exec_of_err_ne_zero hi herr

/-- Settles O15: a rejection, NOP and every host cycle without reset keep the error report, and
ABORT, CLRERR and reset clear it. -/
theorem recordedErrorIsSticky : Obligations.RecordedErrorIsSticky := by
  intro s t herr hstep
  have hnext {u : State} (hu : step s = .next u) : t = u :=
    Host.Outcome.next.inj (hstep.symm.trans hu)
  obtain ⟨w, i, hseq, hdecode, hexec⟩ | ⟨w, x, -, -, hillegal⟩ | ⟨-, hcycle⟩ := step_cases s
  · cases hi : runsDespiteError i.mnemonic with
    | true =>
      obtain rfl | rfl | rfl := (runsDespiteError_mnemonic_iff i).mp hi
      · obtain rfl := hnext (hexec.trans (exec_nop s))
        exact .inl ⟨rfl, rfl⟩
      · obtain rfl := hnext (hexec.trans (exec_abort s))
        exact .inr ⟨rfl, rfl, .inl ⟨w, hseq, .inl hdecode⟩⟩
      · obtain rfl := hnext (hexec.trans (exec_clrerr s))
        exact .inr ⟨rfl, rfl, .inl ⟨w, hseq, .inr hdecode⟩⟩
    | false =>
      obtain rfl := hnext (hexec.trans (exec_of_err_ne_zero hi herr))
      exact .inl ⟨rfl, rfl⟩
  · obtain ⟨hzero, -⟩ | ⟨-, hreject⟩ := runIllegal_cases w s
    · exact absurd hzero herr
    · obtain rfl := hnext (hillegal.trans hreject)
      exact .inl ⟨rfl, rfl⟩
  · obtain rfl := hnext hcycle
    obtain hkept | ⟨hcode, hop, hrst⟩ := hostCycle_error s
    · exact .inl hkept
    · exact .inr ⟨hcode, hop, .inr hrst⟩

end Sys2Proof.Machine
end

section
/-! PROOFS. What a command and a step leave alone (10_state.md, 60_exceptions.md R242, R245,
70_reset_and_hazards.md R280): everything a command can do, what each rule writes, the way of a
command in flight to its completion, and the statements about both. -/

namespace Sys2Proof.Machine

/-! ### Everything a command can do (R242, R244, R245) -/

/-- A command is rejected, or fails, or does what its rule does; and it completes. -/
theorem exec_cases (i : Instr) (s : State) :
    exec i s = .next (complete (reject s)) ∨
    (∃ e, exec i s = .next (complete (takeError e i.mnemonic.code s))) ∨
    (∃ u, ruleOf i s = .ok u ∧ exec i s = .next (complete u)) := by
  rw [exec_eq_runCommand]
  obtain ⟨-, -, hreject⟩ | ⟨-, ⟨u, hrule, hdone⟩ | ⟨e, -, hfail⟩⟩ :=
    runCommand_cases i.mnemonic (ruleOf i) s
  · exact .inl hreject
  · exact .inr (.inr ⟨u, hrule, hdone⟩)
  · exact .inr (.inl ⟨e, hfail⟩)

/-! ### What a rule writes (R24-R38) -/

/-- The command writes its result to register `vd`. -/
def HasDestination (i : Instr) (vd : VIndex) : Prop :=
  (∃ a tbl, i = .perm vd a tbl) ∨ (∃ a b, i = .xor vd a b) ∨ (∃ a, i = .subst vd a) ∨
    (∃ a imm, i = .i2b vd a imm) ∨ (∃ a, i = .b2i vd a) ∨ i = .ffinal vd ∨
    (∃ a b, i = .fblock vd a b) ∨ (∃ a, i = .casc vd a)

/-- `t` is `s` but for what a rule of this command may write: its destination, the round keys if it
schedules a key, KBM if it ends a key block, OCM from OCNT on if it appends output. -/
def WritesOnly (i : Instr) (s t : State) : Prop :=
  (∀ n, ¬ HasDestination i n → t.reg n = s.reg n) ∧
  (i.mnemonic ∉ [Mnemonic.ksched, .fblock, .casc, .dputc, .dend] →
    t.rk = s.rk ∧ t.kstate = s.kstate) ∧
  (i.mnemonic ∉ [Mnemonic.kputc, .kend] → t.kbm = s.kbm) ∧
  (i.mnemonic ∉ [Mnemonic.hex, .dputc, .dend] → t.ocm = s.ocm) ∧
  (∀ a, a < s.ocnt → memRead t.ocm a = memRead s.ocm a)

section Writes

variable {i : Instr} {s t : State} {buf : Word}

theorem writesOnly_refl (i : Instr) (s : State) : WritesOnly i s s :=
  ⟨fun _ _ => rfl, fun _ => ⟨rfl, rfl⟩, fun _ => rfl, fun _ => rfl, fun _ _ => rfl⟩

/-- A vector register is read from the field V alone. -/
theorem reg_congr (h : t.v = s.v) (n : VIndex) : t.reg n = s.reg n :=
  congrArg (fun v : Vector VReg 8 => v[n]) h

/-- A result written to the destination of a command whose other writes are as they should be. -/
theorem WritesOnly.setv (h : WritesOnly i s t) {vd : VIndex} (hdest : HasDestination i vd)
    (x : Bits) : WritesOnly i s (setv vd x t) := by
  obtain ⟨hreg, hrest⟩ := h
  refine ⟨fun n hn => ?_, hrest⟩
  have hother : n ≠ vd := fun heq => hn (heq ▸ hdest)
  exact (setV_reg_other t _ hother).trans (hreg n hn)

/-- What KSCHED and the commands that include it write. -/
theorem writesOnly_keys (hi : i.mnemonic ∈ [Mnemonic.ksched, .fblock, .casc, .dputc, .dend])
    (hv : t.v = s.v) (hkbm : t.kbm = s.kbm) (hocm : t.ocm = s.ocm) :
    WritesOnly i s t :=
  ⟨fun n _ => reg_congr hv n, fun h => absurd hi h, fun _ => hkbm, fun _ => hocm,
    fun _ _ => by rw [hocm]⟩

theorem writesOnly_cascade (hi : i.mnemonic ∈ [Mnemonic.ksched, .fblock, .casc, .dputc, .dend])
    {data : Bits} {x : Bits × State} (hlen : data.length = 64) (h : cascade data s = .ok x) :
    WritesOnly i s x.2 := by
  obtain ⟨⟨rk, kst, l, r, round, fact, hx, -⟩, -⟩ := cascadeFrom_ok hlen h
  rw [hx]
  exact writesOnly_keys hi rfl rfl rfl

theorem writesOnly_appendKeyBlock (hi : i.mnemonic ∈ [Mnemonic.kputc, .kend])
    (h : appendKeyBlock buf s = .ok t) : WritesOnly i s t := by
  obtain ⟨-, rfl⟩ := appendKeyBlock_ok h
  exact ⟨fun _ _ => rfl, fun _ => ⟨rfl, rfl⟩, fun h => absurd hi h, fun _ => rfl, fun _ _ => rfl⟩

/-- Output goes to addresses from OCNT on (R115, R208). -/
theorem memRead_memWriteAll_below {α : Type} (m : Mem α) {a b : Nat} (xs : List α) (h : b < a) :
    memRead (memWriteAll m a xs) b = memRead m b := by
  rw [memRead_memWriteAll, if_neg fun ⟨hle, _⟩ => absurd hle (not_le.mpr h)]

theorem writesOnly_dataBlockDone (hi : i.mnemonic ∈ [Mnemonic.dputc, .dend])
    (h : dataBlockDone buf s = .ok t) : WritesOnly i s t := by
  obtain ⟨x, hex, -, hcascade, -, rfl⟩ := dataBlockDone_ok h
  obtain ⟨⟨rk, kst, l, r, round, fact, hx, -⟩, -⟩ := cascadeFrom_ok (toBits_length buf) hcascade
  rw [hx]
  exact ⟨fun _ _ => rfl,
    fun h => absurd (List.mem_append_right [Mnemonic.ksched, .fblock, .casc] hi) h, fun _ => rfl,
    fun h => absurd (List.mem_cons_of_mem _ hi) h,
    fun _ => memRead_memWriteAll_below s.ocm hex⟩

/-- Everything a rule that succeeds can write. -/
theorem ruleOf_writesOnly (h : ruleOf i s = .ok t) : WritesOnly i s t := by
  have hsame := writesOnly_refl i s
  cases i with
  | nop | abort | clrerr | oclr => obtain rfl := Except.ok.inj h; exact hsame
  | perm => obtain ⟨-, -, w, -, rfl⟩ := permRule_ok h; exact hsame.setv (.inl ⟨_, _, rfl⟩) w
  | xor => obtain ⟨-, -, rfl⟩ := xorRule_ok h; exact hsame.setv (.inr (.inl ⟨_, _, rfl⟩)) _
  | subst =>
    obtain ⟨-, w, -, rfl⟩ := substRule_ok h
    exact hsame.setv (.inr (.inr (.inl ⟨_, rfl⟩))) w
  | i2b =>
    obtain ⟨-, -, rfl⟩ := i2bRule_ok h
    exact hsame.setv (.inr (.inr (.inr (.inl ⟨_, _, rfl⟩)))) _
  | b2i =>
    obtain ⟨-, rfl⟩ := b2iRule_ok h
    exact hsame.setv (.inr (.inr (.inr (.inr (.inl ⟨_, rfl⟩))))) _
  | hex =>
    obtain ⟨-, -, x, -, rfl⟩ := hexRule_ok h
    exact ⟨fun _ _ => rfl, fun _ => ⟨rfl, rfl⟩, fun _ => rfl, fun h => absurd List.mem_cons_self h,
      fun _ => memRead_memWriteAll_below s.ocm x⟩
  | ksched =>
    obtain ⟨-, x, -, rfl⟩ := kschedRule_ok h
    exact writesOnly_keys List.mem_cons_self rfl rfl rfl
  | finit => obtain ⟨-, p, -, rfl⟩ := finitRule_ok h; exact hsame
  | fround =>
    obtain ⟨-, -, hbody⟩ := froundRule_ok h
    obtain ⟨y, -, rfl⟩ := froundBody_ok hbody
    exact hsame
  | ffinal vd =>
    obtain ⟨-, -, w, -, rfl⟩ := ffinalRule_ok h
    have hbody : WritesOnly (.ffinal vd) s { s with fact := false } := hsame
    exact hbody.setv (.inr (.inr (.inr (.inr (.inr (.inl rfl)))))) w
  | fblock vd vs1 vs2 =>
    obtain ⟨-, -, x, hbody, rfl⟩ := fblockRule_ok h
    obtain ⟨⟨rk, kst, l, r, hx⟩, -⟩ := fblockBody_ok hbody
    have hwrites : WritesOnly (.fblock vd vs1 vs2) s x.2 := by
      rw [hx]
      exact writesOnly_keys (.tail _ List.mem_cons_self) rfl rfl rfl
    exact hwrites.setv (.inr (.inr (.inr (.inr (.inr (.inr (.inl ⟨_, _, rfl⟩))))))) x.1
  | kclr => obtain ⟨-, rfl⟩ := kclrRule_ok h; exact hsame
  | kputc =>
    obtain ⟨-, -, ⟨-, rfl⟩ | ⟨-, happend⟩⟩ := kputcRule_ok h
    · exact hsame
    · exact writesOnly_appendKeyBlock List.mem_cons_self happend
  | kend =>
    obtain ⟨-, ⟨-, rfl⟩ | ⟨-, happend⟩⟩ := kendRule_ok h
    · exact hsame
    · exact writesOnly_appendKeyBlock (.tail _ List.mem_cons_self) happend
  | dputc =>
    obtain ⟨-, -, ⟨-, rfl⟩ | ⟨-, hdone⟩⟩ := dputcRule_ok h
    · exact hsame
    · exact writesOnly_dataBlockDone List.mem_cons_self hdone
  | dend =>
    obtain ⟨-, ⟨-, rfl⟩ | ⟨-, hdone⟩⟩ := dendRule_ok h
    · exact hsame
    · exact writesOnly_dataBlockDone (.tail _ List.mem_cons_self) hdone
  | casc vd vs1 =>
    obtain ⟨-, hlen, x, hcascade, rfl⟩ := cascRule_ok h
    have hwrites : WritesOnly (.casc vd vs1) s x.2 :=
      writesOnly_cascade (.tail _ (.tail _ List.mem_cons_self))
        ((denotes_length vs1 s).trans hlen) hcascade
    exact hwrites.setv (.inr (.inr (.inr (.inr (.inr (.inr (.inr ⟨_, rfl⟩))))))) x.1

theorem writesOnly_reject (i : Instr) (s : State) : WritesOnly i s (reject s) :=
  ⟨fun _ _ => rfl, fun _ => ⟨rfl, rfl⟩, fun _ => rfl, fun _ => rfl, fun _ _ => rfl⟩

theorem writesOnly_takeError (i : Instr) (s : State) (e : Err) (op : Byte) :
    WritesOnly i s (takeError e op s) :=
  ⟨fun _ _ => rfl, fun _ => ⟨rfl, rfl⟩, fun _ => rfl, fun _ => rfl, fun _ _ => rfl⟩

theorem WritesOnly.complete (h : WritesOnly i s t) : WritesOnly i s (complete t) := by
  obtain ⟨hreg, hkeys, hkbm, hocm, hbelow⟩ := h
  exact ⟨hreg, hkeys, hkbm, hocm, hbelow⟩

/-- Everything a command can write: rejection, failure and completion reach none of these fields. -/
theorem exec_writesOnly (h : exec i s = .next t) : WritesOnly i s t := by
  obtain hreject | ⟨e, hfail⟩ | ⟨u, hrule, hdone⟩ := exec_cases i s
  · obtain rfl := Host.Outcome.next.inj (h.symm.trans hreject)
    exact (writesOnly_reject i s).complete
  · obtain rfl := Host.Outcome.next.inj (h.symm.trans hfail)
    exact (writesOnly_takeError i s e _).complete
  · obtain rfl := Host.Outcome.next.inj (h.symm.trans hdone)
    exact (ruleOf_writesOnly hrule).complete

/-! ### What no command writes (R37, R38) -/

/-- The tables, the step count, IE, WBUSY and the host's fields of `t` are those of `s`. -/
def KeepsHostSide (s t : State) : Prop :=
  t.params = s.params ∧ t.tick = s.tick ∧ t.ie = s.ie ∧ t.wbusy = s.wbusy ∧ t.host = s.host ∧
    t.readData = s.readData

theorem ruleOf_keepsHostSide (h : ruleOf i s = .ok t) : KeepsHostSide s t := by
  cases hi : runsDespiteError i.mnemonic with
  | true =>
    obtain rfl | rfl | rfl := (runsDespiteError_mnemonic_iff i).mp hi <;>
      obtain rfl := Except.ok.inj h <;> exact ⟨rfl, rfl, rfl, rfl, rfl, rfl⟩
  | false =>
    rw [ruleOf_changesDataOnly hi h]
    exact ⟨rfl, rfl, rfl, rfl, rfl, rfl⟩

/-- A command is one step, and keeps all else of the host's side. -/
theorem exec_keepsHostSide (h : exec i s = .next t) :
    KeepsHostSide { s with tick := s.tick + 1 } t := by
  obtain hreject | ⟨e, hfail⟩ | ⟨u, hrule, hdone⟩ := exec_cases i s
  · obtain rfl := Host.Outcome.next.inj (h.symm.trans hreject)
    exact ⟨rfl, rfl, rfl, rfl, rfl, rfl⟩
  · obtain rfl := Host.Outcome.next.inj (h.symm.trans hfail)
    exact ⟨rfl, rfl, rfl, rfl, rfl, rfl⟩
  · obtain rfl := Host.Outcome.next.inj (h.symm.trans hdone)
    obtain ⟨hparams, htick, hrest⟩ := ruleOf_keepsHostSide hrule
    exact ⟨hparams, congrArg (· + 1) htick, hrest⟩

theorem runIllegal_keepsHostSide {w : Word} (h : runIllegal w s = .next t) :
    KeepsHostSide { s with tick := s.tick + 1 } t := by
  obtain ⟨-, hfail⟩ | ⟨-, hreject⟩ := runIllegal_cases w s
  · obtain rfl := Host.Outcome.next.inj (h.symm.trans hfail)
    exact ⟨rfl, rfl, rfl, rfl, rfl, rfl⟩
  · obtain rfl := Host.Outcome.next.inj (h.symm.trans hreject)
    exact ⟨rfl, rfl, rfl, rfl, rfl, rfl⟩

end Writes

/-- A cycle of the host keeps the tables and counts as one step. -/
theorem hostCycle_params_tick (s : State) :
    (hostCycle s).params = s.params ∧ (hostCycle s).tick = s.tick + 1 := by
  obtain ⟨seq, -, hcycle⟩ := hostCycle_eq_hostAct s
  rw [hcycle]
  obtain ⟨rest, -, hact⟩ | ⟨_, _, _, _, _, _, _, _, hact⟩ := hostAct_cases { s with seq := seq } <;>
    rw [hact] <;> exact ⟨rfl, rfl⟩

/-! ### A command in flight (R245, R280) -/

section InFlight

variable {s t : State} {w : Word}

theorem step_of_legal {i : Instr} (hseq : s.seq = .executing w 0) (hdecode : decode w = .ok i) :
    step s = exec i s := by
  obtain ⟨w', i', hseq', hdecode', hstep⟩ | ⟨w', x, hseq', hdecode', -⟩ | ⟨hwaits, -⟩ :=
    step_cases s
  · obtain ⟨rfl, -⟩ := Sequencer.executing.inj (hseq.symm.trans hseq')
    obtain rfl := Except.ok.inj (hdecode.symm.trans hdecode')
    exact hstep
  · obtain ⟨rfl, -⟩ := Sequencer.executing.inj (hseq.symm.trans hseq')
    cases hdecode.symm.trans hdecode'
  · exact absurd hseq (hwaits w)

theorem step_of_waiting (h : ∀ w, s.seq ≠ .executing w 0) : step s = .next (hostCycle s) := by
  obtain ⟨w, i, hseq, -⟩ | ⟨w, x, hseq, -⟩ | ⟨-, hstep⟩ := step_cases s
  · exact absurd hseq (h w)
  · exact absurd hseq (h w)
  · exact hstep

/-- The engine's step on a latched word ends in completion, whatever the word is. -/
theorem step_completes (hseq : s.seq = .executing w 0) : ∃ u, step s = .next (complete u) := by
  cases hdecode : decode w with
  | ok i => exact step_of_legal hseq hdecode ▸ exec_completes i s
  | error x => exact step_of_illegal hseq hdecode ▸ runIllegal_completes w s

/-- While a command is in flight the host's accesses, reset aside, change WBUSY and its own fields
only (R281). -/
theorem hostAct_of_busy (hbusy : s.busy = true) (hrst : HostAction.rst ∉ s.host) :
    ∃ wbusy host readData, hostAct s = { s with
      wbusy := wbusy, host := host, readData := readData } ∧ host ⊆ s.host := by
  have hrest {a : HostAction} {rest : List HostAction} (h : s.host = a :: rest) :
      rest ⊆ s.host := h ▸ List.subset_cons_self a rest
  delta hostAct
  split
  · exact ⟨_, _, _, rfl, List.Subset.refl _⟩
  · next o rest hhost => exact ⟨_, _, _, rfl, hrest hhost⟩
  · next o x rest hhost =>
    rw [busWrite_of_busy (s := { s with host := rest }) hbusy]
    exact ⟨_, _, _, rfl, hrest hhost⟩
  · next rest hhost =>
    rw [if_pos hbusy]
    exact ⟨_, _, _, rfl, List.Subset.refl _⟩
  · next rest hhost => exact ⟨_, _, _, rfl, hrest hhost⟩
  · next rest hhost => exact absurd (hhost ▸ List.mem_cons_self) hrst

/-- A cycle of the host brings a command in flight one cycle nearer to its step. -/
theorem hostCycle_of_executing {n : Nat} (hseq : s.seq = .executing w (n + 1))
    (hrst : HostAction.rst ∉ s.host) :
    (hostCycle s).seq = .executing w n ∧ HostAction.rst ∉ (hostCycle s).host := by
  have hcycle : hostCycle s =
      { hostAct { s with seq := .executing w n } with
        tick := (hostAct { s with seq := .executing w n }).tick + 1 } := by
    delta hostCycle
    rw [hseq]
    rfl
  obtain ⟨wbusy, host, readData, hact, hsub⟩ :=
    hostAct_of_busy (s := { s with seq := .executing w n }) rfl hrst
  rw [hcycle, hact]
  exact ⟨rfl, fun h => hrst (hsub h)⟩

theorem run_succ_of_step {M : Host.Core} {s t : M.State} (h : M.step s = .next t) (n : Nat) :
    M.run (n + 1) s = M.run n t := by
  have hrun : M.run (n + 1) s =
      match M.step s with
      | .next s' => M.run n s'
      | .fault r => .fault r
      | .refused r => .refused r := rfl
  rw [hrun, h]

/-- With n cycles left and no reset to come, n steps bring the engine to its own step. -/
theorem run_of_executing {n : Nat} (hseq : s.seq = .executing w n)
    (hrst : HostAction.rst ∉ s.host) :
    ∃ t, Host.Core.run Sys2Proof.core n s = .next t ∧ t.seq = .executing w 0 := by
  induction n generalizing s with
  | zero => exact ⟨s, rfl, hseq⟩
  | succ n ih =>
    have hwaits : ∀ w', s.seq ≠ .executing w' 0 := fun w' h =>
      Nat.succ_ne_zero n (Sequencer.executing.inj (hseq.symm.trans h)).2
    obtain ⟨hseq', hrst'⟩ := hostCycle_of_executing hseq hrst
    rw [run_succ_of_step (M := Sys2Proof.core) (step_of_waiting hwaits)]
    exact ih hseq' hrst'

end InFlight

/-! ### The statements about commands and steps -/

/-- Settles O4: of the three kinds of step a latched word that decodes has the first. -/
theorem stepRunsTheDecodedCommand : Obligations.StepRunsTheDecodedCommand :=
  fun _ _ _ hseq hdecode => step_of_legal hseq hdecode

/-- Settles O7: the host's cycles count the latency down, and the engine's step ends in
completion. -/
theorem commandInFlightCompletes : Obligations.CommandInFlightCompletes := by
  intro n w s hseq hrst
  obtain ⟨t, hrun, htseq⟩ := run_of_executing hseq hrst
  obtain ⟨u, hu⟩ := step_completes htseq
  exact ⟨t, complete u, hrun, htseq, hu, rfl, rfl⟩

/-- Settles O8: every command, every illegal word and every cycle of the host keeps the tables and
is one step. -/
theorem tablesNeverChange : Obligations.TablesNeverChange := by
  intro s t hstep
  obtain ⟨w, i, -, -, hexec⟩ | ⟨w, x, -, -, hillegal⟩ | ⟨-, hcycle⟩ := step_cases s
  · obtain ⟨hparams, htick, -⟩ := exec_keepsHostSide (hexec.symm.trans hstep)
    exact ⟨hparams, htick⟩
  · obtain ⟨hparams, htick, -⟩ := runIllegal_keepsHostSide (hillegal.symm.trans hstep)
    exact ⟨hparams, htick⟩
  · obtain rfl := Host.Outcome.next.inj (hstep.symm.trans hcycle)
    exact hostCycle_params_tick s

/-- Settles O16: a failed command leaves only its error report, which CLRERR sets back to the 0 it
was. -/
theorem clrerrUndoesAFailedCommand : Obligations.ClrerrUndoesAFailedCommand := by
  intro i s t herr herrop hexec hfailed
  have hundone : { s with err := 0, errop := 0 } = s := by rw [← herr, ← herrop]
  rw [failedCommandHasNoEffect i s t herr hexec hfailed, exec_clrerr]
  exact congrArg (fun u => Host.Outcome.next (complete (complete u))) hundone

/-- Settles O47: a field that changed is one that the command may write. -/
theorem onlyNamedCommandsWriteKeysAndMemories :
    Obligations.OnlyNamedCommandsWriteKeysAndMemories := by
  intro i s t hexec
  obtain ⟨-, hkeys, hkbm, hocm, hbelow⟩ := exec_writesOnly hexec
  refine ⟨fun hchanged => ?_, fun hchanged => ?_, fun hchanged => ?_, hbelow⟩
  · by_contra hi
    obtain ⟨hrk, hkstate⟩ := hkeys hi
    exact hchanged.elim (absurd hrk) (absurd hkstate)
  · by_contra hi
    exact hchanged (hkbm hi)
  · by_contra hi
    exact hchanged (hocm hi)

/-- Settles O48: of the vector registers a command writes its destination only, and of the host's
side nothing. -/
theorem commandsLeaveOtherRegistersAlone : Obligations.CommandsLeaveOtherRegistersAlone := by
  intro i s t hexec
  obtain ⟨-, -, hie, hwbusy, hhost, hdata⟩ := exec_keepsHostSide hexec
  obtain ⟨hreg, -⟩ := exec_writesOnly hexec
  exact ⟨fun n hn => hreg n fun hdest => hn n hdest rfl, hie, hwbusy, hhost, hdata⟩

end Sys2Proof.Machine
end

section
/-! PROOFS. Encoding (30_encoding.md R85, R89): the fields of an encoding, the encoding of the
command that a word holds, and the statements that join the decoder and the encoder. -/

namespace Sys2Proof

/-! ### The decoder undoes the encoder (R85) -/

/-- Every encoding has the opcode of its command and 0 in its reserved bits and unused fields. -/
theorem encodedFields_statement (i : Instr) : Laws.EncodedFields.Statement i := by
  cases i <;> exact Laws.EncodedFields.of_commandWord rfl rfl rfl rfl rfl rfl

@[simp] theorem vreg_regField (n : VIndex) : vreg (regField n) = n := rfl

/-- The operands of an assembled word are the fields that it was assembled from. -/
theorem operandsOf_encode (i : Instr) : operandsOf i.mnemonic (encode i) = i := by
  cases i <;>
    simp only [Instr.mnemonic, operandsOf, encode, vdField_commandWord, vs1Field_commandWord,
      vs2Field_commandWord, tblField_commandWord, immField_commandWord, vreg_regField]

/-- Settles O10: the encoding of a command passes the decoder's checks and holds its operands. -/
theorem decodeOfEncodeIsTheInstruction : Obligations.DecodeOfEncodeIsTheInstruction := by
  intro i hwf
  obtain ⟨hop, hreserved, hunused⟩ := encodedFields_statement i
  exact (decode_eq_ok_iff _ _).mpr ⟨hop, hreserved, hunused, hwf, operandsOf_encode i⟩

/-! ### The encoder undoes the decoder (R85, R89) -/

/-- A field as an encoder writes it: 0 where the command does not use it. -/
def usedField {n : Nat} (used : Bool) (f : BitVec n) : BitVec n := if used then f else 0#n

/-- A field that is used or 0 is written as it is. -/
theorem usedField_eq_self {n : Nat} {used : Bool} {f : BitVec n} (h : (used || f == 0#n) = true) :
    usedField used f = f := by
  cases used
  · exact (eq_of_beq h).symm
  · rfl

/-- The encoding of the command that a word holds has the word's fields, the unused ones 0. -/
theorem encode_operandsOf (m : Mnemonic) (w : Word) :
    encode (operandsOf m w) = commandWord m.code (usedField m.uses.vd (vdField w))
      (usedField m.uses.vs1 (vs1Field w)) (usedField m.uses.vs2 (vs2Field w))
      (usedField m.uses.tbl (tblField w)) (usedField m.uses.imm (immField w)) := by
  cases m <;> exact rfl

/-- Settles O11: the decoder's checks are that no bit of the word is outside the fields that its
command uses, so the encoding has all of them. -/
theorem legalWordIsTheEncodingOfItsCommand : Obligations.LegalWordIsTheEncodingOfItsCommand := by
  intro w i hdecode
  obtain ⟨hop, hreserved, hunused, hwf, hoperands⟩ := (decode_eq_ok_iff w i).mp hdecode
  obtain ⟨hvd, hvs1, hvs2, htbl, himm⟩ := (unusedClear_iff _ w).mp hunused
  have hword : w = commandWord i.mnemonic.code (vdField w) (vs1Field w) (vs2Field w) (tblField w)
      (immField w) := by
    rw [eq_commandWord_iff]
    exact ⟨hop, hreserved, rfl, rfl, rfl, rfl, rfl⟩
  refine ⟨hwf, ?_⟩
  calc encode i = encode (operandsOf i.mnemonic w) := by rw [hoperands]
    _ = commandWord i.mnemonic.code (vdField w) (vs1Field w) (vs2Field w) (tblField w)
          (immField w) := by
      rw [encode_operandsOf, usedField_eq_self hvd, usedField_eq_self hvs1, usedField_eq_self hvs2,
        usedField_eq_self htbl, usedField_eq_self himm]
    _ = w := hword.symm

/-! ### Words of the tables (R81, R83) -/

/-- A word that is the encoding of a command decodes to it. -/
theorem decode_of_eq_encode {w : Word} {i : Instr} (hwf : i.WellFormed) (h : w = encode i) :
    decode w = .ok i :=
  h ▸ decodeOfEncodeIsTheInstruction i hwf

/-- Settles O9: seven of the words are encodings, and the last one fails the check of the reserved
bits. -/
theorem sampleWordsDecode : Obligations.SampleWordsDecode :=
  ⟨decode_of_eq_encode rfl (by decide), decode_of_eq_encode (by decide) (by decide),
    decode_of_eq_encode rfl (by decide), decode_of_eq_encode rfl (by decide),
    decode_of_eq_encode rfl (by decide), decode_of_eq_encode rfl (by decide),
    decode_of_eq_encode rfl (by decide), by decide⟩

end Sys2Proof
end

section
/-! PROOFS. The invariant (10_state.md sections 4 and 5, 60_exceptions.md R241): its parts in terms
of the fields that they speak of, what each write to those fields does to them, and that reset, every
command and every cycle of the host keep them. -/

namespace Sys2Proof.Machine

/-! ### The parts of the invariant

Each part takes the values of its fields, so that it is kept as it stands by a write to any other
field of the state. -/

/-- The key ring: at most KB_DEPTH blocks, in cells that exist, all written since reset (R33,
R271). -/
def RingSound (kbm : Mem Word) (nkb : Nat) : Prop :=
  nkb ≤ Config.KB_DEPTH ∧ memWf kbm = true ∧ (∀ c ∈ kbm, c.1 < Config.KB_DEPTH) ∧
    ∀ k, k < nkb → (memRead kbm k).isSome = true

/-- The output: whole blocks of hex digits, in cells that exist, all written since reset (R34, R108,
R271). -/
def OutputSound (ocm : Mem Byte) (ocnt : Nat) : Prop :=
  (ocnt ≤ Config.OCM_SIZE ∧ ocnt % 16 = 0) ∧ memWf ocm = true ∧
    (∀ c ∈ ocm, c.1 < Config.OCM_SIZE ∧ isHexDigit c.2) ∧
    ∀ a, a < ocnt → (memRead ocm a).isSome = true

/-- A pack buffer: at most three characters, null-padded (R35, R36). -/
def PackSound (buf : Word) (n : Nat) : Prop := n ≤ 3 ∧ bufferPadded buf n

/-- ROUND is at most 16, and outside a block 0 or 16 (R32). -/
def RoundSound (round : Nat) (fact : Bool) : Prop :=
  round ≤ 16 ∧ (fact = false → round = 0 ∨ round = 16)

/-- ERR is a code of R241, and without an error ERROP is 0 (R242). -/
def ReportSound (err : BitVec 4) (errop : Byte) : Prop :=
  err.toNat ≤ 8 ∧ (err = 0 → errop = 0)

/-- The parts of the invariant, of a state. -/
def PartsSound (s : State) : Prop :=
  RingSound s.kbm s.nkb ∧ OutputSound s.ocm s.ocnt ∧ PackSound s.kpbuf s.kpn ∧
    PackSound s.dpbuf s.dpn ∧ (s.kpn = 0 ∨ s.dpn = 0) ∧ RoundSound s.round s.fact ∧
    ReportSound s.err s.errop

theorem engineInv_iff (s : State) : EngineInv s ↔ PartsSound s := by
  constructor
  · rintro ⟨⟨hnkb, hkpn, hdpn, hocnt, hblocks, hle⟩, ⟨hkpad, hdpad, hapart⟩,
      ⟨hcode, herrop, houtside⟩, ⟨hkwf, howf, hkrange, horange⟩, ⟨hkeys, hbytes, hhex⟩⟩
    exact ⟨⟨hnkb, hkwf, hkrange, hkeys⟩,
      ⟨⟨hocnt, hblocks⟩, howf, fun c hc => ⟨horange c hc, hhex c hc⟩, hbytes⟩,
      ⟨hkpn, hkpad⟩, ⟨hdpn, hdpad⟩, hapart, ⟨hle, houtside⟩, ⟨hcode, herrop⟩⟩
  · rintro ⟨⟨hnkb, hkwf, hkrange, hkeys⟩, ⟨⟨hocnt, hblocks⟩, howf, hcells, hbytes⟩,
      ⟨hkpn, hkpad⟩, ⟨hdpn, hdpad⟩, hapart, ⟨hle, houtside⟩, ⟨hcode, herrop⟩⟩
    exact ⟨⟨hnkb, hkpn, hdpn, hocnt, hblocks, hle⟩, ⟨hkpad, hdpad, hapart⟩,
      ⟨hcode, herrop, houtside⟩, ⟨hkwf, howf, hkrange, fun c hc => (hcells c hc).1⟩,
      ⟨hkeys, hbytes, fun c hc => (hcells c hc).2⟩⟩

/-! ### The key ring and the output -/

theorem ringSound_nil : RingSound [] 0 :=
  ⟨Nat.zero_le _, memWf_nil, List.forall_mem_nil _, fun _ hk => absurd hk (Nat.not_lt_zero _)⟩

section Ring

variable {kbm : Mem Word} {nkb : Nat} (h : RingSound kbm nkb)

include h

/-- KCLR and ABORT keep the cells of KBM (R202, R231). -/
theorem RingSound.cleared : RingSound kbm 0 := by
  obtain ⟨-, hwf, hrange, -⟩ := h
  exact ⟨Nat.zero_le _, hwf, hrange, fun _ hk => absurd hk (Nat.not_lt_zero _)⟩

/-- One more key block in the ring (R204). -/
theorem RingSound.append (buf : Word) (hroom : nkb < Config.KB_DEPTH) :
    RingSound (memWrite kbm nkb buf) (nkb + 1) := by
  obtain ⟨-, hwf, hrange, hwritten⟩ := h
  refine ⟨hroom, memWf_memWrite hwf nkb buf, fun c hc => ?_, fun k hk => ?_⟩
  · rcases mem_memWrite hc with rfl | hold
    · exact hroom
    · exact hrange c hold
  · rw [memRead_memWrite]
    split_ifs with hlast
    · rfl
    · exact hwritten k (by omega)

end Ring

theorem outputSound_nil : OutputSound [] 0 :=
  ⟨⟨Nat.zero_le _, rfl⟩, memWf_nil, List.forall_mem_nil _,
    fun _ ha => absurd ha (Nat.not_lt_zero _)⟩

theorem isHexDigit_hexdigit : ∀ d, d ≤ 15 → isHexDigit (hexdigit d) := by
  intro d hd
  interval_cases d <;> decide

section Output

variable {ocm : Mem Byte} {ocnt : Nat} (h : OutputSound ocm ocnt)

include h

/-- OCLR and ABORT keep the bytes of OCM (R210, R231). -/
theorem OutputSound.cleared : OutputSound ocm 0 := by
  obtain ⟨-, hwf, hcells, -⟩ := h
  exact ⟨⟨Nat.zero_le _, rfl⟩, hwf, hcells, fun _ ha => absurd ha (Nat.not_lt_zero _)⟩

/-- The sixteen characters of one more block (R115, R208). -/
theorem OutputSound.append {b : Bits} {t : List Byte} (ht : blocksToHex b = .ok t)
    (hroom : ocnt + 16 ≤ Config.OCM_SIZE) :
    OutputSound (memWriteAll ocm ocnt t) (ocnt + 16) := by
  obtain ⟨⟨-, hblocks⟩, hwf, hcells, hwritten⟩ := h
  obtain ⟨-, hlen⟩ := blocksToHex_ok ht
  refine ⟨⟨hroom, (Nat.add_mod_right _ _).trans hblocks⟩, memWf_memWriteAll hwf ocnt t,
    fun c hc => ?_, fun a ha => ?_⟩
  · rcases mem_memWriteAll hc with hold | ⟨-, hlt, hchar⟩
    · exact hcells c hold
    · obtain ⟨d, hd, hdigit⟩ := blocksToHex_mem ht hchar
      exact ⟨by omega, hdigit.symm ▸ isHexDigit_hexdigit d hd⟩
  · rw [memRead_memWriteAll]
    split_ifs with hnew
    · rw [List.getElem?_eq_getElem (by omega)]
      rfl
    · exact hwritten a (by omega)

end Output

/-! ### Pack buffers -/

theorem packSound_zero : PackSound 0 0 := ⟨Nat.zero_le _, rfl⟩

/-- A packed character fills its own place, and every place below it stays 0 (R203, R206). -/
theorem bufferPadded_packChar {buf : Word} {n : Nat} (hn : n < 3) (h : bufferPadded buf n)
    (c : Nat) : bufferPadded (packChar buf n c) (n + 1) := by
  have hold : buf <<< (16 * (n + 1)) = 0 := by
    rw [Nat.mul_succ, BitVec.shiftLeft_add, h]
    rfl
  have hnew : BitVec.ofNat 64 c <<< (48 - 16 * n) <<< (16 * (n + 1)) = 0 := by
    rw [← BitVec.shiftLeft_add, BitVec.shiftLeft_eq_zero (by omega)]
    rfl
  calc packChar buf n c <<< (16 * (n + 1))
      = buf <<< (16 * (n + 1)) ||| BitVec.ofNat 64 c <<< (48 - 16 * n) <<< (16 * (n + 1)) :=
        BitVec.shiftLeft_or_distrib ..
    _ = 0 := by rw [hold, hnew]; rfl

theorem PackSound.push {buf : Word} {n : Nat} (h : PackSound buf n) (hn : n < 3) (c : Nat) :
    PackSound (packChar buf n c) (n + 1) := by
  obtain ⟨-, hpadded⟩ := h
  exact ⟨hn, bufferPadded_packChar hn hpadded c⟩

/-! ### ROUND, FACT and the error report -/

theorem roundSound_zero (fact : Bool) : RoundSound 0 fact := ⟨Nat.zero_le _, fun _ => .inl rfl⟩

theorem roundSound_sixteen (fact : Bool) : RoundSound 16 fact := ⟨le_rfl, fun _ => .inr rfl⟩

/-- A round done inside a block (R183). -/
theorem RoundSound.succ {round : Nat} {fact : Bool} (hfact : fact = true) (hround : round < 16) :
    RoundSound (round + 1) fact :=
  ⟨hround, fun h => absurd (h.symm.trans hfact) Bool.false_ne_true⟩

/-- A cascade leaves the end of a block, or what was there before it (R200). -/
theorem RoundSound.cascade {round round' : Nat} {fact fact' : Bool} (h : RoundSound round fact)
    (hcases : (round' = 16 ∧ fact' = false) ∨ (round' = round ∧ fact' = fact)) :
    RoundSound round' fact' := by
  obtain ⟨rfl, rfl⟩ | ⟨rfl, rfl⟩ := hcases
  · exact roundSound_sixteen false
  · exact h

theorem reportSound_zero : ReportSound 0 0 := ⟨by decide, fun _ => rfl⟩

/-- Every error of R241 has a code of R241. -/
theorem reportSound_code (e : Err) (op : Byte) : ReportSound e.code op :=
  ⟨by cases e <;> decide, fun h => absurd h e.code_ne_zero⟩

/-! ### The rules keep the parts -/

section Rules

variable {s t : State} {buf : Word}

theorem partsSound_reset : PartsSound State.reset :=
  ⟨ringSound_nil, outputSound_nil, packSound_zero, packSound_zero, .inl rfl, roundSound_zero _,
    reportSound_zero⟩

theorem appendKeyBlock_keepsParts (hs : PartsSound s) (h : appendKeyBlock buf s = .ok t) :
    PartsSound t := by
  obtain ⟨hring, hout, -, hdata, -, hround, hreport⟩ := hs
  obtain ⟨hroom, rfl⟩ := appendKeyBlock_ok h
  exact ⟨hring.append buf hroom, hout, packSound_zero, hdata, .inl rfl, hround, hreport⟩

/-- A cascade writes the cipher's registers only, and ROUND and FACT together (R200). -/
theorem cascade_keepsParts {data : Bits} {x : Bits × State} (hs : PartsSound s)
    (hlen : data.length = 64) (h : cascade data s = .ok x) : PartsSound x.2 := by
  obtain ⟨hring, hout, hkey, hdata, hapart, hround, hreport⟩ := hs
  obtain ⟨⟨rk, kst, l, r, round, fact, hx, hcases⟩, -⟩ := cascadeFrom_ok hlen h
  rw [hx]
  exact ⟨hring, hout, hkey, hdata, hapart, hround.cascade hcases, hreport⟩

theorem dataBlockDone_keepsParts (hs : PartsSound s) (h : dataBlockDone buf s = .ok t) :
    PartsSound t := by
  obtain ⟨x, hex, hroom, hcascade, hhex, rfl⟩ := dataBlockDone_ok h
  have hcount : x.2.ocnt = s.ocnt := by
    obtain ⟨⟨rk, kst, l, r, round, fact, hx, -⟩, -⟩ := cascadeFrom_ok (toBits_length buf) hcascade
    rw [hx]
  obtain ⟨hring, hout, hkey, -, -, hround, hreport⟩ :=
    cascade_keepsParts hs (toBits_length buf) hcascade
  exact ⟨hring, hout.append hhex (hcount.symm ▸ hroom), hkey, packSound_zero, .inr rfl, hround,
    hreport⟩

/-- A rule that succeeds keeps the parts: most rules write no field that one of them speaks of. -/
theorem ruleOf_keepsParts {i : Instr} (hs : PartsSound s) (h : ruleOf i s = .ok t) :
    PartsSound t := by
  have ⟨hring, hout, hkey, hdata, hapart, hround, hreport⟩ := hs
  cases i with
  | nop => obtain rfl := Except.ok.inj h; exact hs
  | abort =>
    obtain rfl := Except.ok.inj h
    exact ⟨hring.cleared, hout.cleared, packSound_zero, packSound_zero, .inl rfl,
      roundSound_zero _, reportSound_zero⟩
  | clrerr =>
    obtain rfl := Except.ok.inj h
    exact ⟨hring, hout, hkey, hdata, hapart, hround, reportSound_zero⟩
  | perm => obtain ⟨-, -, w, -, rfl⟩ := permRule_ok h; exact hs
  | xor => obtain ⟨-, -, rfl⟩ := xorRule_ok h; exact hs
  | subst => obtain ⟨-, w, -, rfl⟩ := substRule_ok h; exact hs
  | i2b => obtain ⟨-, -, rfl⟩ := i2bRule_ok h; exact hs
  | b2i => obtain ⟨-, rfl⟩ := b2iRule_ok h; exact hs
  | hex =>
    obtain ⟨-, hroom, x, hhex, rfl⟩ := hexRule_ok h
    exact ⟨hring, hout.append hhex hroom, hkey, hdata, hapart, hround, hreport⟩
  | ksched =>
    obtain ⟨-, x, -, rfl⟩ := kschedRule_ok h
    exact ⟨hring, hout, hkey, hdata, hapart, hround, hreport⟩
  | finit =>
    obtain ⟨-, p, -, rfl⟩ := finitRule_ok h
    exact ⟨hring, hout, hkey, hdata, hapart, roundSound_zero _, hreport⟩
  | fround =>
    obtain ⟨hfact, hlt, hbody⟩ := froundRule_ok h
    obtain ⟨y, -, rfl⟩ := froundBody_ok hbody
    exact ⟨hring, hout, hkey, hdata, hapart, .succ hfact hlt, hreport⟩
  | ffinal =>
    obtain ⟨-, hsixteen, w, -, rfl⟩ := ffinalRule_ok h
    exact ⟨hring, hout, hkey, hdata, hapart, hsixteen.symm ▸ roundSound_sixteen _, hreport⟩
  | fblock =>
    obtain ⟨-, -, x, hbody, rfl⟩ := fblockRule_ok h
    obtain ⟨⟨rk, kst, l, r, hx⟩, -⟩ := fblockBody_ok hbody
    rw [hx]
    exact ⟨hring, hout, hkey, hdata, hapart, roundSound_sixteen _, hreport⟩
  | kclr =>
    obtain ⟨-, rfl⟩ := kclrRule_ok h
    exact ⟨hring.cleared, hout, packSound_zero, hdata, .inl rfl, hround, hreport⟩
  | kputc =>
    obtain ⟨hdpn, -, ⟨hfew, rfl⟩ | ⟨-, happend⟩⟩ := kputcRule_ok h
    · exact ⟨hring, hout, hkey.push hfew _, hdata, .inr hdpn, hround, hreport⟩
    · exact appendKeyBlock_keepsParts hs happend
  | kend =>
    obtain ⟨-, ⟨-, rfl⟩ | ⟨-, happend⟩⟩ := kendRule_ok h
    · exact hs
    · exact appendKeyBlock_keepsParts hs happend
  | dputc =>
    obtain ⟨hkpn, -, ⟨hfew, rfl⟩ | ⟨-, hdone⟩⟩ := dputcRule_ok h
    · exact ⟨hring, hout, hkey, hdata.push hfew _, .inl hkpn, hround, hreport⟩
    · exact dataBlockDone_keepsParts hs hdone
  | dend =>
    obtain ⟨-, ⟨-, rfl⟩ | ⟨-, hdone⟩⟩ := dendRule_ok h
    · exact hs
    · exact dataBlockDone_keepsParts hs hdone
  | casc vd vs1 =>
    obtain ⟨-, hlen, x, hcascade, rfl⟩ := cascRule_ok h
    exact cascade_keepsParts hs ((denotes_length vs1 s).trans hlen) hcascade
  | oclr =>
    obtain rfl := Except.ok.inj h
    exact ⟨hring, hout.cleared, hkey, hdata, hapart, hround, hreport⟩

end Rules

/-! ### Every step keeps the parts -/

section Steps

variable {s : State}

theorem complete_keepsParts (hs : PartsSound s) : PartsSound (complete s) := hs

theorem reject_keepsParts (hs : PartsSound s) : PartsSound (reject s) := hs

theorem takeError_keepsParts (hs : PartsSound s) (e : Err) (op : Byte) :
    PartsSound (takeError e op s) := by
  obtain ⟨hring, hout, hkey, hdata, hapart, hround, -⟩ := hs
  exact ⟨hring, hout, hkey, hdata, hapart, hround, reportSound_code e op⟩

theorem exec_keepsParts (hs : PartsSound s) (i : Instr) :
    ∃ t, exec i s = .next t ∧ PartsSound t := by
  obtain hreject | ⟨e, hfail⟩ | ⟨u, hrule, hdone⟩ := exec_cases i s
  · exact ⟨_, hreject, complete_keepsParts (reject_keepsParts hs)⟩
  · exact ⟨_, hfail, complete_keepsParts (takeError_keepsParts hs e _)⟩
  · exact ⟨_, hdone, complete_keepsParts (ruleOf_keepsParts hs hrule)⟩

theorem runIllegal_keepsParts (hs : PartsSound s) (w : Word) :
    ∃ t, runIllegal w s = .next t ∧ PartsSound t := by
  obtain ⟨-, hfail⟩ | ⟨-, hreject⟩ := runIllegal_cases w s
  · exact ⟨_, hfail, complete_keepsParts (takeError_keepsParts hs _ _)⟩
  · exact ⟨_, hreject, complete_keepsParts (reject_keepsParts hs)⟩

/-- The host reaches none of the fields that the parts speak of but by the reset input. -/
theorem hostCycle_keepsParts (hs : PartsSound s) : PartsSound (hostCycle s) := by
  obtain ⟨seq, -, hcycle⟩ := hostCycle_eq_hostAct s
  rw [hcycle]
  obtain ⟨rest, -, hact⟩ | ⟨_, _, _, _, _, _, _, _, hact⟩ := hostAct_cases { s with seq := seq }
  · rw [hact]
    exact partsSound_reset
  · rw [hact]
    exact hs

theorem step_keepsParts (hs : PartsSound s) : ∃ t, step s = .next t ∧ PartsSound t := by
  obtain ⟨w, i, -, -, hexec⟩ | ⟨w, x, -, -, hillegal⟩ | ⟨-, hcycle⟩ := step_cases s
  · exact hexec ▸ exec_keepsParts hs i
  · exact hillegal ▸ runIllegal_keepsParts hs w
  · exact ⟨_, hcycle, hostCycle_keepsParts hs⟩

end Steps

/-! ### The statements about the invariant -/

/-- Settles O2: after reset every count is 0, both memories are empty and no error is recorded. -/
theorem invariantHoldsAtReset : Obligations.InvariantHoldsAtReset :=
  (engineInv_iff _).mpr partsSound_reset

/-- Settles O3: the one next state of a step has the parts of the invariant. -/
theorem everyStepKeepsTheInvariant : Obligations.EveryStepKeepsTheInvariant := by
  intro s t hinv hstep
  obtain ⟨u, hu, hparts⟩ := step_keepsParts ((engineInv_iff s).mp hinv)
  obtain rfl := Host.Outcome.next.inj (hstep.symm.trans hu)
  exact (engineInv_iff t).mpr hparts

end Sys2Proof.Machine
end

section
/-! PROOFS. Reset and the host's side (70_reset_and_hazards.md, 10_state.md R21-R23, 20_memory.md):
the read-only registers of the map, which registers a write reaches, one cycle of the host as its
action, and the statements about reset, a busy engine, CMD and the read-only registers. -/

namespace Sys2Proof.Machine

/-! ### Read-only registers in the map (R21) -/

theorem regAt_id : regAt 0x000 = .id := by decide

theorem regAt_kpbuf : regAt 0x028 = .kpbuf := by decide

theorem regAt_dpbuf : regAt 0x030 = .dpbuf := by decide

theorem regAt_lreg : regAt 0x038 = .lreg := by decide

theorem regAt_rreg : regAt 0x040 = .rreg := by decide

theorem regAt_kstate : regAt 0x048 = .kstate := by decide

theorem regAt_rk : ∀ r : Fin 16, regAt (BitVec.ofNat 12 (0x200 + 8 * r.val)) = .rk r := by decide

/-- Key block k is 8k bytes into the window of KBM. -/
theorem regAt_kbm {k : Nat} (hk : k < 64) : regAt (BitVec.ofNat 12 (0x400 + 8 * k)) = .kbm k := by
  have haddr := wordAddress_ofNat (a := 0x400 + 8 * k) (by omega) (by omega)
  have hindex : (0x400 + 8 * k - 0x400) / 8 = k := by omega
  have hne {n : Nat} (hn : n < 0x400) : 0x400 + 8 * k ≠ n := by omega
  have hvector : ¬(0x100 ≤ 0x400 + 8 * k ∧ 0x400 + 8 * k < 0x180) := by omega
  have hrk : ¬(0x200 ≤ 0x400 + 8 * k ∧ 0x400 + 8 * k < 0x280) := by omega
  have hkbm : 0x400 ≤ 0x400 + 8 * k ∧ 0x400 + 8 * k < 0x400 + 8 * 64 := by omega
  delta regAt Config.KB_DEPTH
  simp (disch := decide) only [haddr, hne, hvector, hrk, if_false, if_pos hkbm, hindex]

/-- The register at an offset is the one at its word's first byte. -/
theorem regAt_of_and_FF8 {o p : Offset} (h : o &&& 0xFF8 = p) : regAt o = regAt p := by
  rw [← regAt_and_FF8, h]

/-! ### The registers that a host write reaches (R23, R24, R37, R38, R65) -/

/-- The registers that a host write can change: CMD, STATUS, CTRL, VPAY_n and VLEN_n. -/
def Reg.writable : Reg → Bool
  | .cmd | .status | .ctrl | .vpay _ | .vlen _ => true
  | .id | .stream | .kpbuf | .dpbuf | .lreg | .rreg | .kstate | .rk _ | .kbm _ | .ocmw _
  | .unmapped => false

theorem writeReg_of_not_writable {reg : Reg} (h : reg.writable = false) (x : Word) (s : State) :
    writeReg reg x s = s := by
  cases reg with
  | cmd | status | ctrl | vpay | vlen => cases h
  | _ => rfl

/-- In the map they are the words 0x008, 0x010 and 0x018 and those from 0x100 to 0x17F. -/
theorem wordAddress_of_writable {o : Offset} (h : (regAt o).writable = true) :
    (0x008 ≤ wordAddress o ∧ wordAddress o ≤ 0x018) ∨
      (0x100 ≤ wordAddress o ∧ wordAddress o < 0x180) := by
  by_contra hother
  have hcmd : wordAddress o ≠ 0x008 := by omega
  have hstatus : wordAddress o ≠ 0x010 := by omega
  have hctrl : wordAddress o ≠ 0x018 := by omega
  have hvector : ¬(0x100 ≤ wordAddress o ∧ wordAddress o < 0x180) := by omega
  delta regAt at h
  simp only [apply_ite Reg.writable] at h
  dsimp only [Reg.writable] at h
  simp only [hcmd, hstatus, hctrl, hvector, if_false, ite_self, Bool.false_eq_true] at h

theorem busWrite_of_not_writable {o : Offset} {s : State} (hidle : s.busy = false)
    (h : (regAt o).writable = false) (x : Word) : busWrite o x s = s := by
  rw [busWrite_of_idle hidle, writeReg_of_not_writable h]

/-- The offsets at which the host can change nothing. -/
theorem regAt_not_writable {o : Offset}
    (h : o &&& 0xFF8 = 0x000 ∨ 0x020 ≤ o.toNat ∧ o.toNat < 0x100 ∨ 0x180 ≤ o.toNat) :
    (regAt o).writable = false := by
  obtain hid | hrange := h
  · rw [regAt_of_and_FF8 hid, regAt_id]
    rfl
  · refine Bool.eq_false_iff.mpr fun hwritable => ?_
    have haddr := wordAddress_of_writable hwritable
    rw [wordAddress_eq] at haddr
    omega

/-! ### Reads (R22, R29-R31, R68, R282) -/

section Reads

variable {s : State}

theorem busRead_of_regAt {o : Offset} {reg : Reg} (hidle : s.busy = false) (h : regAt o = reg) :
    busRead o s = readReg reg s := by
  rw [busRead_of_idle hidle, h]

/-- ID reads its constant, busy or idle (R22, R282). -/
theorem busRead_of_regAt_id {o : Offset} (h : regAt o = .id) (s : State) :
    busRead o s = Config.ID_VALUE := by
  delta busRead
  rw [h]
  cases s.busy <;> rfl

/-- STATUS reads as it is at every offset of its word, busy or idle (R37, R282). -/
theorem busRead_of_regAt_status {o : Offset} (h : regAt o = .status) (s : State) :
    busRead o s = statusWord s := by
  delta busRead
  rw [h]
  cases s.busy <;> rfl

variable (hidle : s.busy = false)

include hidle

theorem busRead_kpbuf : busRead 0x028 s = s.kpbuf := busRead_of_regAt hidle regAt_kpbuf

theorem busRead_dpbuf : busRead 0x030 s = s.dpbuf := busRead_of_regAt hidle regAt_dpbuf

theorem busRead_lreg : busRead 0x038 s = s.l.setWidth 64 := busRead_of_regAt hidle regAt_lreg

theorem busRead_rreg : busRead 0x040 s = s.r.setWidth 64 := busRead_of_regAt hidle regAt_rreg

theorem busRead_kstate : busRead 0x048 s = s.kstate.setWidth 64 :=
  busRead_of_regAt hidle regAt_kstate

theorem busRead_rk (r : Fin 16) :
    busRead (BitVec.ofNat 12 (0x200 + 8 * r.val)) s = s.rk[r].setWidth 64 :=
  busRead_of_regAt hidle (regAt_rk r)

theorem busRead_kbm {k : Nat} (hk : k < 64) :
    busRead (BitVec.ofNat 12 (0x400 + 8 * k)) s = kbmRead k s :=
  busRead_of_regAt hidle (regAt_kbm hk)

end Reads

/-! ### One cycle of the host -/

section Cycle

variable {s : State} {rest : List HostAction}

theorem seq_of_idle (h : s.busy = false) : s.seq = .idle := by
  delta State.busy at h
  cases hseq : s.seq with
  | idle => rfl
  | executing w left => rw [hseq] at h; cases h

/-- With no command in flight a step is the host's action. -/
theorem step_of_idle (h : s.busy = false) :
    step s = .next { hostAct s with tick := (hostAct s).tick + 1 } := by
  have hseq := seq_of_idle h
  have hwaits (w : Word) : s.seq ≠ .executing w 0 := hseq.trans_ne nofun
  have hcycle : hostCycle s = { hostAct s with tick := (hostAct s).tick + 1 } := by
    delta hostCycle
    rw [hseq]
  rw [step_of_waiting hwaits, hcycle]

theorem hostAct_read {o : Offset} (h : s.host = .read o :: rest) :
    hostAct s = { s with readData := some (busRead o s), host := rest } := by
  delta hostAct
  rw [h]

theorem hostAct_write {o : Offset} {x : Word} (h : s.host = .write o x :: rest) :
    hostAct s = busWrite o x { s with host := rest } := by
  delta hostAct
  rw [h]

theorem hostAct_rst (h : s.host = .rst :: rest) :
    hostAct s = assertReset { s with host := rest } := by
  delta hostAct
  rw [h]

theorem busWrite_tick (o : Offset) (x : Word) (s : State) : (busWrite o x s).tick = s.tick := by
  obtain ⟨_, _, _, _, _, _, hwrite⟩ := busWrite_ok o x s
  rw [hwrite]

end Cycle

/-! ### The statements about reset and the host's side -/

/-- Settles O1: reset writes 0 to every register of the table, and the views show it. -/
theorem resetLeavesTheStatedValues : Obligations.ResetLeavesTheStatedValues := by
  have hidle : State.reset.busy = false := rfl
  have hrk (r : Fin 16) : State.reset.rk[r] = 0 := Vector.getElem_replicate r.isLt
  have hreg (n : VIndex) : State.reset.reg n = { pay := 0, len := 0 } :=
    Vector.getElem_replicate n.isLt
  refine ⟨busRead_of_regAt_id regAt_id _, rfl, rfl, rfl, rfl, rfl, rfl, rfl, rfl, rfl, hreg, hrk,
    rfl, rfl, rfl, rfl, rfl, rfl, rfl, rfl, rfl, ?_, ?_, ?_, ?_, fun r => ?_, rfl⟩
  · rw [busRead_stream hidle]
    decide
  · rw [busRead_lreg hidle]
    rfl
  · rw [busRead_rreg hidle]
    rfl
  · rw [busRead_kstate hidle]
    rfl
  · rw [busRead_rk hidle, hrk]
    rfl

/-- Settles O59: reset comes in a cycle of the host, whose action is to load the reset state. -/
theorem resetAbandonsTheCommandInFlight : Obligations.ResetAbandonsTheCommandInFlight := by
  intro s rest hhost hwaits
  obtain ⟨seq, -, hcycle⟩ := hostCycle_eq_hostAct s
  rw [step_of_waiting hwaits, hcycle, hostAct_rst (s := { s with seq := seq }) hhost]
  rfl

/-- Settles O50: an idle engine leaves the cycle to the host's access, and a write does not count
steps. -/
theorem hostAccessIsOneStep : Obligations.HostAccessIsOneStep := by
  intro s o rest hidle
  refine ⟨fun hhost => ?_, fun x hhost => ?_⟩
  · rw [step_of_idle hidle, hostAct_read hhost]
  · rw [step_of_idle hidle, hostAct_write hhost, busWrite_tick]

/-- Settles O51: a busy engine drops the write, and its ID and STATUS read as if it were idle. -/
theorem busWhileBusy : Obligations.BusWhileBusy := by
  intro o s hbusy
  refine ⟨busWrite_of_busy hbusy o, fun ho => ?_, fun ho => ?_⟩
  · exact busRead_of_regAt_id ((regAt_of_and_FF8 ho).trans regAt_id) s
  · obtain ⟨hbit, -⟩ := statusWord_flags s
    rw [busRead_of_regAt_status ((regAt_of_and_FF8 ho).trans regAt_status) s]
    exact ⟨rfl, hbit.trans hbusy⟩

/-- Settles O52: every offset of the word is CMD, whose write latches the command. -/
theorem cmdWriteLatchesTheCommand : Obligations.CmdWriteLatchesTheCommand := by
  intro o x s hidle ho
  have hreg : regAt o = .cmd := (regAt_of_and_FF8 ho).trans regAt_cmd
  have hwrite : busWrite o x s =
      { s with seq := .executing x (Config.latencyExtra x s.tick) } := by
    rw [busWrite_of_idle hidle, hreg]
    rfl
  exact ⟨busRead_of_regAt hidle hreg, hwrite ▸ rfl, _, hwrite⟩

/-- Settles O57: each register reads as its field, zero-extended, and none of the listed offsets is
a register that a write changes. -/
theorem readOnlyRegistersShowTheState : Obligations.ReadOnlyRegistersShowTheState := by
  intro s hidle
  rw [busRead_lreg hidle, busRead_rreg hidle, busRead_kstate hidle]
  refine ⟨busRead_of_regAt_id regAt_id s,
    ⟨busRead_kpbuf hidle, busRead_dpbuf hidle, BitVec.toNat_setWidth_of_le (by decide),
      BitVec.toNat_setWidth_of_le (by decide), BitVec.toNat_setWidth_of_le (by decide)⟩,
    fun r => ?_, fun k hk => busRead_kbm hidle hk,
    fun o x ho => busWrite_of_not_writable hidle (regAt_not_writable ho) x⟩
  rw [busRead_rk hidle]
  exact BitVec.toNat_setWidth_of_le (by decide)

end Sys2Proof.Machine
end

section
/-! PROOFS. Keys that give the same round keys (43_key_scheduler.md R165, R173, R189): the elements
of a key block that the key reduction drops, and the statements about them and about the zero key. -/

namespace Sys2Proof.Machine

/-- The reduction drops the last element of each byte: KRED has no index 8*i + 7 (R165, R173). -/
theorem mod_eight_of_mem_kred {q : Nat} (h : q ∈ kred) : q % 8 ≠ 7 := by
  obtain ⟨n, hn, rfl⟩ := List.mem_map.mp h
  have hn : n < 56 := List.mem_range.mp hn
  omega

/-- The mask of R173 keeps every element of a key block but the last of each byte. -/
theorem keyMask_getLsbD : ∀ q : Fin 64, q.val % 8 ≠ 7 →
    (0xFEFEFEFEFEFEFEFE : Word).getLsbD (63 - q.val) = true := by
  decide

/-- Key blocks that agree under the mask have the same derived key. -/
theorem reducedKey_congr {x y : Word}
    (h : x &&& 0xFEFEFEFEFEFEFEFE = y &&& 0xFEFEFEFEFEFEFEFE) :
    reducedKey (toBits x) = reducedKey (toBits y) := by
  refine List.map_congr_left fun q hq => ?_
  have hlt : q < 64 := kred_lt hq
  have hkept := keyMask_getLsbD ⟨q, hlt⟩ (mod_eight_of_mem_kred hq)
  have hbit := congrArg (fun z : Word => z.getLsbD (63 - q)) h
  simp only [BitVec.getLsbD_and, hkept, Bool.and_true] at hbit
  rw [toBits_getD x hlt, toBits_getD y hlt]
  exact hbit

/-- The schedule reads a key block through its derived key alone. -/
theorem keySchedule_congr (t : Config.Params) {k k' : Bits} (hk : k.length = 64)
    (hk' : k'.length = 64) (h : reducedKey k = reducedKey k') :
    keySchedule t k = keySchedule t k' := by
  rw [keySchedule_of_length hk, keySchedule_of_length hk', h]

/-- KSCHED of a key block that is put into its source register: what the schedule answers is
written, and where it fails nothing is. -/
theorem exec_ksched_setV {vs1 : VIndex} {s : State} (herr : s.err = 0) (x : Word) :
    ∃ t, exec (.ksched vs1) (s.setV vs1 { pay := x, len := 64 }) = .next t ∧
      (∀ keys, keySchedule s.params (toBits x) = .ok keys →
        t.rk = rkFile keys.1 ∧ t.kstate = ofBits 56 keys.2 ∧ t.err = 0) ∧
      (∀ e, keySchedule s.params (toBits x) = .error e →
        t.rk = s.rk ∧ t.kstate = s.kstate ∧ t.err = e.code) := by
  have hreg := setV_reg_same s vs1 { pay := x, len := 64 }
  have hlen : HoldsLength vs1 64 (s.setV vs1 { pay := x, len := 64 }) :=
    congrArg (fun v => v.len.toNat) hreg
  have hrule := kschedRule_of_holds hlen
  rw [denotes_full hlen, hreg, State.setV_params] at hrule
  cases hkeys : keySchedule s.params (toBits x) with
  | ok keys =>
    rw [hkeys, ok_bind] at hrule
    refine ⟨_, runCommand_ok herr hrule, fun keys' h => ?_, nofun⟩
    obtain rfl := Except.ok.inj h
    exact ⟨rfl, rfl, herr⟩
  | error e =>
    rw [hkeys, error_bind] at hrule
    refine ⟨_, runCommand_error herr hrule, nofun, fun e' h => ?_⟩
    obtain rfl := Except.error.inj h
    exact ⟨rfl, rfl, rfl⟩

/-! ### The statements about such keys -/

/-- Settles O29: both key blocks have one schedule, which KSCHED writes or fails with. -/
theorem kschedIgnoresTheDroppedBits : Obligations.KschedIgnoresTheDroppedBits := by
  intro vs1 s x y herr hmask
  have hsame : keySchedule s.params (toBits x) = keySchedule s.params (toBits y) :=
    keySchedule_congr _ (toBits_length x) (toBits_length y) (reducedKey_congr hmask)
  obtain ⟨t, ht, htok, hterror⟩ := exec_ksched_setV (vs1 := vs1) herr x
  obtain ⟨u, hu, huok, huerror⟩ := exec_ksched_setV (vs1 := vs1) herr y
  refine ⟨t, u, ht, hu, ?_⟩
  cases hkeys : keySchedule s.params (toBits y) with
  | ok keys =>
    obtain ⟨htrk, htks, hterr⟩ := htok keys (hsame.trans hkeys)
    obtain ⟨hurk, huks, huerr⟩ := huok keys hkeys
    exact ⟨htrk.trans hurk.symm, htks.trans huks.symm, hterr.trans huerr.symm⟩
  | error e =>
    obtain ⟨htrk, htks, hterr⟩ := hterror e (hsame.trans hkeys)
    obtain ⟨hurk, huks, huerr⟩ := huerror e hkeys
    exact ⟨htrk.trans hurk.symm, htks.trans huks.symm, hterr.trans huerr.symm⟩

/-- A register all of whose elements are 0 is 0. -/
theorem eq_zero_of_elements {w : Nat} {x : BitVec w}
    (h : ∀ i, i < w → x.getLsbD (w - 1 - i) = false) : x = 0#w := by
  refine BitVec.eq_of_getLsbD_eq fun i hi => ?_
  have helement := h (w - 1 - i) (by omega)
  rwa [show w - 1 - (w - 1 - i) = i by omega, ← BitVec.getLsbD_zero (w := w) (i := i)] at helement

/-- Settles O30: every element of a round key and of the key state is an element of the key block,
and those are 0. -/
theorem zeroKeyGivesZeroRoundKeys : Obligations.ZeroKeyGivesZeroRoundKeys := by
  intro vs1 s herr hzero hpc2
  have hlen : HoldsLength vs1 64 s := congrArg (fun v => v.len.toNat) hzero
  have helement (n q : Nat) : keyStateElement (s.reg vs1).pay n q = false := by
    rw [hzero]
    exact BitVec.getLsbD_zero
  obtain ⟨rk, kst, hexec, hkeys, hstate⟩ :=
    (kschedDerivesTheRoundKeys vs1 s herr).1 ⟨hlen, hpc2⟩
  have hrk : rk = Vector.replicate 16 0 := by
    refine Vector.ext fun r hr => ?_
    rw [Vector.getElem_replicate]
    exact eq_zero_of_elements fun n hn => (hkeys ⟨r, hr⟩ ⟨n, hn⟩).trans (helement _ _)
  have hkst : kst = 0 := eq_zero_of_elements fun q hq => (hstate q hq).trans (helement _ q)
  rw [hexec, hrk, hkst]

end Sys2Proof.Machine
end

section
/-! PROOFS. The block function as a whole and in steps (44_feistel.md R186, R188,
70_reset_and_hazards.md R285): that it answers under well-formed tables, and that the step commands
go through the states that FBLOCK-body goes through. -/

namespace Sys2Proof.Machine

/-! ### The block function is total (R188) -/

/-- A table whose entries are all in range rearranges every input of that length (R130). -/
theorem permute_of_forall_lt {table : List Nat} {v : Bits} {n : Nat} (hv : v.length = n)
    (h : ∀ q ∈ table, q < n) : ∃ w, permute table v = .ok w :=
  ⟨_, permute_ok_iff.mpr ⟨hv.symm ▸ h, rfl⟩⟩

section Total

variable {t : Config.Params} (hwf : t.Wf) (hweights : WeightsInRange t)

include hwf hweights

/-- The round function answers every half, under every subkey (R184). -/
theorem roundFunction_total {x : Bits} (hx : x.length = 32) (k : Bits) :
    ∃ y, roundFunction t x k = .ok y := by
  obtain ⟨-, -, he, hp, -⟩ := params_wf_iff.mp hwf
  obtain ⟨expanded, hexpand⟩ := permute_of_forall_lt hx he
  obtain ⟨sub, hsub⟩ := subst_of_weightsInRange hweights (xorBits expanded k)
  obtain ⟨y, hy⟩ := permute_of_forall_lt (subst_length hsub) hp
  exact ⟨y, bind_ok_iff.mpr ⟨expanded, hexpand, bind_ok_iff.mpr ⟨sub, hsub, hy⟩⟩⟩

theorem feistelRounds_total (keys : List Bits) {l r : Bits} (hl : l.length = 32)
    (hr : r.length = 32) : ∃ x, feistelRounds t keys l r = .ok x := by
  induction keys generalizing l r with
  | nil => exact ⟨_, rfl⟩
  | cons k keys ih =>
    obtain ⟨y, hy⟩ := roundFunction_total hwf hweights hr k
    have hnew : (xorBits y l).length = 32 := by
      rw [xorBits_length, roundFunction_length hy, hl, min_self]
    obtain ⟨x, hx⟩ := ih hr hnew
    exact ⟨x, bind_ok_iff.mpr ⟨y, hy, hx⟩⟩

theorem feistel_total {data key : Bits} (hdata : data.length = 64) (hkey : key.length = 64) :
    ∃ c, feistel t data key = .ok c := by
  obtain ⟨hip, hfp, -, -, hpc2⟩ := params_wf_iff.mp hwf
  obtain ⟨keys, hkeys, -⟩ := keySchedule_of_pc2_lt hkey hpc2
  obtain ⟨p, hp⟩ := permute_of_forall_lt hdata hip
  obtain ⟨hleft, hright⟩ := halves_length hp
  obtain ⟨lr, hlr⟩ := feistelRounds_total hwf hweights keys.1 hleft hright
  obtain ⟨hl, hr⟩ := feistelRounds_length hleft hright hlr
  have hjoin : (lr.2 ++ lr.1).length = 64 := by rw [List.length_append, hl, hr]
  obtain ⟨c, hc⟩ := permute_of_forall_lt hjoin hfp
  exact ⟨c, bind_ok_iff.mpr ⟨keys, hkeys, bind_ok_iff.mpr ⟨p, hp, bind_ok_iff.mpr ⟨lr, hlr, hc⟩⟩⟩⟩

end Total

/-- Settles O35: no step of the block function can fail, and its last step answers a block. -/
theorem blockFunctionIsTotal : Obligations.BlockFunctionIsTotal := by
  intro t d k hwf hweights
  obtain ⟨c, hc⟩ := feistel_total hwf hweights (toBits_length d) (toBits_length k)
  exact ⟨c, hc, feistel_length hc⟩

/-! ### A stepped block (R285) -/

/-- `u` just after a command completed, with the step count at `c`. -/
def completedAt (u : State) (c : Nat) : State := { u with seq := .idle, done := true, tick := c }

section Stepped

variable {u t : State} {c : Nat} {vs1 : VIndex} {data : Bits}

/-- The first step command, in any state: KSCHED counts one step. -/
theorem exec_ksched_eq_completedAt (herr : u.err = 0) (hlen : HoldsLength vs1 64 u)
    (h : kschedBody (denotes vs1 u) u = .ok t) :
    exec (.ksched vs1) u = .next (completedAt t (u.tick + 1)) := by
  obtain ⟨keys, hkeys, rfl⟩ := kschedBody_ok h
  have hrule := kschedRule_of_holds hlen
  rw [hkeys, ok_bind] at hrule
  exact runCommand_ok herr hrule

theorem exec_finit_completedAt (herr : u.err = 0) (hlen : HoldsLength vs1 64 u)
    (h : finitBody (denotes vs1 u) u = .ok t) :
    exec (.finit vs1) (completedAt u c) = .next (completedAt t (c + 1)) := by
  obtain ⟨p, hp, rfl⟩ := finitBody_ok h
  have hrule := finitRule_of_holds (s := completedAt u c) hlen
  have hp' : permute (completedAt u c).params.ip.toList (denotes vs1 (completedAt u c)) =
      .ok p := hp
  rw [hp', ok_bind] at hrule
  exact runCommand_ok (s := completedAt u c) herr hrule

theorem exec_fround_completedAt (herr : u.err = 0) (hready : u.fact = true ∧ u.round < 16)
    (h : froundBody u = .ok t) :
    exec .fround (completedAt u c) = .next (completedAt t (c + 1)) := by
  obtain ⟨y, hy, rfl⟩ := froundBody_ok h
  have hrule := froundRule_of_ready (s := completedAt u c) hready
  have hy' : roundFunction (completedAt u c).params (toBits (completedAt u c).r)
      (roundKey (completedAt u c).round (completedAt u c)) = .ok y := hy
  rw [hy', ok_bind] at hrule
  exact runCommand_ok (s := completedAt u c) herr hrule

/-- Rounds inside a block, one FROUND each (R183). -/
theorem execAll_fround_completedAt {n : Nat} (herr : u.err = 0) (hfact : u.fact = true)
    (hround : u.round + n ≤ 16) (h : froundBodies n u = .ok t) :
    execAll (List.replicate n .fround) (completedAt u c) = .next (completedAt t (c + n)) := by
  induction n generalizing u c with
  | zero =>
    obtain rfl := Except.ok.inj h
    rfl
  | succ n ih =>
    obtain ⟨v, hv, h⟩ := bind_ok_iff.mp h
    have hexec := exec_fround_completedAt (c := c) herr ⟨hfact, by omega⟩ hv
    obtain ⟨hverr, hvfact, hvround⟩ : v.err = 0 ∧ v.fact = true ∧ v.round = u.round + 1 := by
      obtain ⟨y, -, rfl⟩ := froundBody_ok hv
      exact ⟨herr, hfact, rfl⟩
    rw [List.replicate_succ, execAll_cons hexec, ih hverr hvfact (by omega) h, Nat.add_assoc,
      Nat.add_comm 1]

theorem exec_ffinal_completedAt {x : Bits × State} (vd : VIndex) (herr : u.err = 0)
    (hfact : u.fact = true) (hround : u.round = 16) (h : ffinalBody u = .ok x) :
    exec (.ffinal vd) (completedAt u c) = .next (completedAt (setv vd x.1 x.2) (c + 1)) := by
  obtain ⟨hp, hx, -⟩ := ffinalBody_ok h
  have hrule := ffinalRule_of_ready (vd := vd) (s := completedAt u c) hfact hround
  have hp' : permute (completedAt u c).params.fp.toList
      (toBits ((completedAt u c).r ++ (completedAt u c).l)) = .ok x.1 :=
    (congrArg _ (toBits_append u.r u.l)).trans hp
  rw [hp', ok_bind] at hrule
  rw [hx]
  exact runCommand_ok (s := completedAt u c) herr hrule

end Stepped

theorem denotes_congr {s t : State} {n : VIndex} (h : t.reg n = s.reg n) :
    denotes n t = denotes n s :=
  congrArg (fun v : VReg => bitsN v.len.toNat (v.pay.toNat % 2 ^ v.len.toNat)) h

/-- The step commands of a block that FBLOCK-body answers: each goes on from where the last one
completed (R186). -/
theorem execAll_stepped_block {s : State} {vd vs1 vs2 : VIndex} {x : Bits × State}
    (herr : s.err = 0) (h1 : HoldsLength vs1 64 s) (h2 : HoldsLength vs2 64 s)
    (h : fblockBody (denotes vs1 s) (denotes vs2 s) s = .ok x) :
    execAll (Instr.ksched vs2 :: Instr.finit vs1 :: (List.replicate 16 Instr.fround ++
      [Instr.ffinal vd])) s = .next (completedAt (setv vd x.1 x.2) (s.tick + 19)) := by
  obtain ⟨s1, hksched, h⟩ := bind_ok_iff.mp h
  obtain ⟨s2, hfinit, h⟩ := bind_ok_iff.mp h
  obtain ⟨s3, hrounds, hffinal⟩ := bind_ok_iff.mp h
  obtain ⟨herr1, hlen1, hdata1⟩ : s1.err = 0 ∧ HoldsLength vs1 64 s1 ∧
      denotes vs1 s1 = denotes vs1 s := by
    obtain ⟨keys, -, hs1⟩ := kschedBody_ok hksched
    have hreg : s1.reg vs1 = s.reg vs1 := reg_congr (by rw [hs1]) vs1
    exact ⟨by rw [hs1]; exact herr, (congrArg (fun v => v.len.toNat) hreg).trans h1,
      denotes_congr hreg⟩
  obtain ⟨herr2, hfact2, hround2⟩ : s2.err = 0 ∧ s2.fact = true ∧ s2.round = 0 := by
    obtain ⟨p, -, rfl⟩ := finitBody_ok hfinit
    exact ⟨herr1, rfl, rfl⟩
  obtain ⟨herr3, hfact3, hround3⟩ : s3.err = 0 ∧ s3.fact = true ∧ s3.round = s2.round + 16 := by
    obtain ⟨l, r, rfl⟩ := froundBodies_ok hrounds
    exact ⟨herr2, hfact2, rfl⟩
  have hexec1 := exec_ksched_eq_completedAt herr h2 hksched
  have hexec2 := exec_finit_completedAt (c := s.tick + 1) herr1 hlen1 (hdata1.symm ▸ hfinit)
  have hexec3 := execAll_fround_completedAt (c := s.tick + 2) herr2 hfact2 (by omega) hrounds
  have hexec4 := exec_ffinal_completedAt (c := s.tick + 18) vd herr3 hfact3 (by omega) hffinal
  rw [execAll_cons hexec1, execAll_cons hexec2, execAll_append hexec3, execAll_singleton, hexec4]

/-- Settles O37: FBLOCK completes without an error only where FBLOCK-body answers, whose parts are
the steps. -/
theorem steppedBlockEqualsFblock : Obligations.SteppedBlockEqualsFblock := by
  intro vd vs1 vs2 s t herr hexec hsucceeds
  cases hrule : fblockRule vd vs1 vs2 s with
  | error e =>
    obtain rfl := Host.Outcome.next.inj (hexec.symm.trans (runCommand_error herr hrule))
    exact absurd hsucceeds e.code_ne_zero
  | ok u =>
    obtain rfl := Host.Outcome.next.inj (hexec.symm.trans (runCommand_ok herr hrule))
    obtain ⟨h1, h2, x, hbody, rfl⟩ := fblockRule_ok hrule
    exact execAll_stepped_block herr h1 h2 hbody

end Sys2Proof.Machine
end
